-- ==== Sys2Proof/Word.lean ====
section
/-! DEFINITION. The words of PSTC: a byte, a 32-bit word (10_state.md R23, R34) and the three words of a request
(30_encoding.md R91). All values are unsigned (00_scope.md R10). -/

namespace Sys2Proof

/-- A byte of `Mem` or a byte operand. -/
abbrev Byte := BitVec 8

/-- A register, an address or an operand word: `AW` = 32 (00_scope.md R9). -/
abbrev Word := BitVec 32

/-- The 96-bit format `REQ96`: header `W0` and the operands `A` and `B` (R91). -/
structure Request where
  w0 : Word
  a  : Word
  b  : Word
  deriving DecidableEq, Repr, Inhabited

end Sys2Proof
end

