-- ==== Sys2Proof/Config.lean ====
section
/-! DEFINITION. What an instance of the hardware fixes (the parameters of 00_scope.md R9) and what the environment
chooses (10_state.md R37, 20_memory.md R66): ports, draws and moves, and the free move. -/

namespace Sys2Proof

/-- How a cursor is seen across a clock domain: `RB_SYNC`, `DIB_SYNC` (R9, R69, R71). -/
inductive SyncMode where
  | direct
  | gray
  deriving DecidableEq, Repr, Inhabited

/-- A request port (30_encoding.md R90): the producer port `P_i` of an RB instance, or the main port `M`. -/
inductive Port where
  | prod (i : Nat)
  | main
  deriving DecidableEq, Repr, Inhabited

/-- The parameters of R9 but for `N_RB`, which is the number of instances in the state (log 2), and `AW`, the width of
`Word`. The state carries them and no step changes them (log 1). -/
structure Params where
  /-- `RB_SYNC` -/
  rbSync      : SyncMode
  /-- `DIB_SYNC` -/
  dibSync     : SyncMode
  /-- `DIB_CAP`, in bytes -/
  dibCap      : Nat
  /-- `DIB_BASE` -/
  dibBase     : Word
  /-- `CD_CAP`, in bytes -/
  cdCap       : Nat
  /-- `T_STOP_US` -/
  tStopUs     : Nat
  /-- `BUS_CLOCK_HZ`: it appears only as the argument of the `Reinit` event (R159, log 24) -/
  busClockHz  : Nat
  /-- `RB_ACCEPT_SIZE1` -/
  acceptSize1 : Bool
  deriving DecidableEq, Repr, Inhabited

/-- The parameters of the reset state: defaults and reference values of R9; DESIGN CHOICE for `DIB_BASE` and `CD_CAP`
(the values 95_test_vectors.md uses) and for `BUS_CLOCK_HZ` (0), which the spec leaves open (log 1, unsafe). -/
def Params.reference : Params :=
  { rbSync := .direct, dibSync := .direct, dibCap := 256, dibBase := 0x20004000#32, cdCap := 16,
    tStopUs := 10, busClockHz := 0, acceptSize1 := true }

/-- The answer of the raw peripheral write (41_bus_recovery.md R152). -/
inductive RawOutcome where
  | written (n : Nat)
  | timeout
  | failure
  deriving DecidableEq, Repr, Inhabited

/-- What the environment draws for one step of a port (R37): the raw write's outcome (R152), the sampled data line
(R157) and the two pull-up levels of step V1 (R156). A step uses the draws its rule names. -/
structure Draw where
  outcome : RawOutcome
  sample  : Bool
  sdaPull : Bool
  sclPull : Bool
  deriving DecidableEq, Repr, Inhabited

/-- The draws `env.draw` holds before any step has been taken; DESIGN CHOICE (log 4). -/
def Draw.zero : Draw := { outcome := .written 0, sample := false, sdaPull := false, sclPull := false }

/-- Which agent takes the next atomic step and with what inputs (R37, R66, R99). -/
inductive Move where
  /-- the agent of port `p` presents request `r` (R90) -/
  | request (p : Port) (r : Request)
  /-- port `p` takes the next step of its request in flight, with draws `d` -/
  | port (p : Port) (d : Draw)
  /-- `HW.WRITE`, byte `b` arrives (R195) -/
  | hwWrite (b : Byte)
  /-- `TX.BYTE` (R197) -/
  | txByte
  /-- `TX.DONE` (R198) -/
  | txDone
  /-- `SYNC.H(i)` (R70) -/
  | syncH (i : Nat)
  /-- `SYNC.T(i)` (R70) -/
  | syncT (i : Nat)
  /-- `SYNC.D` (R71) -/
  | syncD
  /-- `ENV.WRITE(a, v)` (R79) -/
  | envWrite (a : Word) (v : Byte)
  /-- `ENV.READ(a)` (R79) -/
  | envRead (a : Word)
  /-- the reset input is asserted (R280); the values R44 leaves unspecified are drawn (log 13) -/
  | reset (sdaPull sclPull : Bool) (acc : List Byte)
  deriving DecidableEq, Repr, Inhabited

/-- FREE VALUE: what the environment does when no script says (log 3). Nothing is known of it, so a claim that
does not fix the script holds for every behaviour of the environment. -/
opaque Config.freeMove : Nat → Move

end Sys2Proof
end

