-- ==== Sys2Proof/Syntax.lean ====
section
/-! DEFINITION. The thirteen requests of PSTC (30_encoding.md R92, R94): one request on a port is this hardware's
instruction. A field an operation ignores (R92) is not part of the instruction. -/

namespace Sys2Proof

/-- One constructor per row of spec/opcode_table.json, its operands as R92 assembles them. -/
inductive Instr where
  /-- `SYS.CSRR csr` (R240) -/
  | sysCsrr (csr : BitVec 12)
  /-- `SYS.CSRW csr, value` (R241) -/
  | sysCsrw (csr : BitVec 12) (value : Word)
  /-- `RB.INIT i, base, size` (R120) -/
  | rbInit (sel : BitVec 8) (base size : Word)
  /-- `RB.PUSH i, byte` (R121) -/
  | rbPush (sel : BitVec 8) (byte : Byte)
  /-- `RB.POP i` (R122) -/
  | rbPop (sel : BitVec 8)
  /-- `RB.IS_EMPTY i` (R124) -/
  | rbIsEmpty (sel : BitVec 8)
  /-- `RB.IS_FULL i` (R125) -/
  | rbIsFull (sel : BitVec 8)
  /-- `BRC.SAFE_WRITE addr, data, length` (R150) -/
  | brcSafeWrite (addr : Byte) (data length : Word)
  /-- `BRC.RECOVER` (R154) -/
  | brcRecover
  /-- `DIB.INIT` (R190) -/
  | dibInit
  /-- `DIB.SEND data, length` (R191) -/
  | dibSend (data length : Word)
  /-- `DIB.READ output, max_len` (R192) -/
  | dibRead (output maxLen : Word)
  /-- `CD.FEED byte` (R220) -/
  | cdFeed (byte : Byte)
  deriving DecidableEq, Repr, Inhabited

end Sys2Proof
end

