-- ==== Sys2Proof/WellFormed.lean ====
section
/-! DEFINITION. What a well-formed instruction and well-formed parameters are: the instance an RB request selects exists
(30_encoding.md R96), and the constraints of 00_scope.md R9 and 20_memory.md R63 on an instance's parameters. -/

namespace Sys2Proof

/-- The RB instance a request names in `sel` (R92), for the requests that have one. -/
def Instr.instanceOf : Instr → Option Nat
  | .rbInit sel _ _ => some sel.toNat
  | .rbPush sel _ => some sel.toNat
  | .rbPop sel => some sel.toNat
  | .rbIsEmpty sel => some sel.toNat
  | .rbIsFull sel => some sel.toNat
  | .sysCsrr _ => none
  | .sysCsrw _ _ => none
  | .brcSafeWrite _ _ _ => none
  | .brcRecover => none
  | .dibInit => none
  | .dibSend _ _ => none
  | .dibRead _ _ => none
  | .cdFeed _ => none

/-- The instruction selects an instance that exists when there are `nRb` of them (R96: `sel >= N_RB` is refused). -/
def Instr.wellFormed (nRb : Nat) (i : Instr) : Bool :=
  match i.instanceOf with
  | some k => k < nRb
  | none => true

/-- `DIB_CAP` is a power of two, at least 2, inside the address space (R9, R63). -/
def Params.dibCapOk (c : Params) : Bool := 2 ≤ c.dibCap && c.dibCap ≤ 2 ^ 32 && 2 ^ c.dibCap.log2 = c.dibCap

/-- `DIB_BASE mod DIB_CAP = 0` (R9, R63). -/
def Params.dibBaseOk (c : Params) : Bool := c.dibBase.toNat % c.dibCap = 0

/-- `CD_CAP` is at least 5 (R9); the upper bound is DEDUCED from the CSR `CD_IDX` holding the zero-extended index in
32 bits (10_state.md R38, log 20). -/
def Params.cdCapOk (c : Params) : Bool := 5 ≤ c.cdCap && c.cdCap ≤ 2 ^ 32

/-- The parameters are those of some instance of the hardware (R9). -/
def Params.wellFormed (c : Params) : Bool := c.dibCapOk && c.dibBaseOk && c.cdCapOk

/-- `N_RB` is 1 to 256 (R9). -/
def nRbOk (n : Nat) : Bool := 1 ≤ n && n ≤ 256

end Sys2Proof
end

