-- ==== Sys2Proof/Decode.lean ====
section
/-! DEFINITION. Decoding a request (30_encoding.md R91, R92, R94, R95, R98) and, after it, encoding one. Decoding is
total: a word that matches no row is rejected by name. -/

namespace Sys2Proof

/-- Why a request matches no row of R95 (R98), or is no whole request (R91). -/
inductive DecodeError where
  /-- `opc` is unassigned -/
  | unassignedOpcode
  /-- `sel` must be 0 and is not -/
  | reservedSel
  /-- a bit of `imm16` that must be 0 is not -/
  | reservedImm
  /-- fewer than twelve bytes -/
  | shortRequest
  deriving DecidableEq, Repr

/-- The result of decoding. -/
inductive Decoded where
  | instr (i : Instr)
  | bad (e : DecodeError)
  deriving DecidableEq, Repr

/-- `opc = W0[31:24]` (R91). -/
def opcOf (w0 : Word) : BitVec 8 := w0.extractLsb' 24 8

/-- `sel = W0[23:16]` (R91). -/
def selOf (w0 : Word) : BitVec 8 := w0.extractLsb' 16 8

/-- `imm16 = W0[15:0]` (R91). -/
def immOf (w0 : Word) : BitVec 16 := w0.extractLsb' 0 16

/-- A byte operand is `A[7:0]` (R92). -/
def byteOf (a : Word) : Byte := a.extractLsb' 0 8

/-- The row asks for `sel = 0`. -/
def whenSel0 (r : Request) (d : Decoded) : Decoded := if selOf r.w0 = 0 then d else .bad .reservedSel

/-- The row asks for `imm16 = 0`. -/
def whenImm0 (r : Request) (d : Decoded) : Decoded := if immOf r.w0 = 0 then d else .bad .reservedImm

/-- The row asks for `imm16[15:8] = 0`. -/
def whenImm8 (r : Request) (d : Decoded) : Decoded :=
  if (immOf r.w0).extractLsb' 8 8 = 0 then d else .bad .reservedImm

/-- The row asks for `imm16[15:12] = 0`. -/
def whenImm12 (r : Request) (d : Decoded) : Decoded :=
  if (immOf r.w0).extractLsb' 12 4 = 0 then d else .bad .reservedImm

/-- The row of R94 and R95 a request matches, with its operands assembled as R92 says. -/
def decodeWords (r : Request) : Decoded :=
  match (opcOf r.w0).toNat with
  | 0x01 => whenSel0 r (whenImm12 r (.instr (.sysCsrr ((immOf r.w0).extractLsb' 0 12))))
  | 0x02 => whenSel0 r (whenImm12 r (.instr (.sysCsrw ((immOf r.w0).extractLsb' 0 12) r.a)))
  | 0x10 => whenImm0 r (.instr (.rbInit (selOf r.w0) r.a r.b))
  | 0x11 => whenImm0 r (.instr (.rbPush (selOf r.w0) (byteOf r.a)))
  | 0x12 => whenImm0 r (.instr (.rbPop (selOf r.w0)))
  | 0x13 => whenImm0 r (.instr (.rbIsEmpty (selOf r.w0)))
  | 0x14 => whenImm0 r (.instr (.rbIsFull (selOf r.w0)))
  | 0x20 => whenSel0 r (whenImm8 r (.instr (.brcSafeWrite ((immOf r.w0).extractLsb' 0 8) r.a r.b)))
  | 0x21 => whenSel0 r (whenImm0 r (.instr .brcRecover))
  | 0x30 => whenSel0 r (whenImm0 r (.instr .dibInit))
  | 0x31 => whenSel0 r (whenImm0 r (.instr (.dibSend r.a r.b)))
  | 0x32 => whenSel0 r (whenImm0 r (.instr (.dibRead r.a r.b)))
  | 0x40 => whenSel0 r (whenImm0 r (.instr (.cdFeed (byteOf r.a))))
  | _ => .bad .unassignedOpcode

/-- A word from its four bytes, least significant first (20_memory.md R62). -/
def wordOfBytes (b0 b1 b2 b3 : Byte) : Word := b3 ++ b2 ++ b1 ++ b0

/-- The four bytes of a word, least significant first (R62). -/
def bytesOfWord (w : Word) : List Byte :=
  [w.extractLsb' 0 8, w.extractLsb' 8 8, w.extractLsb' 16 8, w.extractLsb' 24 8]

/-- A request carried over a byte-wide channel: `W0`, `A`, `B`, each least significant byte first (R62). -/
def Request.bytes (r : Request) : List Byte := bytesOfWord r.w0 ++ bytesOfWord r.a ++ bytesOfWord r.b

/-- Decode the twelve bytes at the front of a byte-wide channel; the rest of the bytes comes back
(R62, log 22). -/
def decodeBytes : List Byte → Decoded × List Byte
  | w0 :: w1 :: w2 :: w3 :: a0 :: a1 :: a2 :: a3 :: b0 :: b1 :: b2 :: b3 :: rest =>
    (decodeWords { w0 := wordOfBytes w0 w1 w2 w3, a := wordOfBytes a0 a1 a2 a3, b := wordOfBytes b0 b1 b2 b3 }, rest)
  | bs => (.bad .shortRequest, bs)

/-- A request from a number whose bit 0 is bit 0 of `W0` and whose bits count on through `A` and `B`; the bits from
`nbits` up are 0. -/
def requestOfTableWord (nbits w : Nat) : Request :=
  let v := w % 2 ^ nbits
  { w0 := BitVec.ofNat 32 v, a := BitVec.ofNat 32 (v / 2 ^ 32), b := BitVec.ofNat 32 (v / 2 ^ 64) }

/-- What the decoder reads from the request whose bits are `w`, laid out as bytes. -/
def decodeTableWord (nbits w : Nat) : Option Instr :=
  match (decodeBytes (requestOfTableWord nbits w).bytes).1 with
  | .instr i => some i
  | .bad _ => none

/-- One row of R95: `W0 & mask = pattern` selects the operation. -/
structure Row where
  pattern : Word
  mask    : Word
  deriving DecidableEq, Repr

/-- The row of R95 of each operation. -/
def Instr.row : Instr → Row
  | .sysCsrr _ => ⟨0x01000000#32, 0xFFFFF000#32⟩
  | .sysCsrw _ _ => ⟨0x02000000#32, 0xFFFFF000#32⟩
  | .rbInit _ _ _ => ⟨0x10000000#32, 0xFF00FFFF#32⟩
  | .rbPush _ _ => ⟨0x11000000#32, 0xFF00FFFF#32⟩
  | .rbPop _ => ⟨0x12000000#32, 0xFF00FFFF#32⟩
  | .rbIsEmpty _ => ⟨0x13000000#32, 0xFF00FFFF#32⟩
  | .rbIsFull _ => ⟨0x14000000#32, 0xFF00FFFF#32⟩
  | .brcSafeWrite _ _ _ => ⟨0x20000000#32, 0xFFFFFF00#32⟩
  | .brcRecover => ⟨0x21000000#32, 0xFFFFFFFF#32⟩
  | .dibInit => ⟨0x30000000#32, 0xFFFFFFFF#32⟩
  | .dibSend _ _ => ⟨0x31000000#32, 0xFFFFFFFF#32⟩
  | .dibRead _ _ => ⟨0x32000000#32, 0xFFFFFFFF#32⟩
  | .cdFeed _ => ⟨0x40000000#32, 0xFFFFFFFF#32⟩

/-- `W0` of a request has the row's pattern under its mask (R95). -/
def Row.matchesWord (row : Row) (w0 : Word) : Bool := w0 &&& row.mask = row.pattern

/-- One instruction of each row, in the order of R95. -/
def tableInstrs : List Instr :=
  [.sysCsrr 0, .sysCsrw 0 0, .rbInit 0 0 0, .rbPush 0 0, .rbPop 0, .rbIsEmpty 0, .rbIsFull 0,
   .brcSafeWrite 0 0 0, .brcRecover, .dibInit, .dibSend 0 0, .dibRead 0 0, .cdFeed 0]

/-- The opcode map, in the order of R95. -/
def opcodeRows : List Row := tableInstrs.map Instr.row

/-- `W0` from its fields: opcode, `sel`, `imm16` (R91). -/
def header (opc sel : BitVec 8) (imm : BitVec 16) : Word := (opc ++ sel ++ imm : BitVec 32)

/-- The words of an instruction, ignored operand bits 0 (R92, R94). -/
def encode : Instr → Request
  | .sysCsrr csr => ⟨header 0x01 0 (csr.setWidth 16), 0, 0⟩
  | .sysCsrw csr value => ⟨header 0x02 0 (csr.setWidth 16), value, 0⟩
  | .rbInit sel base size => ⟨header 0x10 sel 0, base, size⟩
  | .rbPush sel byte => ⟨header 0x11 sel 0, byte.setWidth 32, 0⟩
  | .rbPop sel => ⟨header 0x12 sel 0, 0, 0⟩
  | .rbIsEmpty sel => ⟨header 0x13 sel 0, 0, 0⟩
  | .rbIsFull sel => ⟨header 0x14 sel 0, 0, 0⟩
  | .brcSafeWrite addr data length => ⟨header 0x20 0 (addr.setWidth 16), data, length⟩
  | .brcRecover => ⟨header 0x21 0 0, 0, 0⟩
  | .dibInit => ⟨header 0x30 0 0, 0, 0⟩
  | .dibSend data length => ⟨header 0x31 0 0, data, length⟩
  | .dibRead output maxLen => ⟨header 0x32 0 0, output, maxLen⟩
  | .cdFeed byte => ⟨header 0x40 0 0, byte.setWidth 32, 0⟩

end Sys2Proof
end

