-- ==== Sys2Proof/Machine/State.lean ====
section
/-! DEFINITION. The state of PSTC (10_state.md), the reasons a step can stop, and the state after reset (R44). -/

namespace Sys2Proof.Machine

/-- The status of a response (60_exceptions.md R251). -/
inductive Status where
  | ok
  | configError
  | bufferFull
  | bufferEmpty
  | busTimeout
  | badRequest
  deriving DecidableEq, Repr, Inhabited

/-- A response (30_encoding.md R93). -/
structure Response where
  status : Status
  value  : Word
  deriving DecidableEq, Repr, Inhabited

/-- The named steps of the requests (R12, R22): the values of a port's `phase`, each the NEXT step to be taken. -/
inductive Phase where
  | i1
  | p1 | p2 | p3
  | c1 | c2 | c3
  | e1
  | f1
  | w1 | w2 | w3
  | v1 | v2 | v3 | v4
  | x1
  | n1
  | s1
  | d1 | d2 | d3
  | k1
  | g1
  | h1
  deriving DecidableEq, Repr, Inhabited

/-- The temporaries the steps name (R36): state of the port while its request is in flight (R12). -/
structure Temps where
  /-- `t_next` -/
  next    : Word
  /-- `t_tail` -/
  tail    : Word
  /-- `t_head` -/
  head    : Word
  /-- `t_b` -/
  byte    : Byte
  /-- `t_prod` -/
  prod    : Word
  /-- `t_cnt` -/
  cnt     : Word
  /-- `t_payload` -/
  payload : List Byte
  /-- `t_outcome`, none until it has been drawn -/
  outcome : Option RawOutcome
  deriving DecidableEq, Repr, Inhabited

/-- The temporaries of a request that has just been accepted; DESIGN CHOICE, no rule reads one before its step has
written it (log 9). -/
def Temps.zero : Temps :=
  { next := 0, tail := 0, head := 0, byte := 0, prod := 0, cnt := 0, payload := [], outcome := none }

/-- A request in flight on a port (R36): accepted and not yet responded to. -/
structure Flight where
  instr : Instr
  phase : Phase
  temps : Temps
  deriving DecidableEq, Repr, Inhabited

/-- A port's in-flight record (R36). -/
structure PortRec where
  /-- `busy` is `flight.isSome` -/
  flight : Option Flight
  /-- the response the port's last request ended with, none before the first and while one is in flight (log 8) -/
  resp   : Option Response
  deriving DecidableEq, Repr, Inhabited

/-- A port after reset: idle (R44, R280). -/
def PortRec.idle : PortRec := { flight := none, resp := none }

/-- A RingBuffer instance (R23, R24) with the in-flight record of its producer port `P_i` (R36, R90). -/
structure Rb where
  base     : Word
  mask     : Word
  head     : Word
  tail     : Word
  /-- `head_seen`; in `DIRECT` mode it does not exist, stays 0 and is never read (log 23) -/
  headSeen : Word
  /-- `tail_seen`; as `headSeen` -/
  tailSeen : Word
  port     : PortRec
  deriving DecidableEq, Repr, Inhabited

/-- An instance after reset (R44, R45). -/
def Rb.reset : Rb :=
  { base := 0, mask := 0, head := 0, tail := 0, headSeen := 0, tailSeen := 0, port := PortRec.idle }

/-- `brc.state` (R27). -/
inductive BrcState where
  | idle
  | pulseClock
  | generateStop
  | reinit
  deriving DecidableEq, Repr, Inhabited

/-- The BusRecoveryController's registers (R26, R27). -/
structure Brc where
  addr      : BitVec 8
  timeoutUs : Word
  pulses    : BitVec 4
  pwidthUs  : BitVec 16
  state     : BrcState
  n         : BitVec 4
  deriving DecidableEq, Repr, Inhabited

/-- The registers after reset (R44): the source's reference values. -/
def Brc.reset : Brc :=
  { addr := 0, timeoutUs := 50000#32, pulses := 9#4, pwidthUs := 10#16, state := .idle, n := 0 }

/-- A pin's mode (R28). -/
inductive PinMode where
  | function
  | input
  | output
  deriving DecidableEq, Repr, Inhabited

/-- The two pins of the bus (R28); a level or a pull-up bit of 1 is `true`. -/
structure Pins where
  sdaMode : PinMode
  sclMode : PinMode
  sdaOut  : Bool
  sclOut  : Bool
  sdaPull : Bool
  sclPull : Bool
  deriving DecidableEq, Repr, Inhabited

/-- The pins after reset (R44). The pull-ups are unspecified there: the caller names their value. -/
def Pins.reset (sdaPull sclPull : Bool) : Pins :=
  { sdaMode := .function, sclMode := .function, sdaOut := true, sclOut := true, sdaPull := sdaPull, sclPull := sclPull }

/-- The DmaIngestBridge's registers (R29, R30). -/
structure Dib where
  run    : Bool
  hw     : Word
  rd     : Word
  /-- `hw_seen`; in `DIRECT` mode it does not exist and is never read (log 23) -/
  hwSeen : Word
  txBusy : Bool
  txSrc  : Word
  txRem  : Word
  deriving DecidableEq, Repr, Inhabited

/-- The bridge after reset (R44). -/
def Dib.reset (dibBase : Word) : Dib :=
  { run := false, hw := dibBase, rd := 0, hwSeen := dibBase, txBusy := false, txSrc := 0, txRem := 0 }

/-- The CommandDecoder (R32): the accumulation buffer of `CD_CAP` bytes and the write index. -/
structure Cd where
  acc : List Byte
  idx : Nat
  deriving DecidableEq, Repr, Inhabited

/-- One of the two wires of the bus. -/
inductive Pin where
  | sda
  | scl
  deriving DecidableEq, Repr, Inhabited

/-- An event of `pin_trace` (41_bus_recovery.md R155). -/
inductive PinEvent where
  | mode (pin : Pin) (m : PinMode)
  | drive (pin : Pin) (level : Bool)
  | sample (level : Bool)
  | pull (pin : Pin)
  | wait (us : Nat)
  deriving DecidableEq, Repr, Inhabited

/-- An event of `bus_trace` (R150, R155). -/
inductive BusEvent where
  | write (addr : BitVec 8) (payload : List Byte) (timeoutUs : Word)
  | result (outcome : RawOutcome)
  | reinit (hz : Nat)
  deriving DecidableEq, Repr, Inhabited

/-- System memory `Mem` (R34): address and byte, addresses strictly rising, no entry equal to what an unlisted address
reads as. -/
abbrev Memory := List Host.Cell

/-- What an address that nothing has written reads as. The spec leaves `Mem` after reset unspecified (R44, U13);
DESIGN CHOICE 0 (log 10, unsafe). -/
def Memory.unlisted : Byte := 0

/-- The environment's part of the state: the MODEL's own fields (log 3, log 4, log 6). -/
structure Env where
  /-- the moves that come next -/
  script : List Move
  /-- the number of free moves taken so far: the argument of `Config.freeMove` when the script is empty -/
  tick   : Nat
  /-- the port whose step is being taken -/
  acting : Port
  /-- the draws of the step being taken -/
  draw   : Draw
  deriving DecidableEq, Repr, Inhabited

/-- The environment at reset: no script; DESIGN CHOICE for the fields a step loads before it reads them (log 3). -/
def Env.reset : Env := { script := [], tick := 0, acting := .main, draw := Draw.zero }

/-- The state of PSTC (R20). -/
structure State where
  /-- the parameters of R9, which no step changes (log 1) -/
  cfg      : Params
  /-- the RB instances with their producer ports; `N_RB` is the list's length (log 2) -/
  rb       : List Rb
  /-- port `M` -/
  main     : PortRec
  brc      : Brc
  pins     : Pins
  dib      : Dib
  cd       : Cd
  mem      : Memory
  /-- `pin_trace`, oldest first (R37, log 17) -/
  pinTrace : List PinEvent
  /-- `bus_trace`, oldest first -/
  busTrace : List BusEvent
  /-- `tx_out`, oldest first -/
  txOut    : List Byte
  env      : Env
  deriving DecidableEq, Repr, Inhabited

/-- Why the machine stops with a fault. -/
inductive Fault where
  /-- Raised by `accept` and by step I1: an `RB.INIT i` while a request is in flight on `P_i`, or a request on `P_i`
  while an `RB.INIT i` is in flight. A fault of the program (70_reset_and_hazards.md R291, U2, log 14). Safe: the
  model stops where the spec gives no meaning. -/
  | initRace
  deriving DecidableEq, Repr, Inhabited

/-- Why the machine gives a step no meaning. -/
inductive Refusal where
  /-- Raised by an arm of `exec` whose instruction has no meaning yet. Safe. -/
  | notModelled (mnemonic : String)
  /-- Raised by the first step of RB.INIT, BRC.SAFE_WRITE, DIB.SEND and DIB.READ: a region crosses the top of the
  address space (20_memory.md R64, U3, log 15). Safe: the spec says that a model refuses it. -/
  | regionWraps
  /-- Raised by the first step of RB.INIT, DIB.INIT and DIB.READ: a region overlaps a store or the DIB buffer
  (70_reset_and_hazards.md R294, U3, log 15). Safe: the spec says that a model refuses it. -/
  | regionOverlaps
  /-- Raised by the move ENV.WRITE into a live store, the DIB buffer once `DIB.INIT` has run, or the data bytes of a
  BRC.SAFE_WRITE in flight (20_memory.md R79; 70_reset_and_hazards.md R292, R293; U4; log 16).
  Safe: the spec gives `ENV` no such step. -/
  | envContract
  deriving DecidableEq, Repr, Inhabited

/-- The outcome of a step of this machine. -/
abbrev Result := Host.Outcome State Fault Refusal

/-- Reset (R44, R280) of a machine with parameters `c` and `n` RB instances. The pull-ups and `cd.acc`, which R44
leaves unspecified, are 0: DESIGN CHOICE (log 11, log 12, unsafe). -/
def State.resetWith (c : Params) (n : Nat) : State :=
  { cfg := c, rb := List.replicate n Rb.reset, main := PortRec.idle, brc := Brc.reset,
    pins := Pins.reset false false, dib := Dib.reset c.dibBase,
    cd := { acc := List.replicate c.cdCap 0, idx := 0 }, mem := [], pinTrace := [], busTrace := [], txOut := [],
    env := Env.reset }

/-- The machine right after reset, with the reference parameters and the default of two RB instances (R9, log 1). -/
def State.reset : State := State.resetWith Params.reference 2

end Sys2Proof.Machine
end

