-- ==== Sys2Proof/Machine/Ops.lean ====
section
/-! DEFINITION. The named operations over memory, RB instances and ports, the acceptance of a request (step D0) and the
one operation that ends a request. A failure is a status in the response: this hardware has no trap to take
(60_exceptions.md R250, R256), so `State.respond` stands where another machine takes an exception. -/

namespace Sys2Proof.Machine

/-! ## Memory (10_state.md R34, 20_memory.md R61) -/

/-- The byte at address `a`. -/
def Memory.read : Memory → Nat → Byte
  | [], _ => Memory.unlisted
  | (k, v) :: rest, a => if k = a then v else Memory.read rest a

/-- A cell in front of a memory, left out where it holds what an unlisted address reads as. -/
def Memory.cons (a : Nat) (v : Byte) (rest : Memory) : Memory :=
  if v = Memory.unlisted then rest else (a, v) :: rest

/-- Store byte `v` at address `a`, keeping the canonical form. -/
def Memory.write : Memory → Nat → Byte → Memory
  | [], a, v => Memory.cons a v []
  | (k, w) :: rest, a, v =>
    if a < k then Memory.cons a v ((k, w) :: rest)
    else if a = k then Memory.cons a v rest
    else (k, w) :: Memory.write rest a v

/-- The addresses of the memory rise from `lo` on and stay below 2^32, and no entry is what an unlisted address
reads as. -/
def Memory.wfFrom : Nat → Memory → Bool
  | _, [] => true
  | lo, (k, v) :: rest => lo ≤ k && k < 2 ^ 32 && v ≠ Memory.unlisted && Memory.wfFrom (k + 1) rest

/-- The canonical form of a memory. -/
def Memory.wf (m : Memory) : Bool := Memory.wfFrom 0 m

/-- `MemRead(a, 1)` (00_scope.md R11). -/
def State.load (s : State) (a : Word) : Byte := s.mem.read a.toNat

/-- `MemWrite(a, 1, v)` (R11). -/
def State.store (s : State) (a : Word) (v : Byte) : State := { s with mem := s.mem.write a.toNat v }

/-- The bytes at `a, a + 1, …`, `n` of them. -/
def State.loadBytes (s : State) (a : Word) : Nat → List Byte
  | 0 => []
  | n + 1 => s.load a :: s.loadBytes (a + 1) n

/-! ## RB instances and ports -/

/-- `N_RB` (00_scope.md R9). -/
def State.nRb (s : State) : Nat := s.rb.length

/-- The instance `rb[i]`. -/
def State.rbAt (s : State) (i : Nat) : Rb := s.rb.getD i Rb.reset

/-- Write the instance `rb[i]`. -/
def State.setRb (s : State) (i : Nat) (r : Rb) : State := { s with rb := s.rb.set i r }

/-- The in-flight record of port `p` (R36). -/
def State.port (s : State) (p : Port) : PortRec :=
  match p with
  | .prod i => (s.rbAt i).port
  | .main => s.main

/-- Write the in-flight record of port `p`. -/
def State.setPort (s : State) (p : Port) (rec : PortRec) : State :=
  match p with
  | .prod i => s.setRb i { s.rbAt i with port := rec }
  | .main => { s with main := rec }

/-- The port exists: `M`, or `P_i` with `i < N_RB` (R90). -/
def State.hasPort (s : State) (p : Port) : Bool :=
  match p with
  | .prod i => i < s.nRb
  | .main => true

/-- `busy` (R36). -/
def State.busy (s : State) (p : Port) : Bool := (s.port p).flight.isSome

/-- The request in flight on the port whose step is being taken. -/
def State.flight (s : State) : Option Flight := (s.port s.env.acting).flight

/-- The next step of the acting port, none when it is idle (R22, R36). -/
def State.phase (s : State) : Option Phase := s.flight.map Flight.phase

/-- The temporaries of the acting port's request (R12, R36). -/
def State.temps (s : State) : Temps :=
  match s.flight with
  | some f => f.temps
  | none => Temps.zero

/-- The status codes of 60_exceptions.md R251. -/
def Status.code : Status → BitVec 8
  | .ok => 0
  | .configError => 1
  | .bufferFull => 2
  | .bufferEmpty => 3
  | .busTimeout => 4
  | .badRequest => 5

/-- `respond(status, value)` (R11, R93): the request on the acting port ends with this response and `busy` is cleared
(R36). It changes nothing else (R250). -/
def State.respond (s : State) (status : Status) (value : Word) : State :=
  s.setPort s.env.acting { flight := none, resp := some { status := status, value := value } }

/-- The response of a failure: `value` is 0 with every non-zero status (R93, R251). -/
def State.fail (s : State) (status : Status) : State := s.respond status 0

/-- The acting port's request goes on: its next step is `ph`, its temporaries are `t` (R22, R36). -/
def State.advance (s : State) (ph : Phase) (t : Temps) : State :=
  match s.flight with
  | some f => s.setPort s.env.acting { flight := some { f with phase := ph, temps := t }, resp := none }
  | none => s

/-- The acting port's request goes on with its temporaries as they are. -/
def State.goto (s : State) (ph : Phase) : State := s.advance ph s.temps

/-! ## Acceptance: step D0 (30_encoding.md R96, R97) -/

/-- Which port admits which request (R97), the instance numbers compared as R96 says. -/
def admits (p : Port) (i : Instr) : Bool :=
  match i with
  | .sysCsrr _ => p = .main
  | .sysCsrw _ _ => p = .main
  | .rbInit _ _ _ => p = .main
  | .rbPush sel _ => p = .prod sel.toNat
  | .rbPop _ => p = .main
  | .rbIsEmpty sel => p = .main || p = .prod sel.toNat
  | .rbIsFull sel => p = .main || p = .prod sel.toNat
  | .brcSafeWrite _ _ _ => p = .main
  | .brcRecover => p = .main
  | .dibInit => p = .main
  | .dibSend _ _ => p = .main
  | .dibRead _ _ => p = .main
  | .cdFeed _ => p = .main

/-- An `RB.INIT k` is in flight on port M. -/
def State.initInFlight (s : State) (k : Nat) : Bool :=
  match s.main.flight with
  | some f => f.phase = .i1 && f.instr.instanceOf = some k
  | none => false

/-- The hazard of 70_reset_and_hazards.md R291 (U2, log 14): a request on `P_k` while an `RB.INIT k` is in flight, or an
`RB.INIT k` while a request on `P_k` is in flight. `first` is the request's first step. -/
def State.initHazard (s : State) (i : Instr) (first : Phase) : Bool :=
  match s.env.acting with
  | .prod k => s.initInFlight k
  | .main =>
    match i.instanceOf with
    | some k => first = .i1 && s.busy (.prod k)
    | none => false

/-- Step D0 after its checks: the request is in flight and its next step is `first`. -/
def State.begin (s : State) (i : Instr) (first : Phase) : State :=
  s.setPort s.env.acting { flight := some { instr := i, phase := first, temps := Temps.zero }, resp := none }

/-- Step D0 (R96) of a request whose word matches a row: the port accepts it (R90), and answers `BadRequest` or goes on
to the first step of the operation. Acceptance and D0 are one atomic step (log 5). -/
def accept (i : Instr) (first : Phase) (s : State) : Result :=
  if admits s.env.acting i && i.wellFormed s.nRb then
    if s.initHazard i first then .fault .initRace else .next (s.begin i first)
  else .next (s.fail .badRequest)

end Sys2Proof.Machine
end

