-- ==== Sys2Proof/Machine/Flags.lean ====
section
/-! DEFINITION. The derived conditions and the cursor arithmetic of the rings. The hardware has no flag register
(10_state.md R25): empty and full are computed on demand and never stored. -/

namespace Sys2Proof.Machine

/-- The cursor after `c` in a ring of capacity `mask + 1`: `(c + 1) & mask` (40_ringbuffer.md R121, R122). -/
def nextCursor (c mask : Word) : Word := (c + 1) &&& mask

/-- Empty: the two cursors are equal (R25, R124). -/
def cursorsEmpty (head tail : Word) : Bool := head = tail

/-- Full: the cursor after `head` is `tail` (R25, R125). -/
def cursorsFull (head tail mask : Word) : Bool := nextCursor head mask = tail

/-- The occupancy `(head − tail) & mask` (R126). -/
def occupancy (head tail mask : Word) : Word := (head - tail) &&& mask

/-- A condition as a response value: 1 or 0 (30_encoding.md R93). -/
def flagWord (b : Bool) : Word := if b then 1 else 0

/-- `size` is a power of two: `size != 0` and `(size & (size − 1)) = 0` (R120). -/
def sizeOk (size : Word) : Bool := size ≠ 0 && (size &&& (size - 1)) = 0

/-- The Gray code of an index (20_memory.md R72): the wire format between clock domains, which no step uses (log 27). -/
def gray (b : Word) : Word := b ^^^ (b >>> 1)

/-- The inverse of the Gray code (R72), `n` bits of it from the top: each bit is the bit above it exclusive-or its own
code bit. -/
def ungrayTop (g : Word) : Nat → Word
  | 0 => 0
  | n + 1 => g ^^^ (ungrayTop g n >>> 1)

/-- The index whose Gray code is `g` (R72). -/
def ungray (g : Word) : Word := ungrayTop g 32

end Sys2Proof.Machine
end

