-- ==== Sys2Proof/Machine/Operands.lean ====
section
/-! DEFINITION. The forms a request's operands and the cursors are read in: views (20_memory.md R69, R71), regions of
memory (R64), ring and bridge addresses, control registers by index (10_state.md R38), and command strings (R33). -/

namespace Sys2Proof.Machine

/-! ## Views of a cursor across the two domains -/

/-- `view_P(tail)`: what port `P_i` sees of the consumer's cursor (R69). -/
def Rb.viewTail (mode : SyncMode) (r : Rb) : Word :=
  match mode with
  | .direct => r.tail
  | .gray => r.tailSeen

/-- `view_M(head)`: what port M sees of the producer's cursor (R69). -/
def Rb.viewHead (mode : SyncMode) (r : Rb) : Word :=
  match mode with
  | .direct => r.head
  | .gray => r.headSeen

/-- `view_M(dib.hw)` (R71). -/
def State.viewHw (s : State) : Word :=
  match s.cfg.dibSync with
  | .direct => s.dib.hw
  | .gray => s.dib.hwSeen

/-! ## The bridge's buffer -/

/-- `DIB_CAP − 1`: every reduction modulo the capacity is this mask (42_dma_bridge.md R193). -/
def dibMask (c : Params) : Word := BitVec.ofNat 32 (c.dibCap - 1)

/-- From an absolute position to an index: `(abs − BASE) mod CAP` (R193). -/
def dibIndex (c : Params) (abs : Word) : Word := (abs - c.dibBase) &&& dibMask c

/-! ## Regions of memory -/

/-- `len` bytes from address `lo`. -/
structure Region where
  lo  : Nat
  len : Nat
  deriving DecidableEq, Repr

/-- The region does not cross the top of the address space (R64). -/
def Region.fits (r : Region) : Bool := r.lo + r.len ≤ 2 ^ 32

/-- The two regions share no byte (70_reset_and_hazards.md R294). -/
def Region.disjoint (a b : Region) : Bool :=
  a.len = 0 || b.len = 0 || a.lo + a.len ≤ b.lo || b.lo + b.len ≤ a.lo

/-- The address lies in the region. -/
def Region.contains (r : Region) (a : Nat) : Bool := r.lo ≤ a && a < r.lo + r.len

/-- The region an operand pair names: an address and a length. -/
def operandRegion (a len : Word) : Region := { lo := a.toNat, len := len.toNat }

/-- No bytes. -/
def noRegion : Region := { lo := 0, len := 0 }

/-- The `data` bytes a request reads while it holds port M (R150, 70_reset_and_hazards.md R293): those of
`BRC.SAFE_WRITE`. The bytes of `DIB.SEND` are read after it has returned (R293, 93_implementation_defined.md U15). -/
def payloadOf : Instr → Region
  | .sysCsrr _ => noRegion
  | .sysCsrw _ _ => noRegion
  | .rbInit _ _ _ => noRegion
  | .rbPush _ _ => noRegion
  | .rbPop _ => noRegion
  | .rbIsEmpty _ => noRegion
  | .rbIsFull _ => noRegion
  | .brcSafeWrite _ data length => operandRegion data length
  | .brcRecover => noRegion
  | .dibInit => noRegion
  | .dibSend _ _ => noRegion
  | .dibRead _ _ => noRegion
  | .cdFeed _ => noRegion

/-- The backing store of an instance (R34); empty where there is none (`base` = 0, R23). -/
def Rb.store (r : Rb) : Region :=
  { lo := r.base.toNat, len := if r.base = 0 then 0 else r.mask.toNat + 1 }

/-- The DIB destination buffer (R34, R65). -/
def dibRegion (c : Params) : Region := { lo := c.dibBase.toNat, len := c.dibCap }

/-- The region shares no byte with the DIB buffer, whether or not `DIB.INIT` has run (R192 corner case f, R294). -/
def State.clearOfDib (s : State) (g : Region) : Bool := g.disjoint (dibRegion s.cfg)

/-- The region shares no byte with any store. -/
def State.clearOfStores (s : State) (g : Region) : Bool := s.rb.all fun r => g.disjoint r.store

/-- The region shares no byte with any store but that of instance `i`, whose store is about to be replaced. -/
def State.clearOfOtherStores (s : State) (i : Nat) (g : Region) : Bool :=
  (s.rb.set i Rb.reset).all fun r => g.disjoint r.store

/-! ## Control and status registers by index (R38) -/

/-- The four registers of instance `r` as port M sees them: `RB_BASE`, `RB_MASK`, `RB_HEAD`, `RB_TAIL`. -/
def Rb.csr (mode : SyncMode) (r : Rb) (k : Nat) : Word :=
  match k with
  | 0 => r.base
  | 1 => r.mask
  | 2 => r.viewHead mode
  | _ => r.tail

/-- `DIB_STATUS`: bit 0 `dib.run`, bit 1 `dib.tx_busy`. -/
def Dib.status (d : Dib) : Word := flagWord d.run ||| (flagWord d.txBusy <<< 1)

/-- The register an index names, none where it names none; unused bits read 0 (R38, 44_system.md R240). -/
def State.csrRead (s : State) (csr : BitVec 12) : Option Word :=
  match csr.toNat with
  | 0x000 => some (s.brc.addr.setWidth 32)
  | 0x001 => some s.brc.timeoutUs
  | 0x002 => some (s.brc.pulses.setWidth 32)
  | 0x003 => some (s.brc.pwidthUs.setWidth 32)
  | 0x010 => some (BitVec.ofNat 32 s.cd.idx)
  | 0x020 => some s.dib.status
  | 0x021 => some s.dib.rd
  | 0x022 => some s.viewHw
  | k =>
    if 0x100 ≤ k && (k - 0x100) / 4 < s.nRb then
      some ((s.rbAt ((k - 0x100) / 4)).csr s.cfg.rbSync ((k - 0x100) % 4))
    else none

/-- `BRC_PULSES` stores `value[3:0]`, and 9 for a greater one (R41). -/
def clampPulses (value : Word) : BitVec 4 :=
  let v := value.extractLsb' 0 4
  if 9#4 < v then 9#4 else v

/-- The BRC registers after a write of `value` to an index, none where the index is read-only or no register
(R241). -/
def Brc.csrWrite (b : Brc) (csr : BitVec 12) (value : Word) : Option Brc :=
  match csr.toNat with
  | 0x000 => some { b with addr := value.extractLsb' 0 8 }
  | 0x001 => some { b with timeoutUs := value }
  | 0x002 => some { b with pulses := clampPulses value }
  | 0x003 => some { b with pwidthUs := value.extractLsb' 0 16 }
  | _ => none

/-! ## Command strings (R33, 43_command_decoder.md R221, R222) -/

/-- A line terminator: line-feed or carriage-return (R221). -/
def isTerminator (b : Byte) : Bool := b = 0x0A#8 || b = 0x0D#8

/-- The command table (R33): the bytes of "INV", "NORM", "PING" and their identifiers. -/
def commandTable : List (List Byte × Word) :=
  [([0x49#8, 0x4E#8, 0x56#8], 1#32),
   ([0x4E#8, 0x4F#8, 0x52#8, 0x4D#8], 2#32),
   ([0x50#8, 0x49#8, 0x4E#8, 0x47#8], 3#32)]

/-- The identifier of the row of a command table whose bytes equal the line in length and in every byte, `NONE` = 0
where no row does. -/
def lookupIn (table : List (List Byte × Word)) (line : List Byte) : Word :=
  match table with
  | [] => 0
  | (name, code) :: rest => if name = line then code else lookupIn rest line

/-- `lookup(s)` (R222). -/
def lookup (line : List Byte) : Word := lookupIn commandTable line

/-! ## Draws -/

/-- The outcome a draw gives for a write of `length` bytes: a count is brought into `0 .. length` (R152, log 4). -/
def boundedOutcome (o : RawOutcome) (length : Word) : RawOutcome :=
  match o with
  | .written n => .written (n % (length.toNat + 1))
  | .timeout => .timeout
  | .failure => .failure

end Sys2Proof.Machine
end

