-- ==== Sys2Proof/Machine/Agents.lean ====
section
/-! DEFINITION. The autonomous agents (30_encoding.md R99): the ingest and outbound engines, the synchronisers, the
environment's own memory accesses and the reset input; and the routing of a move to the agent that takes it. An agent
that has no enabled step leaves the state as it is (log 7). -/

namespace Sys2Proof.Machine

/-! ## The engines (42_dma_bridge.md R195, R197, R198) -/

/-- `HW.WRITE` (R195): the byte is stored, then the hardware cursor advances; no step while `dib.run` = 0
(log 25). -/
def hwWriteStep (b : Byte) (s : State) : State :=
  if s.dib.run then
    let s := s.store s.dib.hw b
    { s with dib := { s.dib with
        hw := s.cfg.dibBase + ((s.dib.hw - s.cfg.dibBase + 1) &&& dibMask s.cfg) } }
  else s

/-- `TX.BYTE` is enabled (R197). -/
def State.txByteEnabled (s : State) : Bool := s.dib.txBusy && s.dib.txRem ≠ 0

/-- `TX.DONE` is enabled (R198). -/
def State.txDoneEnabled (s : State) : Bool := s.dib.txBusy && s.dib.txRem = 0

/-- `TX.BYTE` (R197): one byte of `Mem`, as it is now, goes out. -/
def txByteStep (s : State) : State :=
  if s.txByteEnabled then
    { s with txOut := s.txOut ++ [s.load s.dib.txSrc],
             dib := { s.dib with txSrc := s.dib.txSrc + 1, txRem := s.dib.txRem - 1 } }
  else s

/-- `TX.DONE` (R198). -/
def txDoneStep (s : State) : State :=
  if s.txDoneEnabled then { s with dib := { s.dib with txBusy := false } } else s

/-! ## The synchronisers (20_memory.md R70, R71): only in `GRAY` mode -/

/-- `SYNC.H(i)` (R70). -/
def syncHStep (i : Nat) (s : State) : State :=
  match s.cfg.rbSync with
  | .direct => s
  | .gray => s.setRb i { s.rbAt i with headSeen := (s.rbAt i).head }

/-- `SYNC.T(i)` (R70). -/
def syncTStep (i : Nat) (s : State) : State :=
  match s.cfg.rbSync with
  | .direct => s
  | .gray => s.setRb i { s.rbAt i with tailSeen := (s.rbAt i).tail }

/-- `SYNC.D` (R71). -/
def syncDStep (s : State) : State :=
  match s.cfg.dibSync with
  | .direct => s
  | .gray => { s with dib := { s.dib with hwSeen := s.dib.hw } }

/-! ## The environment (R79) and reset (70_reset_and_hazards.md R280) -/

/-- The address belongs to the block: it lies in a store, or in the DIB buffer once `DIB.INIT` has run (R292). -/
def State.liveAddress (s : State) (a : Word) : Bool :=
  s.rb.any (fun r => r.store.contains a.toNat) || (s.dib.run && (dibRegion s.cfg).contains a.toNat)

/-- The `data` bytes of a `BRC.SAFE_WRITE` in flight on port M, which must stay still (R293, log 16); no bytes where there
is none. -/
def State.payloadRegion (s : State) : Region :=
  match s.main.flight with
  | some f => payloadOf f.instr
  | none => noRegion

/-- The contract of R290 to R295 forbids software a store to this address: it belongs to the block (R292, U4), or to a
payload that must stay still (R293). -/
def State.envForbidden (s : State) (a : Word) : Bool := s.liveAddress a || s.payloadRegion.contains a.toNat

/-- `ENV.WRITE(a, v)` (R79): software's own store, refused where the contract gives it no step (log 16). -/
def envWriteStep (a : Word) (v : Byte) (s : State) : Result :=
  if s.envForbidden a then .refused .envContract else .next (s.store a v)

/-- A list of exactly `n` bytes: the front of a drawn list, filled up with 0 (log 13). -/
def fitBytes (n : Nat) (bytes : List Byte) : List Byte := (bytes ++ List.replicate n 0).take n

/-- The reset input is asserted (R280, R281): every piece of state at its value of R44, requests in flight dropped
without a response, the traces emptied; `Mem` and the parameters stay. The values R44 leaves unspecified are the
draws (log 13). -/
def resetStep (sdaPull sclPull : Bool) (acc : List Byte) (s : State) : State :=
  let r := State.resetWith s.cfg s.nRb
  { r with pins := Pins.reset sdaPull sclPull, cd := { r.cd with acc := fitBytes s.cfg.cdCap acc },
           mem := s.mem, env := s.env }

/-! ## Routing a move -/

/-- The move the environment makes next: the script's, and the free move when the script is empty (log 3). -/
def State.nextMove (s : State) : Move :=
  match s.env.script with
  | m :: _ => m
  | [] => Config.freeMove s.env.tick

/-- The state once that move has been taken from the script, or the free move's counter advanced (log 3). -/
def State.popMove (s : State) : State :=
  match s.env.script with
  | _ :: rest => { s with env := { s.env with script := rest } }
  | [] => { s with env := { s.env with tick := s.env.tick + 1 } }

/-- The state in which port `p` takes its step. -/
def State.actingAs (s : State) (p : Port) : State := { s with env := { s.env with acting := p } }

/-- The state in which port `p` takes its step with draws `d`. -/
def State.drawing (s : State) (p : Port) (d : Draw) : State := { s with env := { s.env with acting := p, draw := d } }

/-- Where a move leads: to one step of an instruction, or to an outcome of its own. -/
inductive Routed where
  | run (i : Instr) (s : State)
  | settled (o : Result)

/-- A request is presented on port `p` (30_encoding.md R90, R96). A busy port, or one that does not exist, does not
accept it (R36, log 7); a word that matches no row is answered with `BadRequest` (R98). -/
def routeRequest (p : Port) (r : Request) (s : State) : Routed :=
  if s.hasPort p && !s.busy p then
    match decodeWords r with
    | .instr i => .run i (s.actingAs p)
    | .bad _ => .settled (.next ((s.actingAs p).fail .badRequest))
  else .settled (.next s)

/-- Port `p` takes the next step of its request in flight, if it has one (R36, R66). -/
def routePort (p : Port) (d : Draw) (s : State) : Routed :=
  match (s.port p).flight with
  | some f => .run f.instr (s.drawing p d)
  | none => .settled (.next s)

/-- The agent that takes a move (R66, R99). -/
def route (m : Move) (s : State) : Routed :=
  match m with
  | .request p r => routeRequest p r s
  | .port p d => routePort p d s
  | .hwWrite b => .settled (.next (hwWriteStep b s))
  | .txByte => .settled (.next (txByteStep s))
  | .txDone => .settled (.next (txDoneStep s))
  | .syncH i => .settled (.next (syncHStep i s))
  | .syncT i => .settled (.next (syncTStep i s))
  | .syncD => .settled (.next (syncDStep s))
  | .envWrite a v => .settled (envWriteStep a v s)
  | .envRead _ => .settled (.next s)
  | .reset sdaPull sclPull acc => .settled (.next (resetStep sdaPull sclPull acc s))

/-- The port a program would present a request on: `P_sel` for `RB.PUSH` where it exists, and M for the rest (R97). -/
def State.homePort (s : State) (r : Request) : Port :=
  if opcOf r.w0 = 0x11#8 && s.hasPort (.prod (selOf r.w0).toNat) then .prod (selOf r.w0).toNat else .main

/-- Present a request as the very next move, on an idle port (log 19). -/
def State.present (s : State) (r : Request) : State :=
  let p := s.homePort r
  let s := s.setPort p { s.port p with flight := none }
  { s with env := { s.env with script := .request p r :: s.env.script } }

end Sys2Proof.Machine
end

