-- ==== Sys2Proof/Machine/Bridge.lean ====
section
/-! DEFINITION. The DmaIngestBridge requests (42_dma_bridge.md R190 to R192). Each `exec` takes the ONE atomic step the
acting port's phase names; an idle port takes step D0 (log 6). -/

namespace Sys2Proof.Machine

/-! ## DIB.INIT (R190) -/

/-- The bridge after `DIB.INIT`: both cursors at the first slot, ingestion running, the outbound side as it was. -/
def Dib.started (c : Params) (d : Dib) : Dib :=
  match c.dibSync with
  | .direct => { d with hw := c.dibBase, rd := 0, run := true }
  | .gray => { d with hw := c.dibBase, rd := 0, hwSeen := c.dibBase, run := true }

/-- Step N1 (R190); a refusal where the buffer overlaps a store (R294, log 15). -/
def dibInitN1 (s : State) : Result :=
  if !s.clearOfStores (dibRegion s.cfg) then .refused .regionOverlaps
  else .next (({ s with dib := s.dib.started s.cfg }).respond .ok 0)

/-- `DIB.INIT` (R190). -/
def execDibInit (s : State) : Result :=
  match s.phase with
  | none => accept .dibInit .n1 s
  | some .n1 => dibInitN1 s
  | some _ => .next s

/-! ## DIB.SEND (R191) -/

/-- Steps S1 and S2, one atomic step that is enabled only while no transfer is in flight; while one is, port M has no
step and the state stays as it is (R191, log 7); a wrapping region is refused first (DEDUCED, log 26). -/
def dibSendS1 (data length : Word) (s : State) : Result :=
  if !(operandRegion data length).fits then .refused .regionWraps
  else if s.dib.txBusy then .next s
  else .next (({ s with dib := { s.dib with txSrc := data, txRem := length, txBusy := true } }).respond .ok 0)

/-- `DIB.SEND data, length` (R191). -/
def execDibSend (data length : Word) (s : State) : Result :=
  match s.phase with
  | none => accept (.dibSend data length) .s1 s
  | some .s1 => dibSendS1 data length s
  | some _ => .next s

/-! ## DIB.READ (R192) -/

/-- The test of the loop of R192 after the counters have been brought up to date: another pass D2, or D3
(DEDUCED, log 18). -/
def dibReadNext (rd prod cnt maxLen : Word) : Phase := if rd ≠ prod && cnt < maxLen then .d2 else .d3

/-- Step D1: the hardware position is sampled once; or a refusal (R64, R294). -/
def dibReadD1 (output maxLen : Word) (s : State) : Result :=
  if !(operandRegion output maxLen).fits then .refused .regionWraps
  else if !(s.clearOfDib (operandRegion output maxLen) && s.clearOfStores (operandRegion output maxLen)) then
    .refused .regionOverlaps
  else
    let prod := dibIndex s.cfg s.viewHw
    .next (s.advance (dibReadNext s.dib.rd prod 0 maxLen) { s.temps with prod := prod, cnt := 0 })

/-- Step D2, one pass of the loop: one byte copied, the read cursor and the count advanced. -/
def dibReadD2 (output maxLen : Word) (s : State) : State :=
  let t := s.temps
  let rd := (s.dib.rd + 1) &&& dibMask s.cfg
  let cnt := t.cnt + 1
  let s := s.store (output + t.cnt) (s.load (s.cfg.dibBase + s.dib.rd))
  let s := { s with dib := { s.dib with rd := rd } }
  s.advance (dibReadNext rd t.prod cnt maxLen) { t with cnt := cnt }

/-- `DIB.READ output, max_len` (R192). -/
def execDibRead (output maxLen : Word) (s : State) : Result :=
  match s.phase with
  | none => accept (.dibRead output maxLen) .d1 s
  | some .d1 => dibReadD1 output maxLen s
  | some .d2 => .next (dibReadD2 output maxLen s)
  | some .d3 => .next (s.respond .ok s.temps.cnt)
  | some _ => .next s

end Sys2Proof.Machine
end

