-- ==== Sys2Proof/Machine/Bus.lean ====
section
/-! DEFINITION. The BusRecoveryController requests and the recovery machine (41_bus_recovery.md R150 to R160). Each
`exec` takes the ONE atomic step the acting port's phase names; an idle port takes step D0 (log 6). -/

namespace Sys2Proof.Machine

/-- `emit(pin_trace, …)` (00_scope.md R11), several events in order. -/
def State.emitPins (s : State) (es : List PinEvent) : State := { s with pinTrace := s.pinTrace ++ es }

/-- `emit(bus_trace, …)` (R11). -/
def State.emitBus (s : State) (e : BusEvent) : State := { s with busTrace := s.busTrace ++ [e] }

/-! ## The recovery run (R156 to R159) -/

/-- The step that follows in each state of the recovery machine; `done` is the step after the run (R156). -/
def BrcState.nextStep (done : Phase) : BrcState → Phase
  | .idle => done
  | .pulseClock => .v2
  | .generateStop => .v3
  | .reinit => .v4

/-- The acting port goes on as the recovery machine's state says. -/
def State.gotoRun (s : State) (done : Phase) : State := s.goto (s.brc.state.nextStep done)

/-- Step V1 (R156): the data line an input, the clock line an output, the pull-ups drawn. -/
def recoverV1 (s : State) : State :=
  let s := { s with
    pins := { s.pins with sdaMode := .input, sclMode := .output,
                          sdaPull := s.env.draw.sdaPull, sclPull := s.env.draw.sclPull }
    brc := { s.brc with n := 0, state := if s.brc.pulses = 0 then .generateStop else .pulseClock } }
  s.emitPins [.mode .sda .input, .mode .scl .output]

/-- Step V2 (R157): one clock pulse, then one sample of the data line. -/
def recoverV2 (s : State) : State :=
  let n := s.brc.n + 1
  let level := s.env.draw.sample
  let wait := s.brc.pwidthUs.toNat
  let s := { s with
    pins := { s.pins with sclOut := true }
    brc := { s.brc with n := n, state := if level || n = s.brc.pulses then .generateStop else s.brc.state } }
  s.emitPins [.drive .scl false, .wait wait, .drive .scl true, .wait wait, .sample level]

/-- Step V3 (R158): the stop condition, unconditionally. -/
def recoverV3 (s : State) : State :=
  let wait := s.cfg.tStopUs
  let s := { s with
    pins := { s.pins with sdaMode := .output, sclOut := true, sdaOut := true }
    brc := { s.brc with state := .reinit } }
  s.emitPins [.mode .sda .output, .drive .sda false, .wait wait, .drive .scl true, .wait wait,
              .drive .sda true, .wait wait]

/-- Step V4 (R159): the pins back to their bus function, the pull-ups on, the peripheral reinitialised. -/
def recoverV4 (s : State) : State :=
  let s := { s with
    pins := { s.pins with sdaMode := .function, sclMode := .function, sdaPull := true, sclPull := true }
    brc := { s.brc with state := .idle } }
  (s.emitPins [.mode .sda .function, .mode .scl .function, .pull .sda, .pull .scl]).emitBus
    (.reinit s.cfg.busClockHz)

/-! ## BRC.SAFE_WRITE (R150) -/

/-- Step W1: the address is latched (R151), the payload read all at once, the write issued; or a refusal (R64). -/
def brcSafeWriteW1 (addr : Byte) (data length : Word) (s : State) : Result :=
  if !(operandRegion data length).fits then .refused .regionWraps
  else
    let payload := s.loadBytes data length.toNat
    let s := ({ s with brc := { s.brc with addr := addr } }).emitBus (.write addr payload s.brc.timeoutUs)
    .next (s.advance .w2 { s.temps with payload := payload })

/-- Step W2: the outcome is drawn (R152); a completed write ends the request, any other outcome starts the recovery
run. -/
def brcSafeWriteW2 (length : Word) (s : State) : State :=
  let outcome := boundedOutcome s.env.draw.outcome length
  let s := s.emitBus (.result outcome)
  let s := s.advance .v1 { s.temps with outcome := some outcome }
  match outcome with
  | .written n => s.respond .ok (BitVec.ofNat 32 n)
  | .timeout => s
  | .failure => s

/-- `BRC.SAFE_WRITE addr, data, length` (R150). -/
def execBrcSafeWrite (addr : Byte) (data length : Word) (s : State) : Result :=
  match s.phase with
  | none => accept (.brcSafeWrite addr data length) .w1 s
  | some .w1 => brcSafeWriteW1 addr data length s
  | some .w2 => .next (brcSafeWriteW2 length s)
  | some .v1 => .next ((recoverV1 s).gotoRun .w3)
  | some .v2 => .next ((recoverV2 s).gotoRun .w3)
  | some .v3 => .next ((recoverV3 s).gotoRun .w3)
  | some .v4 => .next ((recoverV4 s).gotoRun .w3)
  | some .w3 => .next (s.fail .busTimeout)
  | some _ => .next s

/-! ## BRC.RECOVER (R154) -/

/-- `BRC.RECOVER` (R154). -/
def execBrcRecover (s : State) : Result :=
  match s.phase with
  | none => accept .brcRecover .v1 s
  | some .v1 => .next ((recoverV1 s).gotoRun .x1)
  | some .v2 => .next ((recoverV2 s).gotoRun .x1)
  | some .v3 => .next ((recoverV3 s).gotoRun .x1)
  | some .v4 => .next ((recoverV4 s).gotoRun .x1)
  | some .x1 => .next (s.respond .ok 0)
  | some _ => .next s

end Sys2Proof.Machine
end

