-- ==== Sys2Proof/Machine/Command.lean ====
section
/-! DEFINITION. The CommandDecoder request (43_command_decoder.md R220). `exec` takes the ONE atomic step the acting
port's phase names; an idle port takes step D0 (log 6). -/

namespace Sys2Proof.Machine

/-- The decoder after a byte and the command it answers with (R220, R224): a terminator ends the line, any other byte
is appended while there is room and discarded when there is none. -/
def Cd.feed (c : Params) (d : Cd) (byte : Byte) : Cd × Word :=
  if isTerminator byte then ({ acc := d.acc.set d.idx 0, idx := 0 }, lookup (d.acc.take d.idx))
  else if d.idx < c.cdCap - 1 then ({ acc := d.acc.set d.idx byte, idx := d.idx + 1 }, 0)
  else (d, 0)

/-- Step K1 (R220). -/
def cdFeedK1 (byte : Byte) (s : State) : State :=
  let (cd, command) := s.cd.feed s.cfg byte
  ({ s with cd := cd }).respond .ok command

/-- `CD.FEED byte` (R220). -/
def execCdFeed (byte : Byte) (s : State) : Result :=
  match s.phase with
  | none => accept (.cdFeed byte) .k1 s
  | some .k1 => .next (cdFeedK1 byte s)
  | some _ => .next s

end Sys2Proof.Machine
end

