-- ==== Sys2Proof/Machine/Ring.lean ====
section
/-! DEFINITION. The RingBuffer requests (40_ringbuffer.md R120 to R125). Each `exec` takes the ONE atomic step the acting
port's phase names; an idle port takes step D0 (log 6). -/

namespace Sys2Proof.Machine

/-! ## RB.INIT (R120) -/

/-- The conditions `RB.INIT` fails on: `size` zero or no power of two, `storage` absent; and `size = 1` where
`RB_ACCEPT_SIZE1` is false (R120, C3). -/
def initRejected (c : Params) (base size : Word) : Bool :=
  !sizeOk size || base = 0 || (size = 1 && !c.acceptSize1)

/-- The instance after a successful `RB.INIT` (R120). -/
def Rb.initialised (mode : SyncMode) (r : Rb) (base size : Word) : Rb :=
  match mode with
  | .direct => { r with base := base, mask := size - 1, head := 0, tail := 0 }
  | .gray => { r with base := base, mask := size - 1, head := 0, tail := 0, headSeen := 0, tailSeen := 0 }

/-- Step I1 (R120): `ConfigError`, or a fault of the program (R291), or a refusal (R64, R294), or the instance
initialised. -/
def rbInitI1 (sel : BitVec 8) (base size : Word) (s : State) : Result :=
  if s.busy (.prod sel.toNat) then .fault .initRace
  else if initRejected s.cfg base size then .next (s.fail .configError)
  else if !(operandRegion base size).fits then .refused .regionWraps
  else if !(s.clearOfDib (operandRegion base size) && s.clearOfOtherStores sel.toNat (operandRegion base size)) then
    .refused .regionOverlaps
  else
    .next ((s.setRb sel.toNat ((s.rbAt sel.toNat).initialised s.cfg.rbSync base size)).respond .ok 0)

/-- `RB.INIT i, base, size` (R120). -/
def execRbInit (sel : BitVec 8) (base size : Word) (s : State) : Result :=
  match s.phase with
  | none => accept (.rbInit sel base size) .i1 s
  | some .i1 => rbInitI1 sel base size s
  | some _ => .next s

/-! ## RB.PUSH (R121) -/

/-- Step P1: `BufferFull` with nothing written, or on to P2. -/
def rbPushP1 (sel : BitVec 8) (s : State) : State :=
  let r := s.rbAt sel.toNat
  let tNext := nextCursor r.head r.mask
  let tTail := r.viewTail s.cfg.rbSync
  if tNext = tTail then s.fail .bufferFull
  else s.advance .p2 { s.temps with next := tNext, tail := tTail }

/-- Step P2: the payload store, before the cursor moves (20_memory.md R67). -/
def rbPushP2 (sel : BitVec 8) (byte : Byte) (s : State) : State :=
  (s.store ((s.rbAt sel.toNat).base + (s.rbAt sel.toNat).head) byte).goto .p3

/-- Step P3: the cursor is published. -/
def rbPushP3 (sel : BitVec 8) (s : State) : State :=
  (s.setRb sel.toNat { s.rbAt sel.toNat with head := s.temps.next }).respond .ok 0

/-- `RB.PUSH i, byte` (R121). -/
def execRbPush (sel : BitVec 8) (byte : Byte) (s : State) : Result :=
  match s.phase with
  | none => accept (.rbPush sel byte) .p1 s
  | some .p1 => .next (rbPushP1 sel s)
  | some .p2 => .next (rbPushP2 sel byte s)
  | some .p3 => .next (rbPushP3 sel s)
  | some _ => .next s

/-! ## RB.POP (R122) -/

/-- Step C1: `BufferEmpty` with nothing written, or on to C2. -/
def rbPopC1 (sel : BitVec 8) (s : State) : State :=
  let r := s.rbAt sel.toNat
  let tHead := r.viewHead s.cfg.rbSync
  if cursorsEmpty tHead r.tail then s.fail .bufferEmpty
  else s.advance .c2 { s.temps with head := tHead }

/-- Step C2: the byte is read, before the slot is given back (20_memory.md R67). -/
def rbPopC2 (sel : BitVec 8) (s : State) : State :=
  s.advance .c3 { s.temps with byte := s.load ((s.rbAt sel.toNat).base + (s.rbAt sel.toNat).tail) }

/-- Step C3: the cursor moves and the byte is the response's value. -/
def rbPopC3 (sel : BitVec 8) (s : State) : State :=
  let r := s.rbAt sel.toNat
  (s.setRb sel.toNat { r with tail := nextCursor r.tail r.mask }).respond .ok (s.temps.byte.setWidth 32)

/-- `RB.POP i` (R122). -/
def execRbPop (sel : BitVec 8) (s : State) : Result :=
  match s.phase with
  | none => accept (.rbPop sel) .c1 s
  | some .c1 => .next (rbPopC1 sel s)
  | some .c2 => .next (rbPopC2 sel s)
  | some .c3 => .next (rbPopC3 sel s)
  | some _ => .next s

/-! ## RB.IS_EMPTY, RB.IS_FULL (R124, R125) -/

/-- The two cursors of an instance as a port sees them: each its own register and its view of the other (R124). -/
def State.cursorsFrom (s : State) (r : Rb) : Word × Word :=
  match s.env.acting with
  | .main => (r.viewHead s.cfg.rbSync, r.tail)
  | .prod _ => (r.head, r.viewTail s.cfg.rbSync)

/-- Step E1 (R124). -/
def rbIsEmptyE1 (sel : BitVec 8) (s : State) : State :=
  let (head, tail) := s.cursorsFrom (s.rbAt sel.toNat)
  s.respond .ok (flagWord (cursorsEmpty head tail))

/-- `RB.IS_EMPTY i` (R124). -/
def execRbIsEmpty (sel : BitVec 8) (s : State) : Result :=
  match s.phase with
  | none => accept (.rbIsEmpty sel) .e1 s
  | some .e1 => .next (rbIsEmptyE1 sel s)
  | some _ => .next s

/-- Step F1 (R125). -/
def rbIsFullF1 (sel : BitVec 8) (s : State) : State :=
  let (head, tail) := s.cursorsFrom (s.rbAt sel.toNat)
  s.respond .ok (flagWord (cursorsFull head tail (s.rbAt sel.toNat).mask))

/-- `RB.IS_FULL i` (R125). -/
def execRbIsFull (sel : BitVec 8) (s : State) : Result :=
  match s.phase with
  | none => accept (.rbIsFull sel) .f1 s
  | some .f1 => .next (rbIsFullF1 sel s)
  | some _ => .next s

end Sys2Proof.Machine
end

