-- ==== Sys2Proof/Machine/System.lean ====
section
/-! DEFINITION. The system requests (44_system.md R240, R241). Each `exec` takes the ONE atomic step the acting port's
phase names; an idle port takes step D0 (log 6). -/

namespace Sys2Proof.Machine

/-- Step G1 (R240). -/
def sysCsrrG1 (csr : BitVec 12) (s : State) : State :=
  match s.csrRead csr with
  | some v => s.respond .ok v
  | none => s.fail .badRequest

/-- `SYS.CSRR csr` (R240). -/
def execSysCsrr (csr : BitVec 12) (s : State) : Result :=
  match s.phase with
  | none => accept (.sysCsrr csr) .g1 s
  | some .g1 => .next (sysCsrrG1 csr s)
  | some _ => .next s

/-- Step H1 (R241). -/
def sysCsrwH1 (csr : BitVec 12) (value : Word) (s : State) : State :=
  match s.brc.csrWrite csr value with
  | some b => ({ s with brc := b }).respond .ok 0
  | none => s.fail .badRequest

/-- `SYS.CSRW csr, value` (R241). -/
def execSysCsrw (csr : BitVec 12) (value : Word) (s : State) : Result :=
  match s.phase with
  | none => accept (.sysCsrw csr value) .h1 s
  | some .h1 => .next (sysCsrwH1 csr value s)
  | some _ => .next s

end Sys2Proof.Machine
end

