-- ==== Sys2Proof/Machine/Dispatch.lean ====
section
/-! DEFINITION. One arm per request: the next atomic step of the request `i` on the acting port (00_scope.md R12,
20_memory.md R66, log 6). -/

namespace Sys2Proof.Machine

def exec (i : Instr) (s : State) : Host.Outcome State Fault Refusal :=
  match i with
  | .sysCsrr csr => Sys2Proof.Machine.execSysCsrr csr s
  | .sysCsrw csr value => Sys2Proof.Machine.execSysCsrw csr value s
  | .rbInit sel base size => Sys2Proof.Machine.execRbInit sel base size s
  | .rbPush sel byte => Sys2Proof.Machine.execRbPush sel byte s
  | .rbPop sel => Sys2Proof.Machine.execRbPop sel s
  | .rbIsEmpty sel => Sys2Proof.Machine.execRbIsEmpty sel s
  | .rbIsFull sel => Sys2Proof.Machine.execRbIsFull sel s
  | .brcSafeWrite addr data length => Sys2Proof.Machine.execBrcSafeWrite addr data length s
  | .brcRecover => Sys2Proof.Machine.execBrcRecover s
  | .dibInit => Sys2Proof.Machine.execDibInit s
  | .dibSend data length => Sys2Proof.Machine.execDibSend data length s
  | .dibRead output maxLen => Sys2Proof.Machine.execDibRead output maxLen s
  | .cdFeed byte => Sys2Proof.Machine.execCdFeed byte s

end Sys2Proof.Machine
end

