-- ==== Sys2Proof/Machine/Step.lean ====
section
/-! DEFINITION. One step of the machine: the environment's next move is taken by its agent (20_memory.md R66). -/

namespace Sys2Proof.Machine

/-- The machine takes move `m`. -/
def apply (m : Move) (s : State) : Result :=
  match route m s with
  | .run i s' => exec i s'
  | .settled o => o

/-- One step: the next move, taken in the state it has been removed from. -/
def step (s : State) : Host.Outcome State Fault Refusal := apply s.nextMove s.popMove

/-- `s` with the request whose bits are `w` presented as the next move: numbered as spec/opcode_table.json numbers
bits, the bits from `nbits` up 0 (log 19). -/
def State.withFetchWord (s : State) (nbits w : Nat) : State := s.present (requestOfTableWord nbits w)

end Sys2Proof.Machine
end

