-- ==== Sys2Proof/Safety.lean ====
section
/-! DEFINITION. The words claims are stated in: what a step of a request leaves unchanged (frames), how it goes on or
ends, the invariants of the machine, the queue a ring stands for, runs of several steps, and fairness. -/

namespace Sys2Proof.Safety

open Sys2Proof.Machine

/-! ## Frames -/

/-- A part of the state that a step may change. -/
inductive Part where
  /-- the registers of RB instance `i` -/
  | ring (i : Nat)
  /-- `Mem` -/
  | mem
  | brc
  | pins
  | dib
  | cd
  | pinTrace
  | busTrace
  | txOut
  deriving DecidableEq, Repr

/-- Two instances have the same registers, whatever their producer ports hold. -/
def sameRegs (a b : Rb) : Prop :=
  a.base = b.base ∧ a.mask = b.mask ∧ a.head = b.head ∧ a.tail = b.tail ∧ a.headSeen = b.headSeen ∧
    a.tailSeen = b.tailSeen

/-- The part is the same in both states; memory is compared byte by byte through `State.load`. -/
def samePart (s t : State) : Part → Prop
  | .ring i => sameRegs (s.rbAt i) (t.rbAt i)
  | .mem => ∀ a, t.load a = s.load a
  | .brc => t.brc = s.brc
  | .pins => t.pins = s.pins
  | .dib => t.dib = s.dib
  | .cd => t.cd = s.cd
  | .pinTrace => t.pinTrace = s.pinTrace
  | .busTrace => t.busTrace = s.busTrace
  | .txOut => t.txOut = s.txOut

/-- The frame of a step of the acting port: the parameters, the number of instances, the environment's fields and every
other port are unchanged, and so is every part of the state that is not listed. -/
def Frame (changed : List Part) (s t : State) : Prop :=
  t.cfg = s.cfg ∧ t.nRb = s.nRb ∧ t.env = s.env ∧ (∀ p, p ≠ s.env.acting → t.port p = s.port p) ∧
    ∀ part, part ∉ changed → samePart s t part

/-- The frame of a step of an autonomous agent: as `Frame`, and no port's record changes. -/
def AgentFrame (changed : List Part) (s t : State) : Prop :=
  t.cfg = s.cfg ∧ t.nRb = s.nRb ∧ t.env = s.env ∧ (∀ p, t.port p = s.port p) ∧
    ∀ part, part ∉ changed → samePart s t part

/-- The acting port's request ended with this response and the port is idle. -/
def Answered (s t : State) (status : Status) (value : Word) : Prop :=
  t.port s.env.acting = { flight := none, resp := some { status := status, value := value } }

/-- The acting port's request goes on: the same request, its next step `ph`, its temporaries `tmp`. -/
def GoesOn (s t : State) (ph : Phase) (tmp : Temps) : Prop :=
  ∃ f, s.flight = some f ∧
    t.port s.env.acting = { flight := some { f with phase := ph, temps := tmp }, resp := none }

/-! ## Requests in flight -/

/-- The first step of each operation (30_encoding.md R96). -/
def firstStep : Instr → Phase
  | .sysCsrr _ => .g1
  | .sysCsrw _ _ => .h1
  | .rbInit _ _ _ => .i1
  | .rbPush _ _ => .p1
  | .rbPop _ => .c1
  | .rbIsEmpty _ => .e1
  | .rbIsFull _ => .f1
  | .brcSafeWrite _ _ _ => .w1
  | .brcRecover => .v1
  | .dibInit => .n1
  | .dibSend _ _ => .s1
  | .dibRead _ _ => .d1
  | .cdFeed _ => .k1

/-- The steps of each operation after D0, as its rule lists them. -/
def stepsOf : Instr → List Phase
  | .sysCsrr _ => [.g1]
  | .sysCsrw _ _ => [.h1]
  | .rbInit _ _ _ => [.i1]
  | .rbPush _ _ => [.p1, .p2, .p3]
  | .rbPop _ => [.c1, .c2, .c3]
  | .rbIsEmpty _ => [.e1]
  | .rbIsFull _ => [.f1]
  | .brcSafeWrite _ _ _ => [.w1, .w2, .v1, .v2, .v3, .v4, .w3]
  | .brcRecover => [.v1, .v2, .v3, .v4, .x1]
  | .dibInit => [.n1]
  | .dibSend _ _ => [.s1]
  | .dibRead _ _ => [.d1, .d2, .d3]
  | .cdFeed _ => [.k1]

/-- The bits of `A` and `B` an operation uses (30_encoding.md R92). -/
def usedBits : Instr → Word × Word
  | .sysCsrr _ => (0, 0)
  | .sysCsrw _ _ => (0xFFFFFFFF#32, 0)
  | .rbInit _ _ _ => (0xFFFFFFFF#32, 0xFFFFFFFF#32)
  | .rbPush _ _ => (0xFF#32, 0)
  | .rbPop _ => (0, 0)
  | .rbIsEmpty _ => (0, 0)
  | .rbIsFull _ => (0, 0)
  | .brcSafeWrite _ _ _ => (0xFFFFFFFF#32, 0xFFFFFFFF#32)
  | .brcRecover => (0, 0)
  | .dibInit => (0, 0)
  | .dibSend _ _ => (0xFFFFFFFF#32, 0xFFFFFFFF#32)
  | .dibRead _ _ => (0xFFFFFFFF#32, 0xFFFFFFFF#32)
  | .cdFeed _ => (0xFF#32, 0)

/-- The requests that make a recovery run, with the step that follows the run (41_bus_recovery.md R150, R154). -/
def recoveryOf : Instr → Option Phase
  | .sysCsrr _ => none
  | .sysCsrw _ _ => none
  | .rbInit _ _ _ => none
  | .rbPush _ _ => none
  | .rbPop _ => none
  | .rbIsEmpty _ => none
  | .rbIsFull _ => none
  | .brcSafeWrite _ _ _ => some .w3
  | .brcRecover => some .x1
  | .dibInit => none
  | .dibSend _ _ => none
  | .dibRead _ _ => none
  | .cdFeed _ => none

/-- The request in flight on a port is one the port admits, on an instance that exists, and its phase is one of its
own steps (30_encoding.md R96, R97; 10_state.md R22). -/
def flightOk (nRb : Nat) (p : Port) (rec : PortRec) : Bool :=
  match rec.flight with
  | some f => admits p f.instr && f.instr.wellFormed nRb && (stepsOf f.instr).contains f.phase
  | none => true

/-- Every port's request in flight is in order. -/
def flightsOk (s : State) : Bool :=
  flightOk s.nRb .main s.main && (List.range s.nRb).all fun i => flightOk s.nRb (.prod i) (s.port (.prod i))

/-! ## Invariants -/

/-- The mask of a ring: `2^k − 1` for a `k` from 0 to 31 (10_state.md R23). -/
def maskOk (mask : Word) : Bool := (mask &&& (mask + 1)) = 0 && mask ≠ BitVec.allOnes 32

/-- A push between P2 and P3 will publish a cursor inside the ring. -/
def pendingOk (r : Rb) : Bool :=
  match r.port.flight with
  | some f => (f.phase ≠ .p2 && f.phase ≠ .p3) || f.temps.next ≤ r.mask
  | none => true

/-- The range invariant of a ring (40_ringbuffer.md R127): the capacity is a power of two, the cursors and their
shadows lie in `0 .. mask`, the store lies inside the address space and is absent only from an instance of mask 0; in
`DIRECT` mode the shadow fields hold 0. -/
def ringOk (mode : SyncMode) (r : Rb) : Bool :=
  maskOk r.mask && r.head ≤ r.mask && r.tail ≤ r.mask && r.headSeen ≤ r.mask && r.tailSeen ≤ r.mask &&
    pendingOk r && r.store.fits && (r.base ≠ 0 || r.mask = 0) &&
    (mode = .gray || (r.headSeen = 0 && r.tailSeen = 0))

/-- The range invariant of every ring. -/
def ringsOk (s : State) : Bool := s.rb.all (ringOk s.cfg.rbSync)

/-- No two stores share a byte (70_reset_and_hazards.md R294). -/
def storesApart : List Rb → Bool
  | [] => true
  | r :: rest => rest.all (fun q => r.store.disjoint q.store) && storesApart rest

/-- The stores are pairwise disjoint, and disjoint from the DIB buffer, whether or not `DIB.INIT` has run (R294). -/
def regionsOk (s : State) : Bool := storesApart s.rb && s.clearOfStores (dibRegion s.cfg)

/-- The ranges of the bridge's cursors (10_state.md R29). -/
def dibOk (s : State) : Bool :=
  (dibRegion s.cfg).contains s.dib.hw.toNat && (dibRegion s.cfg).contains s.dib.hwSeen.toNat &&
    s.dib.rd.toNat < s.cfg.dibCap

/-- The decoder's buffer has `CD_CAP` bytes and its write index is at most the last slot, which is kept for the null byte
(10_state.md R32, 43_command_decoder.md R220). -/
def cdOk (s : State) : Bool := s.cd.acc.length = s.cfg.cdCap && s.cd.idx ≤ s.cfg.cdCap - 1

/-- The state the recovery machine is in when port M's next step is `ph` (41_bus_recovery.md R156): only between V1
and V4 is it not `Idle` (10_state.md R27). -/
def recoveryStateAt (ph : Option Phase) : BrcState :=
  match ph with
  | some .v2 => .pulseClock
  | some .v3 => .generateStop
  | some .v4 => .reinit
  | _ => .idle

/-- The pin modes in each state of the recovery machine (R156 to R159, 10_state.md R44). -/
def pinModesAt : BrcState → PinMode × PinMode
  | .idle => (.function, .function)
  | .pulseClock => (.input, .output)
  | .generateStop => (.input, .output)
  | .reinit => (.output, .output)

/-- The invariant of the recovery machine: the pulse count is at most 9 and so is the counter, which in `PulseClock` is
below the pulse count; the state is the one port M's phase says; the output latches are 1 between steps and the pin
modes are those of the state (R26, R27, R156 to R160). -/
def recoveryOk (s : State) : Bool :=
  s.brc.pulses ≤ 9#4 && s.brc.n ≤ 9#4 &&
    s.brc.state = recoveryStateAt (s.main.flight.map Flight.phase) &&
    (s.brc.state ≠ .pulseClock || s.brc.n < s.brc.pulses) &&
    s.pins.sdaOut && s.pins.sclOut && (s.pins.sdaMode, s.pins.sclMode) = pinModesAt s.brc.state

/-- The invariants together. -/
def machineOk (s : State) : Bool :=
  s.cfg.wellFormed && nRbOk s.nRb && s.mem.wf && flightsOk s && ringsOk s && regionsOk s && dibOk s && cdOk s &&
    recoveryOk s

/-! ## The queue a ring stands for (40_ringbuffer.md R126, R128) -/

/-- The bytes a ring holds, oldest first: those in the `occ` slots from `tail` on. -/
def contents (s : State) (r : Rb) : List Byte :=
  (List.range (occupancy r.head r.tail r.mask).toNat).map fun k =>
    s.load (r.base + ((r.tail + BitVec.ofNat 32 k) &&& r.mask))

/-- A stale view never runs ahead of its cursor (20_memory.md R73): as the producer sees it the ring holds at least, as
the consumer sees it at most, what it holds. In `DIRECT` mode the views are the cursors (R69). -/
def viewsOk (mode : SyncMode) (r : Rb) : Bool :=
  occupancy r.head r.tail r.mask ≤ occupancy r.head (r.viewTail mode) r.mask &&
    occupancy (r.viewHead mode) r.tail r.mask ≤ occupancy r.head r.tail r.mask

/-- What a push in flight has found and done (R121): from P2 on the producer sees room for one byte and `t_next` is the
cursor after `head`; from P3 on the byte is in the slot at `head`. -/
def pushOk (s : State) (r : Rb) : Bool :=
  match r.port.flight with
  | some f =>
    match f.instr with
    | .rbPush _ byte =>
      f.phase = .p1 ||
        (f.temps.next = nextCursor r.head r.mask &&
          occupancy r.head (r.viewTail s.cfg.rbSync) r.mask < r.mask &&
          (f.phase = .p2 || s.load (r.base + r.head) = byte))
    | _ => true
  | none => true

/-- What a pop in flight has found and done (R122): from C2 on the consumer sees a byte in the ring; from C3 on `t_b` is
the byte at `tail`. -/
def popOk (s : State) : Bool :=
  match s.main.flight with
  | some f =>
    match f.instr with
    | .rbPop sel =>
      f.phase = .c1 ||
        ((s.rbAt sel.toNat).viewHead s.cfg.rbSync ≠ (s.rbAt sel.toNat).tail &&
          (f.phase = .c2 ||
            f.temps.byte = s.load ((s.rbAt sel.toNat).base + (s.rbAt sel.toNat).tail)))
    | _ => true
  | none => true

/-- What a `DIB.READ` in flight has found (R192): after D1 its output region is clear of every store and of the DIB
buffer, and at D2 there is room in it for another byte. -/
def readOk (s : State) : Bool :=
  match s.main.flight with
  | some f =>
    match f.instr with
    | .dibRead output maxLen =>
      f.phase = .d1 ||
        ((operandRegion output maxLen).fits && s.clearOfStores (operandRegion output maxLen) &&
          s.clearOfDib (operandRegion output maxLen) && (f.phase ≠ .d2 || f.temps.cnt < maxLen))
    | _ => true
  | none => true

/-- The invariant under which a ring is a queue: the machine's invariants, and those of the views and of the pushes,
pops and reads in flight. -/
def queueOk (s : State) : Bool :=
  machineOk s && s.rb.all (viewsOk s.cfg.rbSync) && s.rb.all (pushOk s) && popOk s && readOk s

/-- The move takes step P3 of a push of `byte` to instance `i`, the step at which a push happens (R129). -/
def PushEnds (i : Nat) (m : Move) (s : State) (byte : Byte) : Prop :=
  ∃ d sel f, m = .port (.prod i) d ∧ (s.port (.prod i)).flight = some f ∧ f.instr = .rbPush sel byte ∧ f.phase = .p3

/-- The move takes step C3 of a pop from instance `i`, the step at which a pop happens (R129). -/
def PopEnds (i : Nat) (m : Move) (s : State) : Prop :=
  ∃ d sel f, m = .port .main d ∧ s.main.flight = some f ∧ f.instr = .rbPop sel ∧ sel.toNat = i ∧ f.phase = .c3

/-- The queue of instance `i` was emptied by an `RB.INIT` that answered `OK`, or by a reset. -/
def Emptied (i : Nat) (m : Move) (s t : State) : Prop :=
  contents t (t.rbAt i) = [] ∧
    ((∃ d sel base size f, m = .port .main d ∧ s.main.flight = some f ∧ f.instr = .rbInit sel base size ∧
        sel.toNat = i ∧ t.main.resp = some ⟨.ok, 0⟩) ∨
      ∃ a b acc, m = .reset a b acc)

/-- What a move does to the queue of instance `i`: step P3 of a push answers `OK` and puts its byte in at the end; step
C3 of a pop answers `OK` with the oldest byte and takes it out; every other move leaves the queue as it is, but for an
`RB.INIT` or a reset, which empties it. -/
def QueueMove (i : Nat) (m : Move) (s t : State) : Prop :=
  (∀ byte, PushEnds i m s byte → (t.port (.prod i)).resp = some ⟨.ok, 0⟩ ∧
    contents t (t.rbAt i) = contents s (s.rbAt i) ++ [byte]) ∧
  (PopEnds i m s → ∃ byte, t.main.resp = some ⟨.ok, byte.setWidth 32⟩ ∧
    contents s (s.rbAt i) = byte :: contents t (t.rbAt i)) ∧
  ((∀ byte, ¬ PushEnds i m s byte) → ¬ PopEnds i m s →
    contents t (t.rbAt i) = contents s (s.rbAt i) ∨ Emptied i m s t)

/-! ## Runs of several steps -/

/-- `n` steps of the same request on the acting port, with no step of another agent between, each with the draws of the
state it is taken in. -/
def serve (i : Instr) : Nat → State → Result
  | 0, s => .next s
  | n + 1, s =>
    match exec i s with
    | .next t => serve i n t
    | .fault r => .fault r
    | .refused r => .refused r

/-- As `serve`, the draws of the steps given one by one. -/
def serveDraws (i : Instr) : List Draw → State → Result
  | [], s => .next s
  | d :: ds, s =>
    match exec i { s with env := { s.env with draw := d } } with
    | .next t => serveDraws i ds t
    | .fault r => .fault r
    | .refused r => .refused r

/-- The outbound engine alone, taking `n` steps `TX.BYTE`. -/
def sendBytes : Nat → State → State
  | 0, s => s
  | n + 1, s => sendBytes n (txByteStep s)

/-- The decoder alone, fed with a list of bytes: its state after them and the commands it answered with, in order. -/
def feedAll (c : Params) : List Byte → Cd → Cd × List Word
  | [], d => (d, [])
  | b :: bs, d =>
    let (d', command) := d.feed c b
    let (d'', commands) := feedAll c bs d'
    (d'', command :: commands)

/-- A run of the machine along a stream of moves (20_memory.md R66). -/
def Runs (moves : Nat → Move) (e : Nat → State) : Prop := ∀ n, apply (moves n) (e n) = .next (e (n + 1))

/-- Weak fairness of the outbound engine (70_reset_and_hazards.md R297 (2)): while a step of it is enabled it is
eventually taken (log 21). -/
def FairTx (moves : Nat → Move) (e : Nat → State) : Prop :=
  ∀ n, (e n).dib.txBusy = true → ∃ m, n ≤ m ∧
    ((moves m = .txByte ∧ (e m).txByteEnabled = true) ∨ (moves m = .txDone ∧ (e m).txDoneEnabled = true) ∨
      (e m).dib.txBusy = false)

/-- Fairness of a port (R297 (1)): its request in flight eventually takes its next step. -/
def FairPort (p : Port) (moves : Nat → Move) : Prop := ∀ n, ∃ m d, n ≤ m ∧ moves m = .port p d

/-- A move occurs infinitely often. -/
def InfinitelyOften (m : Move) (moves : Nat → Move) : Prop := ∀ n, ∃ k, n ≤ k ∧ moves k = m

/-- Fairness of the synchronisers of instance `i` (20_memory.md R70, R297 (3)): each of their steps occurs infinitely
often. -/
def FairSync (i : Nat) (moves : Nat → Move) : Prop :=
  InfinitelyOften (.syncH i) moves ∧ InfinitelyOften (.syncT i) moves

/-- Fairness of the synchroniser of the bridge (20_memory.md R71, R297 (3)): its step occurs infinitely often. -/
def FairSyncD (moves : Nat → Move) : Prop := InfinitelyOften .syncD moves

/-! ## The end of a run (R301) -/

/-- Nothing is under way: every port is idle, the recovery machine is `Idle` and no outbound transfer is in flight. -/
def Quiescent (s : State) : Prop :=
  (∀ p, s.busy p = false) ∧ s.brc.state = .idle ∧ s.dib.txBusy = false

/-- A finite program: for each port the finite list of requests to present on it, in order (R301). -/
abbrev Program := Port → List Request

/-- The request a move has port `p` accept, if it does (30_encoding.md R90, 10_state.md R36). -/
def acceptedAt (p : Port) (m : Move) (s : State) : Option Request :=
  match m with
  | .request q r => if q = p && s.hasPort p && !s.busy p then some r else none
  | .port _ _ => none
  | .hwWrite _ => none
  | .txByte => none
  | .txDone => none
  | .syncH _ => none
  | .syncT _ => none
  | .syncD => none
  | .envWrite _ _ => none
  | .envRead _ => none
  | .reset _ _ _ => none

/-- The response port `p` gave in a step from `s` to `t` by move `m`: a request was in flight or accepted, and there is a
response after the step. -/
def answeredAt (p : Port) (m : Move) (s t : State) : Option Response :=
  if s.busy p || (acceptedAt p m s).isSome then (t.port p).resp else none

/-- The requests port `p` accepted in the first `n` steps of a run, in order. -/
def acceptedBy (p : Port) (moves : Nat → Move) (e : Nat → State) : Nat → List Request
  | 0 => []
  | n + 1 => acceptedBy p moves e n ++ (acceptedAt p (moves n) (e n)).toList

/-- The responses port `p` gave in the first `n` steps of a run, in order. -/
def answersBy (p : Port) (moves : Nat → Move) (e : Nat → State) : Nat → List Response
  | 0 => []
  | n + 1 => answersBy p moves e n ++ (answeredAt p (moves n) (e n) (e (n + 1))).toList

/-- After `n` steps the run of a finite program has ended (R301): every listed request has been accepted by its port, in
order, and has received its response, and nothing is under way. A request that a busy port did not accept, or that a
reset dropped, has received none. -/
def Ended (prog : Program) (moves : Nat → Move) (e : Nat → State) (n : Nat) : Prop :=
  (∀ p, acceptedBy p moves e n = prog p ∧ (answersBy p moves e n).length = (prog p).length) ∧ Quiescent (e n)

end Sys2Proof.Safety
end

