-- ==== Sys2Proof/Certificates/Slice0/Obligations.lean ====
section
/-! DEFINITION. The statements for the provers. Each docstring names the rule of spec/ the statement formalises; a
statement that rests on a choice of the model's own names the log entry. -/

open Sys2Proof Sys2Proof.Machine Sys2Proof.Safety

/-! ## Encoding (30_encoding.md) -/

/-- R91, R92, R95: the bytes of every instruction decode to it, whatever follows them. -/
def Obligations.DecodeOfEncode : Prop :=
  ∀ (i : Instr) (rest : List Byte), decodeBytes ((encode i).bytes ++ rest) = (.instr i, rest)

/-- R95: a word that decodes has the pattern of its own row, a word with the pattern of some row decodes, and no word
has the patterns of two rows. -/
def Obligations.DecodeFollowsTheRows : Prop :=
  ∀ r : Request,
    (∀ i, decodeWords r = .instr i → i.row.matchesWord r.w0 = true) ∧
    (∀ row, row ∈ opcodeRows → row.matchesWord r.w0 = true →
      ∃ i, decodeWords r = .instr i ∧ i.row = row) ∧
    (∀ row row', row ∈ opcodeRows → row' ∈ opcodeRows → row.matchesWord r.w0 = true →
      row'.matchesWord r.w0 = true → row = row')

/-- R92: the operands of a decoded instruction are the fields of its words as they stand, and the bits of A and B that
the operation does not use have no effect. -/
def Obligations.OperandsAsTheyStand : Prop :=
  ∀ (r : Request) (i : Instr), decodeWords r = .instr i →
    encode i = ⟨r.w0, r.a &&& (usedBits i).1, r.b &&& (usedBits i).2⟩ ∧
    ∀ a b : Word, a &&& (usedBits i).1 = r.a &&& (usedBits i).1 → b &&& (usedBits i).2 = r.b &&& (usedBits i).2 →
      decodeWords ⟨r.w0, a, b⟩ = .instr i

/-- R91, R94: words written out by hand from the encoding (95_test_vectors.md V8) decode to what they stand for. -/
def Obligations.SampleWordsDecode : Prop :=
  decodeTableWord 96 0x00000000_00004E20_02000001 = some (.sysCsrw 1#12 0x4E20#32) ∧
  decodeTableWord 96 0x00000000_00000041_11010000 = some (.rbPush 1#8 0x41#8) ∧
  decodeTableWord 96 0x00000002_20001000_2000003C = some (.brcSafeWrite 0x3C#8 0x20001000#32 2#32) ∧
  decodeTableWord 96 0x00000040_20003000_32000000 = some (.dibRead 0x20003000#32 0x40#32) ∧
  decodeTableWord 96 0x00000000_00000049_40000000 = some (.cdFeed 0x49#8)

/-! ## Ports, acceptance and stepping (30_encoding.md R90, R96, R97; 10_state.md R36) -/

/-- R22, R36, R66, R90, R96: when the next move presents, on an idle port that exists, a request that decodes to `i`, the
step is `exec` of `i` with that port acting and the move taken from the script; when the next move lets a busy port
step, the step is `exec` of its request in flight, with that port acting and the move's draws. With an empty script
the next move is the free one and its counter advances (log 3). -/
def Obligations.StepRunsTheDecodedRequest : Prop :=
  (∀ (s : State) (p : Port) (r : Request) (rest : List Move) (i : Instr),
    s.env.script = .request p r :: rest → s.hasPort p = true → s.busy p = false → decodeWords r = .instr i →
    step s = exec i { s with env := { s.env with script := rest, acting := p } }) ∧
  (∀ (s : State) (p : Port) (d : Draw) (rest : List Move) (f : Flight),
    s.env.script = .port p d :: rest → (s.port p).flight = some f →
    step s = exec f.instr { s with env := { s.env with script := rest, acting := p, draw := d } }) ∧
  (∀ s : State, s.env.script = [] →
    step s = apply (Config.freeMove s.env.tick) { s with env := { s.env with tick := s.env.tick + 1 } })

/-- R36, R90: a busy port accepts no request, and a port with no request in flight has no step (log 7: the state stays as
it is). -/
def Obligations.BusyPortAcceptsNothing : Prop :=
  ∀ (s : State) (p : Port),
    (s.busy p = true → ∀ r, apply (.request p r) s = .next s) ∧
    (s.busy p = false → ∀ d, apply (.port p d) s = .next s)

/-- R96, R97: an idle port that exists accepts a request it admits on an instance that exists, with no hazard of R291:
the request is in flight, its next step the operation's first, and nothing else changes. Acceptance and D0 are one
step (log 5), the temporaries start at 0 (log 9). -/
def Obligations.AdmittedRequestIsAccepted : Prop :=
  ∀ (s : State) (i : Instr),
    s.flight = none → s.hasPort s.env.acting = true → admits s.env.acting i = true →
    i.wellFormed s.nRb = true → s.initHazard i (firstStep i) = false →
    ∃ t, exec i s = .next t ∧
      t.port s.env.acting =
        { flight := some { instr := i, phase := firstStep i, temps := Temps.zero }, resp := none } ∧
      Frame [] s t

/-- R96, R97, R98, R257: a word that matches no row, a request that its port does not admit and one on an instance that
does not exist are answered with `BadRequest` and change no state other than the port's record. -/
def Obligations.BadRequestChangesNothing : Prop :=
  (∀ (s : State) (p : Port) (r : Request) (e : DecodeError),
    s.hasPort p = true → s.busy p = false → decodeWords r = .bad e →
    ∃ t, apply (.request p r) s = .next t ∧
      t.port p = { flight := none, resp := some ⟨.badRequest, 0⟩ } ∧ Frame [] (s.actingAs p) t) ∧
  (∀ (s : State) (i : Instr),
    s.flight = none → s.hasPort s.env.acting = true →
    (admits s.env.acting i = false ∨ i.wellFormed s.nRb = false) →
    ∃ t, exec i s = .next t ∧ Answered s t .badRequest 0 ∧ Frame [] s t)

/-- R97: port `P_k` admits `RB.PUSH`, `RB.IS_EMPTY`, `RB.IS_FULL`, each with `sel = k`, and no other request; port M
admits every request but `RB.PUSH`; `RB.PUSH` on port M and `RB.POP` on a port `P_k` are answered with `BadRequest`. -/
def Obligations.PortAdmission : Prop :=
  (∀ (i : Instr) (k : Nat), admits (.prod k) i = true ↔
    (∃ sel byte, i = .rbPush sel byte ∧ sel.toNat = k) ∨ (∃ sel, i = .rbIsEmpty sel ∧ sel.toNat = k) ∨
      (∃ sel, i = .rbIsFull sel ∧ sel.toNat = k)) ∧
  (∀ i : Instr, admits .main i = true ↔ ∀ sel byte, i ≠ .rbPush sel byte) ∧
  (∀ (s : State) (sel : BitVec 8) (byte : Byte), s.env.acting = .main → s.flight = none →
    ∃ t, exec (.rbPush sel byte) s = .next t ∧ Answered s t .badRequest 0 ∧ Frame [] s t) ∧
  (∀ (s : State) (sel : BitVec 8) (k : Nat), s.env.acting = .prod k → k < s.nRb → s.flight = none →
    ∃ t, exec (.rbPop sel) s = .next t ∧ Answered s t .badRequest 0 ∧ Frame [] s t)

/-- R291, U2 (log 14): an `RB.INIT` of an instance whose producer port has a request in flight, and a request on a
producer port whose instance an `RB.INIT` in flight is initialising, are faults of the program. -/
def Obligations.InitRaceIsAFault : Prop :=
  (∀ (s : State) (sel : BitVec 8) (base size : Word),
    s.env.acting = .main → (s.phase = none ∨ s.phase = some .i1) → sel.toNat < s.nRb →
    s.busy (.prod sel.toNat) = true → exec (.rbInit sel base size) s = .fault .initRace) ∧
  (∀ (s : State) (i : Instr) (k : Nat),
    s.env.acting = .prod k → s.phase = none → admits (.prod k) i = true → k < s.nRb →
    s.initInFlight k = true → exec i s = .fault .initRace)

/-- R64, R294, U3: the first step of a request whose region crosses the top of the address space is refused; and so is
an `RB.INIT` whose store would overlap another store or the DIB buffer, a `DIB.READ` whose output overlaps a store or
the DIB buffer, and a `DIB.INIT` whose buffer overlaps a store. That the refusal stands at the first step after D0, and
in `RB.INIT` after its own conditions, is the model's choice (log 15); that a `DIB.SEND` is refused before it is held,
while a transfer is in flight too, is the model's choice (log 26). -/
def Obligations.BadRegionIsRefused : Prop :=
  (∀ (s : State) (a len : Word), 2 ^ 32 < a.toNat + len.toNat →
    (∀ addr, s.phase = some .w1 → exec (.brcSafeWrite addr a len) s = .refused .regionWraps) ∧
    (s.phase = some .s1 → exec (.dibSend a len) s = .refused .regionWraps) ∧
    (s.phase = some .d1 → exec (.dibRead a len) s = .refused .regionWraps) ∧
    (∀ sel, s.phase = some .i1 → s.busy (.prod sel.toNat) = false → initRejected s.cfg a len = false →
      exec (.rbInit sel a len) s = .refused .regionWraps)) ∧
  (∀ (s : State) (a len : Word), a.toNat + len.toNat ≤ 2 ^ 32 →
    (∀ sel, s.phase = some .i1 → s.busy (.prod sel.toNat) = false → initRejected s.cfg a len = false →
      (s.clearOfDib (operandRegion a len) = false ∨
        s.clearOfOtherStores sel.toNat (operandRegion a len) = false) →
      exec (.rbInit sel a len) s = .refused .regionOverlaps) ∧
    (s.phase = some .d1 →
      (s.clearOfDib (operandRegion a len) = false ∨ s.clearOfStores (operandRegion a len) = false) →
      exec (.dibRead a len) s = .refused .regionOverlaps)) ∧
  (∀ s : State, s.phase = some .n1 → s.clearOfStores (dibRegion s.cfg) = false →
    exec .dibInit s = .refused .regionOverlaps)

/-! ## RingBuffer (40_ringbuffer.md) -/

/-- R120, R252, step I1: on invalid operands `ConfigError` and nothing is written; on valid ones the four registers are
set, the shadows too in `GRAY` mode, and the store's bytes are left as they are. -/
def Obligations.RbInitInitialisesOrRejects : Prop :=
  ∀ (s : State) (sel : BitVec 8) (base size : Word),
    s.phase = some .i1 → s.env.acting = .main → sel.toNat < s.nRb → s.busy (.prod sel.toNat) = false →
    ((size = 0 ∨ size &&& (size - 1) ≠ 0 ∨ base = 0 ∨ (size = 1 ∧ s.cfg.acceptSize1 = false)) →
      ∃ t, exec (.rbInit sel base size) s = .next t ∧ Answered s t .configError 0 ∧ Frame [] s t) ∧
    (size ≠ 0 → size &&& (size - 1) = 0 → base ≠ 0 → (size = 1 → s.cfg.acceptSize1 = true) →
      base.toNat + size.toNat ≤ 2 ^ 32 → s.clearOfDib (operandRegion base size) = true →
      s.clearOfOtherStores sel.toNat (operandRegion base size) = true →
      ∃ t, exec (.rbInit sel base size) s = .next t ∧ Answered s t .ok 0 ∧ Frame [.ring sel.toNat] s t ∧
        (t.rbAt sel.toNat).base = base ∧ (t.rbAt sel.toNat).mask = size - 1 ∧
        (t.rbAt sel.toNat).head = 0 ∧ (t.rbAt sel.toNat).tail = 0 ∧
        (s.cfg.rbSync = .gray → (t.rbAt sel.toNat).headSeen = 0 ∧ (t.rbAt sel.toNat).tailSeen = 0) ∧
        (s.cfg.rbSync = .direct → (t.rbAt sel.toNat).headSeen = (s.rbAt sel.toNat).headSeen ∧
          (t.rbAt sel.toNat).tailSeen = (s.rbAt sel.toNat).tailSeen))

/-- R121, R67: step P1, `BufferFull` with nothing written when the cursor after `head` is the producer's view of `tail`,
and on to P2 otherwise; step P2, the byte is stored in the slot at `head` and no other byte of memory and no cursor
changes; step P3, `head` becomes `t_next`, the answer is `OK` and nothing else changes. -/
def Obligations.PushSteps : Prop :=
  ∀ (s : State) (sel : BitVec 8) (byte : Byte) (r : Rb),
    s.env.acting = .prod sel.toNat → r = s.rbAt sel.toNat →
    (s.phase = some .p1 → (r.head + 1) &&& r.mask = r.viewTail s.cfg.rbSync →
      ∃ t, exec (.rbPush sel byte) s = .next t ∧ Answered s t .bufferFull 0 ∧ Frame [] s t) ∧
    (s.phase = some .p1 → (r.head + 1) &&& r.mask ≠ r.viewTail s.cfg.rbSync →
      ∃ t, exec (.rbPush sel byte) s = .next t ∧ Frame [] s t ∧
        GoesOn s t .p2 { s.temps with next := (r.head + 1) &&& r.mask, tail := r.viewTail s.cfg.rbSync }) ∧
    (s.phase = some .p2 → s.mem.wf = true →
      ∃ t, exec (.rbPush sel byte) s = .next t ∧ GoesOn s t .p3 s.temps ∧ Frame [.mem] s t ∧
        t.load (r.base + r.head) = byte ∧ ∀ a, a ≠ r.base + r.head → t.load a = s.load a) ∧
    (s.phase = some .p3 →
      ∃ t, exec (.rbPush sel byte) s = .next t ∧ Answered s t .ok 0 ∧ Frame [.ring sel.toNat] s t ∧
        sameRegs { r with head := s.temps.next } (t.rbAt sel.toNat))

/-- R122, step C1: `BufferEmpty` with nothing written when the consumer's view of `head` is `tail`, and on to C2
otherwise; steps C2 and C3: the byte at `tail` is read, then `tail` moves on and the byte is answered. Memory never
changes. -/
def Obligations.PopSteps : Prop :=
  ∀ (s : State) (sel : BitVec 8) (r : Rb),
    s.env.acting = .main → sel.toNat < s.nRb → r = s.rbAt sel.toNat →
    (s.phase = some .c1 → r.viewHead s.cfg.rbSync = r.tail →
      ∃ t, exec (.rbPop sel) s = .next t ∧ Answered s t .bufferEmpty 0 ∧ Frame [] s t) ∧
    (s.phase = some .c1 → r.viewHead s.cfg.rbSync ≠ r.tail →
      ∃ t, exec (.rbPop sel) s = .next t ∧ Frame [] s t ∧
        GoesOn s t .c2 { s.temps with head := r.viewHead s.cfg.rbSync }) ∧
    (s.phase = some .c2 →
      ∃ t, exec (.rbPop sel) s = .next t ∧ Frame [] s t ∧
        GoesOn s t .c3 { s.temps with byte := s.load (r.base + r.tail) }) ∧
    (s.phase = some .c3 →
      ∃ t, exec (.rbPop sel) s = .next t ∧ Answered s t .ok (s.temps.byte.setWidth 32) ∧
        Frame [.ring sel.toNat] s t ∧
        sameRegs { r with tail := (r.tail + 1) &&& r.mask } (t.rbAt sel.toNat))

/-- R124, R125: step E1 answers 1 if the two cursors are equal and 0 if not, step F1 answers 1 if the cursor after `head`
is `tail` and 0 if not, on port M and on `P_i` each with its own cursor and its view of the other; no state changes. -/
def Obligations.QueriesAnswer : Prop :=
  ∀ (s : State) (sel : BitVec 8) (r : Rb), r = s.rbAt sel.toNat →
    (s.phase = some .e1 → s.env.acting = .main →
      ∃ t, exec (.rbIsEmpty sel) s = .next t ∧ Frame [] s t ∧
        Answered s t .ok (if r.viewHead s.cfg.rbSync = r.tail then 1 else 0)) ∧
    (s.phase = some .e1 → s.env.acting = .prod sel.toNat →
      ∃ t, exec (.rbIsEmpty sel) s = .next t ∧ Frame [] s t ∧
        Answered s t .ok (if r.head = r.viewTail s.cfg.rbSync then 1 else 0)) ∧
    (s.phase = some .f1 → s.env.acting = .main →
      ∃ t, exec (.rbIsFull sel) s = .next t ∧ Frame [] s t ∧
        Answered s t .ok (if (r.viewHead s.cfg.rbSync + 1) &&& r.mask = r.tail then 1 else 0)) ∧
    (s.phase = some .f1 → s.env.acting = .prod sel.toNat →
      ∃ t, exec (.rbIsFull sel) s = .next t ∧ Frame [] s t ∧
        Answered s t .ok (if (r.head + 1) &&& r.mask = r.viewTail s.cfg.rbSync then 1 else 0))

/-- R121, R129: a push on an idle port that sees room, its steps taken with no other agent's between, stores the byte in
the slot at `head`, moves `head` on and answers `OK`; nothing else changes. -/
def Obligations.WholePush : Prop :=
  ∀ (s : State) (sel : BitVec 8) (byte : Byte) (r : Rb),
    s.env.acting = .prod sel.toNat → s.flight = none → sel.toNat < s.nRb → s.initInFlight sel.toNat = false →
    s.mem.wf = true → r = s.rbAt sel.toNat → (r.head + 1) &&& r.mask ≠ r.viewTail s.cfg.rbSync →
    ∃ t, serve (.rbPush sel byte) 4 s = .next t ∧ Answered s t .ok 0 ∧ Frame [.ring sel.toNat, .mem] s t ∧
      sameRegs { r with head := (r.head + 1) &&& r.mask } (t.rbAt sel.toNat) ∧
      t.load (r.base + r.head) = byte ∧ ∀ a, a ≠ r.base + r.head → t.load a = s.load a

/-- R122, R129: a pop on an idle port M that sees a byte, its steps taken with no other agent's between, answers with
the byte at `tail` and moves `tail` on; nothing else changes. -/
def Obligations.WholePop : Prop :=
  ∀ (s : State) (sel : BitVec 8) (r : Rb),
    s.env.acting = .main → s.flight = none → sel.toNat < s.nRb → r = s.rbAt sel.toNat →
    r.viewHead s.cfg.rbSync ≠ r.tail →
    ∃ t, serve (.rbPop sel) 4 s = .next t ∧ Answered s t .ok ((s.load (r.base + r.tail)).setWidth 32) ∧
      Frame [.ring sel.toNat] s t ∧ sameRegs { r with tail := (r.tail + 1) &&& r.mask } (t.rbAt sel.toNat)

/-- R45: on an instance with `mask = 0` and both cursors and shadows 0, as reset leaves it, a push answers `BufferFull`,
a pop `BufferEmpty`, and both queries 1, on either port; no memory is touched. -/
def Obligations.UninitialisedRingIsHarmless : Prop :=
  ∀ (s : State) (sel : BitVec 8) (byte : Byte),
    sameRegs (s.rbAt sel.toNat) Rb.reset → (s.env.acting = .main ∨ s.env.acting = .prod sel.toNat) →
    (s.phase = some .p1 →
      ∃ t, exec (.rbPush sel byte) s = .next t ∧ Answered s t .bufferFull 0 ∧ Frame [] s t) ∧
    (s.phase = some .c1 →
      ∃ t, exec (.rbPop sel) s = .next t ∧ Answered s t .bufferEmpty 0 ∧ Frame [] s t) ∧
    (s.phase = some .e1 → ∃ t, exec (.rbIsEmpty sel) s = .next t ∧ Answered s t .ok 1 ∧ Frame [] s t) ∧
    (s.phase = some .f1 → ∃ t, exec (.rbIsFull sel) s = .next t ∧ Answered s t .ok 1 ∧ Frame [] s t)

/-- R126, R128 (1): in a ring in range the occupancy is at most `mask`, 0 exactly when empty and `mask` exactly when
full; moving `head` on a ring that is not full raises it by one, moving `tail` on a ring that is not empty lowers it by
one; and a ring of capacity at least 2 is never full and empty at once. -/
def Obligations.OccupancyCounts : Prop :=
  ∀ mask head tail : Word, maskOk mask = true → head ≤ mask → tail ≤ mask →
    occupancy head tail mask ≤ mask ∧
    (occupancy head tail mask = 0 ↔ cursorsEmpty head tail = true) ∧
    (occupancy head tail mask = mask ↔ cursorsFull head tail mask = true) ∧
    (cursorsFull head tail mask = false →
      occupancy (nextCursor head mask) tail mask = occupancy head tail mask + 1) ∧
    (cursorsEmpty head tail = false →
      occupancy head (nextCursor tail mask) mask = occupancy head tail mask - 1) ∧
    (mask ≠ 0 → ¬(cursorsEmpty head tail = true ∧ cursorsFull head tail mask = true))

/-- R127: the range invariant of every ring is kept by every step of every agent, when the requests in flight are in
order. -/
def Obligations.RingsStayInRange : Prop :=
  ∀ s t : State, flightsOk s = true → ringsOk s = true → step s = .next t → ringsOk t = true

/-- R128 (2), (3), R123, R129: under the machine's invariant step P3 of a push answers `OK` and puts its byte in at the
end of the ring's queue, step C3 of a pop answers `OK` with the oldest byte and takes it out, and every other step of
every agent leaves the queue as it is, but for an `RB.INIT` or a reset, which empties it. -/
def Obligations.RingIsAQueue : Prop :=
  ∀ (s t : State) (m : Move) (i : Nat), queueOk s = true → i < s.nRb → apply m s = .next t → QueueMove i m s t

/-- R73, R127, R128: the invariant under which a ring is a queue is kept by every step of every agent. -/
def Obligations.QueueInvariantIsKept : Prop :=
  ∀ s t : State, queueOk s = true → step s = .next t → queueOk t = true

/-! ## BusRecoveryController (41_bus_recovery.md) -/

/-- R150, R151, step W1: the address is latched, the `length` bytes at `data` are read all at once, and the write is
issued with the register and the timeout; memory does not change. -/
def Obligations.SafeWriteIssues : Prop :=
  ∀ (s : State) (addr : Byte) (data length : Word),
    s.phase = some .w1 → data.toNat + length.toNat ≤ 2 ^ 32 →
    ∃ t payload, exec (.brcSafeWrite addr data length) s = .next t ∧
      payload.length = length.toNat ∧ (∀ k, k < length.toNat → payload[k]? = some (s.load (data + BitVec.ofNat 32 k))) ∧
      t.brc = { s.brc with addr := addr } ∧
      t.busTrace = s.busTrace ++ [.write addr payload s.brc.timeoutUs] ∧
      GoesOn s t .w2 { s.temps with payload := payload } ∧ Frame [.brc, .busTrace] s t

/-- R150, R152, step W2: the outcome is traced; a write that completes answers `OK` with its count, which is at most
`length`; a timeout and a generic failure alike go on to the recovery run. The drawn count is brought into
`0 .. length` (log 4). -/
def Obligations.SafeWriteOutcome : Prop :=
  ∀ (s : State) (addr : Byte) (data length : Word), s.phase = some .w2 →
    (∀ k, s.env.draw.outcome = .written k →
      ∃ t n, exec (.brcSafeWrite addr data length) s = .next t ∧ n = k % (length.toNat + 1) ∧ n ≤ length.toNat ∧
        t.busTrace = s.busTrace ++ [.result (.written n)] ∧ Answered s t .ok (BitVec.ofNat 32 n) ∧
        Frame [.busTrace] s t) ∧
    (∀ o, s.env.draw.outcome = o → (o = .timeout ∨ o = .failure) →
      ∃ t, exec (.brcSafeWrite addr data length) s = .next t ∧ t.busTrace = s.busTrace ++ [.result o] ∧
        GoesOn s t .v1 { s.temps with outcome := some o } ∧ Frame [.busTrace] s t)

/-- R150 step W3 and R154 step X1: after the recovery run `BRC.SAFE_WRITE` answers `BusTimeout` and `BRC.RECOVER`
answers `OK`; nothing else changes. -/
def Obligations.AnswerAfterRecovery : Prop :=
  ∀ s : State,
    (∀ addr data length, s.phase = some .w3 →
      ∃ t, exec (.brcSafeWrite addr data length) s = .next t ∧ Answered s t .busTimeout 0 ∧ Frame [] s t) ∧
    (s.phase = some .x1 → ∃ t, exec .brcRecover s = .next t ∧ Answered s t .ok 0 ∧ Frame [] s t)

/-- R156, step V1: the data line becomes an input and the clock line an output, the pull-ups take the drawn levels, the
counter starts at 0, and the machine goes to `PulseClock`, or to `GenerateStop` when no pulse is allowed. -/
def Obligations.RecoveryStarts : Prop :=
  ∀ (s : State) (i : Instr) (done : Phase), recoveryOf i = some done → s.phase = some .v1 →
    ∃ t, exec i s = .next t ∧
      t.pins = { s.pins with sdaMode := .input, sclMode := .output,
                             sdaPull := s.env.draw.sdaPull, sclPull := s.env.draw.sclPull } ∧
      t.brc = { s.brc with n := 0, state := if s.brc.pulses = 0 then .generateStop else .pulseClock } ∧
      t.pinTrace = s.pinTrace ++ [.mode .sda .input, .mode .scl .output] ∧
      GoesOn s t (if s.brc.pulses = 0 then .v3 else .v2) s.temps ∧ Frame [.pins, .brc, .pinTrace] s t

/-- R157, step V2: one clock pulse of the programmed width and then one sample; the counter rises by one; the machine
goes to `GenerateStop` if the sample is 1 or the count is reached, and pulses again if not. -/
def Obligations.RecoveryPulses : Prop :=
  ∀ (s : State) (i : Instr) (done : Phase) (ends : Bool), recoveryOf i = some done → s.phase = some .v2 →
    s.brc.state = .pulseClock → ends = (s.env.draw.sample || s.brc.n + 1 = s.brc.pulses) →
    ∃ t, exec i s = .next t ∧ t.pins = { s.pins with sclOut := true } ∧
      t.brc = { s.brc with n := s.brc.n + 1, state := if ends then .generateStop else .pulseClock } ∧
      t.pinTrace = s.pinTrace ++ [.drive .scl false, .wait s.brc.pwidthUs.toNat, .drive .scl true,
        .wait s.brc.pwidthUs.toNat, .sample s.env.draw.sample] ∧
      GoesOn s t (if ends then .v3 else .v2) s.temps ∧ Frame [.pins, .brc, .pinTrace] s t

/-- R158, step V3: the stop condition, whatever ended the pulses: the data line an output driven low, the clock line
high, the data line released high, each held for `T_STOP_US`. -/
def Obligations.RecoveryStops : Prop :=
  ∀ (s : State) (i : Instr) (done : Phase), recoveryOf i = some done → s.phase = some .v3 →
    ∃ t, exec i s = .next t ∧ t.pins = { s.pins with sdaMode := .output, sclOut := true, sdaOut := true } ∧
      t.brc = { s.brc with state := .reinit } ∧
      t.pinTrace = s.pinTrace ++ [.mode .sda .output, .drive .sda false, .wait s.cfg.tStopUs, .drive .scl true,
        .wait s.cfg.tStopUs, .drive .sda true, .wait s.cfg.tStopUs] ∧
      GoesOn s t .v4 s.temps ∧ Frame [.pins, .brc, .pinTrace] s t

/-- R159, step V4: both pins back to their bus function, both pull-ups on, the peripheral reinitialised at its clock
rate, the machine `Idle`. -/
def Obligations.RecoveryReinitialises : Prop :=
  ∀ (s : State) (i : Instr) (done : Phase), recoveryOf i = some done → s.phase = some .v4 →
    ∃ t, exec i s = .next t ∧
      t.pins = { s.pins with sdaMode := .function, sclMode := .function, sdaPull := true, sclPull := true } ∧
      t.brc = { s.brc with state := .idle } ∧
      t.pinTrace = s.pinTrace ++ [.mode .sda .function, .mode .scl .function, .pull .sda, .pull .scl] ∧
      t.busTrace = s.busTrace ++ [.reinit s.cfg.busClockHz] ∧
      GoesOn s t done s.temps ∧ Frame [.pins, .brc, .pinTrace, .busTrace] s t

/-- R160, R161, R162: whatever the peer does, a recovery run is V1, then `k` pulses, then V3 and V4: `k` is at most the
pulse count, at least 1 when a pulse is allowed, every sample before the last is 0, and the last is 1 unless the count
was reached. It ends in `Idle` with the counter at `k`, both pins released in their bus function with pull-ups on,
`13 + 5k` pin events and one reinitialisation. -/
def Obligations.RecoveryRunEnds : Prop :=
  ∀ (s : State) (i : Instr) (done : Phase) (d : Nat → Draw),
    recoveryOf i = some done → s.phase = some .v1 →
    ∃ k t, serveDraws i ((List.range (k + 3)).map d) s = .next t ∧ k ≤ s.brc.pulses.toNat ∧
      (0 < s.brc.pulses.toNat → 1 ≤ k) ∧ (∀ j, 1 ≤ j → j < k → (d j).sample = false) ∧
      (k < s.brc.pulses.toNat → (d k).sample = true) ∧
      t.phase = some done ∧ t.brc = { s.brc with state := .idle, n := BitVec.ofNat 4 k } ∧
      t.pins = { sdaMode := .function, sclMode := .function, sdaOut := true, sclOut := true,
                 sdaPull := true, sclPull := true } ∧
      t.pinTrace.length = s.pinTrace.length + 13 + 5 * k ∧
      t.busTrace = s.busTrace ++ [.reinit s.cfg.busClockHz]

/-- R26, R27, R156, R160: the pulse count and the counter stay at most 9, the recovery machine is `Idle` outside a run,
and the pins are in the modes of its state, after every step of every agent. -/
def Obligations.RecoveryInvariantIsKept : Prop :=
  ∀ s t : State, flightsOk s = true → recoveryOk s = true → step s = .next t → recoveryOk t = true

/-! ## DmaIngestBridge (42_dma_bridge.md) -/

/-- R190, step N1: both cursors at the first slot, ingestion running, the outbound side and memory as they were. The premise is
R294's; where it fails the request is refused (log 15). -/
def Obligations.DibInitStarts : Prop :=
  ∀ s : State, s.phase = some .n1 → s.clearOfStores (dibRegion s.cfg) = true →
    ∃ t, exec .dibInit s = .next t ∧ Answered s t .ok 0 ∧ Frame [.dib] s t ∧
      t.dib = { s.dib with hw := s.cfg.dibBase, rd := 0, run := true,
                           hwSeen := if s.cfg.dibSync = .gray then s.cfg.dibBase else s.dib.hwSeen }

/-- R191: while no outbound transfer is in flight the request triggers one and answers at once; while one is, port M
has no step (log 7: the state stays as it is). -/
def Obligations.DibSendTriggersOrHolds : Prop :=
  ∀ (s : State) (data length : Word), s.phase = some .s1 → data.toNat + length.toNat ≤ 2 ^ 32 →
    (s.dib.txBusy = false →
      ∃ t, exec (.dibSend data length) s = .next t ∧ Answered s t .ok 0 ∧ Frame [.dib] s t ∧
        t.dib = { s.dib with txSrc := data, txRem := length, txBusy := true }) ∧
    (s.dib.txBusy = true → exec (.dibSend data length) s = .next s)

/-- R192, steps D1 and D3: D1 samples the hardware position as port M sees it, relative to the buffer, and goes on to
copy or to answer; D3 answers with the count; neither changes memory or a cursor. -/
def Obligations.DibReadSamplesAndAnswers : Prop :=
  ∀ (s : State) (output maxLen prod : Word),
    prod = ((s.viewHw - s.cfg.dibBase) &&& dibMask s.cfg) →
    (s.phase = some .d1 → output.toNat + maxLen.toNat ≤ 2 ^ 32 →
      s.clearOfDib (operandRegion output maxLen) = true → s.clearOfStores (operandRegion output maxLen) = true →
      ∃ t, exec (.dibRead output maxLen) s = .next t ∧ Frame [] s t ∧
        GoesOn s t (if s.dib.rd ≠ prod ∧ 0 < maxLen then .d2 else .d3) { s.temps with prod := prod, cnt := 0 }) ∧
    (s.phase = some .d3 →
      ∃ t, exec (.dibRead output maxLen) s = .next t ∧ Answered s t .ok s.temps.cnt ∧ Frame [] s t)

/-- R192, step D2: one byte goes from the buffer at the read cursor to the output at the count; the read cursor and the
count advance; no other byte of memory changes; another pass follows exactly while there is a byte and room. -/
def Obligations.DibReadCopiesOneByte : Prop :=
  ∀ (s : State) (output maxLen rd cnt : Word), s.phase = some .d2 → s.mem.wf = true →
    rd = ((s.dib.rd + 1) &&& dibMask s.cfg) → cnt = s.temps.cnt + 1 →
    ∃ t, exec (.dibRead output maxLen) s = .next t ∧ Frame [.mem, .dib] s t ∧ t.dib = { s.dib with rd := rd } ∧
      GoesOn s t (if rd ≠ s.temps.prod ∧ cnt < maxLen then .d2 else .d3) { s.temps with cnt := cnt } ∧
      t.load (output + s.temps.cnt) = s.load (s.cfg.dibBase + s.dib.rd) ∧
      ∀ a, a ≠ output + s.temps.cnt → t.load a = s.load a

/-- R199, R193: with the hardware cursor, as port M sees it, `n` bytes past the read cursor, a `DIB.READ` whose steps
are taken with no other agent's between copies exactly `min(n, max_len)` bytes, in order, answers with that count and
advances the read cursor by it; no other byte of memory changes. That it takes `k + 2` steps, the loop's test being no
step of its own, rests on log 18. -/
def Obligations.DibReadDrains : Prop :=
  ∀ (s : State) (output maxLen : Word) (n k : Nat),
    s.phase = some .d1 → s.cfg.wellFormed = true → dibOk s = true → s.mem.wf = true →
    output.toNat + maxLen.toNat ≤ 2 ^ 32 →
    s.clearOfDib (operandRegion output maxLen) = true → s.clearOfStores (operandRegion output maxLen) = true →
    n = ((dibIndex s.cfg s.viewHw - s.dib.rd) &&& dibMask s.cfg).toNat → k = min n maxLen.toNat →
    ∃ t, serve (.dibRead output maxLen) (k + 2) s = .next t ∧ Answered s t .ok (BitVec.ofNat 32 k) ∧
      Frame [.mem, .dib] s t ∧
      t.dib = { s.dib with rd := (s.dib.rd + BitVec.ofNat 32 k) &&& dibMask s.cfg } ∧
      (∀ j, j < k → t.load (output + BitVec.ofNat 32 j) =
        s.load (s.cfg.dibBase + ((s.dib.rd + BitVec.ofNat 32 j) &&& dibMask s.cfg))) ∧
      ∀ a, (∀ j, j < k → a ≠ output + BitVec.ofNat 32 j) → t.load a = s.load a

/-- R195: while `dib.run` is 1 the ingest engine stores the byte at the hardware cursor and then advances it inside the
buffer; while it is 0 it has no step, which in the model is a step that changes nothing (the model's choice, log 7). -/
def Obligations.IngestEngineStores : Prop :=
  ∀ (s : State) (b : Byte),
    (s.dib.run = true → s.mem.wf = true →
      ∃ t, apply (.hwWrite b) s = .next t ∧ AgentFrame [.mem, .dib] s t ∧
        t.dib = { s.dib with
          hw := s.cfg.dibBase + ((s.dib.hw - s.cfg.dibBase + 1) &&& dibMask s.cfg) } ∧
        t.load s.dib.hw = b ∧ ∀ a, a ≠ s.dib.hw → t.load a = s.load a) ∧
    (s.dib.run = false → apply (.hwWrite b) s = .next s)

/-- R197, R198: the outbound engine sends the byte of memory at `tx_src` while bytes remain and ends the transfer when
none does. That a move for a step that is not enabled changes nothing is the model's choice (log 7). -/
def Obligations.OutboundEngineSteps : Prop :=
  ∀ s : State,
    (s.dib.txBusy = true → s.dib.txRem ≠ 0 →
      ∃ t, apply .txByte s = .next t ∧ AgentFrame [.dib, .txOut] s t ∧
        t.txOut = s.txOut ++ [s.load s.dib.txSrc] ∧
        t.dib = { s.dib with txSrc := s.dib.txSrc + 1, txRem := s.dib.txRem - 1 }) ∧
    (s.dib.txBusy = true → s.dib.txRem = 0 →
      ∃ t, apply .txDone s = .next t ∧ AgentFrame [.dib] s t ∧ t.dib = { s.dib with txBusy := false }) ∧
    ((s.dib.txBusy = false ∨ s.dib.txRem = 0) → apply .txByte s = .next s) ∧
    ((s.dib.txBusy = false ∨ s.dib.txRem ≠ 0) → apply .txDone s = .next s)

/-- R191, R197: the engine alone sends the `length` bytes of a transfer in address order, after which no byte remains
and memory is as it was. -/
def Obligations.OutboundTransferSendsAll : Prop :=
  ∀ (s : State) (n : Nat), s.dib.txBusy = true → s.dib.txRem.toNat = n →
    (sendBytes n s).txOut = s.txOut ++ (List.range n).map (fun k => s.load (s.dib.txSrc + BitVec.ofNat 32 k)) ∧
    (sendBytes n s).dib = { s.dib with txSrc := s.dib.txSrc + BitVec.ofNat 32 n, txRem := 0 } ∧
    AgentFrame [.dib, .txOut] s (sendBytes n s)

/-- R191, R198, R297 (2): in a run in which the outbound engine is fair, an outbound transfer in flight ends, so that a
held `DIB.SEND` does not wait for ever. Fairness is the premise of log 21. -/
def Obligations.OutboundTransferEnds : Prop :=
  ∀ (moves : Nat → Move) (e : Nat → State), Runs moves e → FairTx moves e →
    ∀ n, (e n).dib.txBusy = true → ∃ m, n ≤ m ∧ (e m).dib.txBusy = false

/-- R29, R195: the hardware cursor stays in the buffer and the read cursor below the capacity, after every step of every
agent. -/
def Obligations.BridgeCursorsStayInRange : Prop :=
  ∀ s t : State, s.cfg.wellFormed = true → dibOk s = true → step s = .next t → dibOk t = true

/-! ## CommandDecoder (43_command_decoder.md) -/

/-- R220, R224: a terminator answers with the lookup of the line and resets the index, storing the null byte; any other
byte is appended while the index is below `CD_CAP − 1` and discarded when it is not, and answers `NONE`. -/
def Obligations.FeedFollowsTheTable : Prop :=
  ∀ (s : State) (byte : Byte), s.phase = some .k1 →
    ((byte = 0x0A#8 ∨ byte = 0x0D#8) →
      ∃ t, exec (.cdFeed byte) s = .next t ∧ Answered s t .ok (lookup (s.cd.acc.take s.cd.idx)) ∧ Frame [.cd] s t ∧
        t.cd = { acc := s.cd.acc.set s.cd.idx 0, idx := 0 }) ∧
    (byte ≠ 0x0A#8 → byte ≠ 0x0D#8 → s.cd.idx < s.cfg.cdCap - 1 →
      ∃ t, exec (.cdFeed byte) s = .next t ∧ Answered s t .ok 0 ∧ Frame [.cd] s t ∧
        t.cd = { acc := s.cd.acc.set s.cd.idx byte, idx := s.cd.idx + 1 }) ∧
    (byte ≠ 0x0A#8 → byte ≠ 0x0D#8 → s.cfg.cdCap - 1 ≤ s.cd.idx →
      ∃ t, exec (.cdFeed byte) s = .next t ∧ Answered s t .ok 0 ∧ Frame [] s t)

/-- R33, R222: the lookup gives `INV`, `NORM` and `PING` for exactly their strings and `NONE` for every other line. -/
def Obligations.LookupIsExact : Prop :=
  ∀ line : List Byte,
    (lookup line = 1 ↔ line = [0x49#8, 0x4E#8, 0x56#8]) ∧
    (lookup line = 2 ↔ line = [0x4E#8, 0x4F#8, 0x52#8, 0x4D#8]) ∧
    (lookup line = 3 ↔ line = [0x50#8, 0x49#8, 0x4E#8, 0x47#8]) ∧
    (lookup line = 0 ↔ line ≠ [0x49#8, 0x4E#8, 0x56#8] ∧ line ≠ [0x4E#8, 0x4F#8, 0x52#8, 0x4D#8] ∧
      line ≠ [0x50#8, 0x49#8, 0x4E#8, 0x47#8])

/-- R220, R224, R225: from index 0, a line of any length and its terminator answer `NONE` for every byte of the line and
then the lookup of the line's first `CD_CAP − 1` bytes, and leave the index at 0 and the buffer of the same length. -/
def Obligations.LineIsDecodedOnce : Prop :=
  ∀ (c : Params) (d : Cd) (line : List Byte) (term : Byte),
    d.acc.length = c.cdCap → d.idx = 0 → 5 ≤ c.cdCap → isTerminator term = true →
    (∀ b, b ∈ line → isTerminator b = false) →
    (feedAll c (line ++ [term]) d).2 = List.replicate line.length 0 ++ [lookup (line.take (c.cdCap - 1))] ∧
    (feedAll c (line ++ [term]) d).1.idx = 0 ∧ (feedAll c (line ++ [term]) d).1.acc.length = c.cdCap

/-- R32, R220: the accumulation buffer keeps its `CD_CAP` bytes and the index stays at most the last slot, after
every step of every agent. -/
def Obligations.DecoderIndexStaysInRange : Prop :=
  ∀ s t : State, s.cfg.wellFormed = true → cdOk s = true → step s = .next t → cdOk t = true

/-! ## System requests (44_system.md) -/

/-- R240, step G1: the value of the register an index names, or `BadRequest`; no state changes. -/
def Obligations.CsrReadAnswers : Prop :=
  ∀ (s : State) (csr : BitVec 12), s.phase = some .g1 →
    (∀ v, s.csrRead csr = some v →
      ∃ t, exec (.sysCsrr csr) s = .next t ∧ Answered s t .ok v ∧ Frame [] s t) ∧
    (s.csrRead csr = none →
      ∃ t, exec (.sysCsrr csr) s = .next t ∧ Answered s t .badRequest 0 ∧ Frame [] s t)

/-- R38: which index names which register, and what it reads as; every other index names none. -/
def Obligations.CsrMapIsTheTable : Prop :=
  ∀ s : State, s.nRb ≤ 256 →
    s.csrRead 0x000#12 = some (s.brc.addr.setWidth 32) ∧ s.csrRead 0x001#12 = some s.brc.timeoutUs ∧
    s.csrRead 0x002#12 = some (s.brc.pulses.setWidth 32) ∧ s.csrRead 0x003#12 = some (s.brc.pwidthUs.setWidth 32) ∧
    s.csrRead 0x010#12 = some (BitVec.ofNat 32 s.cd.idx) ∧
    s.csrRead 0x020#12 =
      some ((if s.dib.run then 1#32 else 0#32) + (if s.dib.txBusy then 2#32 else 0#32)) ∧
    s.csrRead 0x021#12 = some s.dib.rd ∧ s.csrRead 0x022#12 = some s.viewHw ∧
    (∀ i, i < s.nRb →
      s.csrRead (BitVec.ofNat 12 (0x100 + 4 * i)) = some (s.rbAt i).base ∧
      s.csrRead (BitVec.ofNat 12 (0x101 + 4 * i)) = some (s.rbAt i).mask ∧
      s.csrRead (BitVec.ofNat 12 (0x102 + 4 * i)) = some ((s.rbAt i).viewHead s.cfg.rbSync) ∧
      s.csrRead (BitVec.ofNat 12 (0x103 + 4 * i)) = some (s.rbAt i).tail) ∧
    (∀ csr : BitVec 12, csr.toNat ∉ [0x000, 0x001, 0x002, 0x003, 0x010, 0x020, 0x021, 0x022] →
      (csr.toNat < 0x100 ∨ 0x100 + 4 * s.nRb ≤ csr.toNat) → s.csrRead csr = none)

/-- R241, step H1: a write to each of the four BRC registers sets that register alone, `BRC_PULSES` clamped to 9; a
write to any other index answers `BadRequest` and changes nothing. -/
def Obligations.CsrWriteSets : Prop :=
  ∀ (s : State) (csr : BitVec 12) (value : Word), s.phase = some .h1 →
    (∀ b, (csr = 0x000#12 ∧ b = { s.brc with addr := value.extractLsb' 0 8 }) ∨
        (csr = 0x001#12 ∧ b = { s.brc with timeoutUs := value }) ∨
        (csr = 0x002#12 ∧ b = { s.brc with pulses := BitVec.ofNat 4 (min 9 (value.toNat % 16)) }) ∨
        (csr = 0x003#12 ∧ b = { s.brc with pwidthUs := value.extractLsb' 0 16 }) →
      ∃ t, exec (.sysCsrw csr value) s = .next t ∧ Answered s t .ok 0 ∧ t.brc = b ∧ Frame [.brc] s t) ∧
    (4 ≤ csr.toNat →
      ∃ t, exec (.sysCsrw csr value) s = .next t ∧ Answered s t .badRequest 0 ∧ Frame [] s t)

/-! ## Memory, ordering, ownership -/

/-- R70, R71: in `GRAY` mode each synchroniser step copies one cursor into its shadow and changes nothing else; in
`DIRECT` mode the synchronisers have no step, which in the model is a step that changes nothing (the model's choice,
log 7). -/
def Obligations.SynchronisersCopy : Prop :=
  ∀ (s : State) (i : Nat),
    (s.cfg.rbSync = .gray → i < s.nRb →
      ∃ t, apply (.syncH i) s = .next t ∧ AgentFrame [.ring i] s t ∧
        sameRegs { s.rbAt i with headSeen := (s.rbAt i).head } (t.rbAt i)) ∧
    (s.cfg.rbSync = .gray → i < s.nRb →
      ∃ t, apply (.syncT i) s = .next t ∧ AgentFrame [.ring i] s t ∧
        sameRegs { s.rbAt i with tailSeen := (s.rbAt i).tail } (t.rbAt i)) ∧
    (s.cfg.dibSync = .gray →
      ∃ t, apply .syncD s = .next t ∧ AgentFrame [.dib] s t ∧ t.dib = { s.dib with hwSeen := s.dib.hw }) ∧
    (s.cfg.rbSync = .direct → apply (.syncH i) s = .next s ∧ apply (.syncT i) s = .next s) ∧
    (s.cfg.dibSync = .direct → apply .syncD s = .next s)

/-- R69, R70, R71, R73, R297 (3): in a `GRAY` run in which the synchronisers of an instance are fair, once its cursors
stop moving there is a step from which on both views equal them, so that every answer is then the `DIRECT` one; and in
one in which the bridge's synchroniser is fair, once the hardware cursor stops moving there is a step from which on
port M's view equals it. -/
def Obligations.ViewsCatchUp : Prop :=
  ∀ (moves : Nat → Move) (e : Nat → State) (n : Nat), Runs moves e →
    (∀ (i : Nat) (h t : Word), FairSync i moves → (e n).cfg.rbSync = .gray → i < (e n).nRb →
      (∀ m, n ≤ m → ((e m).rbAt i).head = h ∧ ((e m).rbAt i).tail = t) →
      ∃ m, n ≤ m ∧ ∀ k, m ≤ k → ((e k).rbAt i).viewHead (e k).cfg.rbSync = h ∧
        ((e k).rbAt i).viewTail (e k).cfg.rbSync = t) ∧
    (∀ hw : Word, FairSyncD moves → (e n).cfg.dibSync = .gray → (∀ m, n ≤ m → (e m).dib.hw = hw) →
      ∃ m, n ≤ m ∧ ∀ k, m ≤ k → (e k).viewHw = hw)

/-- R123, R297 (1): in a run in which a producer port is fair, a request in flight on it is answered or dropped by a
reset, whatever the other agents do: no push waits for the consumer. Fairness, the port's moves coming infinitely often,
is the premise of log 21 (DEDUCED). -/
def Obligations.ProducerNeverWaits : Prop :=
  ∀ (moves : Nat → Move) (e : Nat → State) (i : Nat), Runs moves e → FairPort (.prod i) moves →
    flightsOk (e 0) = true → ∀ n, ∃ m, n ≤ m ∧ (e m).busy (.prod i) = false

/-- R72: the Gray code of an index decodes to it, and the codes of an index of `k` bits and of the next one, the wrap to 0
included, differ in exactly one bit (log 27). -/
def Obligations.GrayCodeChangesOneBit : Prop :=
  (∀ b : Word, ungray (gray b) = b) ∧
  (∀ mask b : Word, maskOk mask = true → mask ≠ 0 → b ≤ mask →
    ∃ j, j < 32 ∧ gray b ^^^ gray (nextCursor b mask) = BitVec.ofNat 32 (2 ^ j))

/-- R79, R292, R293, U4: software's own store writes one byte of memory and nothing else; it is refused in a live store,
in the DIB buffer once `DIB.INIT` has run, and in the data bytes of a `BRC.SAFE_WRITE` in flight (log 16); software's
own load changes nothing. -/
def Obligations.EnvironmentAccesses : Prop :=
  ∀ (s : State) (a : Word) (v : Byte),
    (s.liveAddress a = false →
      (∀ f addr data length, s.main.flight = some f → f.instr = .brcSafeWrite addr data length →
        (operandRegion data length).contains a.toNat = false) →
      s.mem.wf = true →
      ∃ t, apply (.envWrite a v) s = .next t ∧ AgentFrame [.mem] s t ∧ t.load a = v ∧
        ∀ x, x ≠ a → t.load x = s.load x) ∧
    (s.liveAddress a = true → apply (.envWrite a v) s = .refused .envContract) ∧
    (∀ f addr data length, s.main.flight = some f → f.instr = .brcSafeWrite addr data length →
      (operandRegion data length).contains a.toNat = true →
      apply (.envWrite a v) s = .refused .envContract) ∧
    apply (.envRead a) s = .next s

/-- R60, R196: every byte of memory that a step changes lies in the store of the instance pushed to, in the output
region of the `DIB.READ` in flight, in the DIB buffer when the ingest engine moves, or is software's own store. -/
def Obligations.OnlyOwnRegionsAreWritten : Prop :=
  ∀ (s t : State) (m : Move) (a : Word), queueOk s = true → apply m s = .next t → t.load a ≠ s.load a →
    (∃ i d, m = .port (.prod i) d ∧ (s.rbAt i).store.contains a.toNat = true) ∨
    (∃ d f output maxLen, m = .port .main d ∧ s.main.flight = some f ∧ f.instr = .dibRead output maxLen ∧
      (operandRegion output maxLen).contains a.toNat = true) ∨
    (∃ b, m = .hwWrite b ∧ s.dib.run = true ∧ (dibRegion s.cfg).contains a.toNat = true) ∨
    ∃ v, m = .envWrite a v

/-- R123, R260: only port `P_i` moves `rb[i].head`, but for an `RB.INIT` and reset; only port M moves `rb[i].tail`,
`dib.rd`, `cd.idx`, the BRC registers and the pins, but for reset; only the ingest engine moves `dib.hw`, but for a
`DIB.INIT` and reset. -/
def Obligations.EachCursorHasOneWriter : Prop :=
  ∀ (s t : State) (m : Move) (i : Nat), flightsOk s = true → apply m s = .next t → (∀ x y z, m ≠ .reset x y z) →
    ((t.rbAt i).head ≠ (s.rbAt i).head →
      (∃ d, m = .port (.prod i) d) ∨
      ∃ d f sel base size, m = .port .main d ∧ s.main.flight = some f ∧ f.instr = .rbInit sel base size ∧
        sel.toNat = i) ∧
    ((t.rbAt i).tail ≠ (s.rbAt i).tail ∨ t.dib.rd ≠ s.dib.rd ∨ t.cd ≠ s.cd ∨ t.brc ≠ s.brc ∨ t.pins ≠ s.pins →
      ∃ d, m = .port .main d) ∧
    (t.dib.hw ≠ s.dib.hw →
      (∃ b, m = .hwWrite b) ∨ ∃ d f, m = .port .main d ∧ s.main.flight = some f ∧ f.instr = .dibInit)

/-! ## Invariants of the machine and reset -/

/-- R9, R20: no step changes the parameters or the number of instances (log 1, log 2), and none lets memory lose its
canonical form. -/
def Obligations.ParametersAndMemoryFormAreKept : Prop :=
  ∀ s t : State, step s = .next t → t.cfg = s.cfg ∧ t.nRb = s.nRb ∧ (s.mem.wf = true → t.mem.wf = true)

/-- R22, R36, R96, R97: every port's request in flight stays one the port admits, on an instance that exists, at one of
its own steps. -/
def Obligations.FlightsStayInOrder : Prop :=
  ∀ s t : State, flightsOk s = true → step s = .next t → flightsOk t = true

/-- R294: the stores stay pairwise disjoint, and disjoint from the DIB buffer, whether or not `DIB.INIT` has run. The
refusals that keep it are those of log 15. -/
def Obligations.RegionsStayDisjoint : Prop :=
  ∀ s t : State, regionsOk s = true → step s = .next t → regionsOk t = true

/-- R44: the reset values the spec gives, for every instance of the hardware (the values log 9 to log 12 name are not
stated), and the invariants hold there; nothing is under way, and the run of the empty program has ended (R301). -/
def Obligations.ResetLeavesTheTable : Prop :=
  ∀ (c : Params) (n : Nat), c.wellFormed = true → nRbOk n = true →
    queueOk (State.resetWith c n) = true ∧ Quiescent (State.resetWith c n) ∧
    (∀ moves e, e 0 = State.resetWith c n → Ended (fun _ => []) moves e 0) ∧ (State.resetWith c n).nRb = n ∧
    (∀ i, i < n → sameRegs ((State.resetWith c n).rbAt i)
      { base := 0, mask := 0, head := 0, tail := 0, headSeen := 0, tailSeen := 0, port := PortRec.idle }) ∧
    (State.resetWith c n).brc =
      { addr := 0, timeoutUs := 50000#32, pulses := 9#4, pwidthUs := 10#16, state := .idle, n := 0 } ∧
    (State.resetWith c n).pins.sdaMode = .function ∧ (State.resetWith c n).pins.sclMode = .function ∧
    (State.resetWith c n).pins.sdaOut = true ∧ (State.resetWith c n).pins.sclOut = true ∧
    (State.resetWith c n).dib =
      { run := false, hw := c.dibBase, rd := 0, hwSeen := c.dibBase, txBusy := false, txSrc := 0, txRem := 0 } ∧
    (State.resetWith c n).cd.idx = 0 ∧ (State.resetWith c n).pinTrace = [] ∧ (State.resetWith c n).busTrace = [] ∧
    (State.resetWith c n).txOut = []

/-- R280, R281: asserting reset in any state drops every request in flight without a response, puts the registers at
their reset values and empties the traces; memory and the parameters stay. That a request in flight is dropped although
U2 lists the case as a fault, and that the pull-ups and `cd.acc` come with the move, cut or filled up to `CD_CAP` bytes,
is the model's choice (log 13). -/
def Obligations.ResetInputResets : Prop :=
  ∀ (s : State) (sdaPull sclPull : Bool) (acc : List Byte),
    ∃ t, apply (.reset sdaPull sclPull acc) s = .next t ∧ t.cfg = s.cfg ∧ t.nRb = s.nRb ∧ (∀ a, t.load a = s.load a) ∧
      (∀ p, t.port p = PortRec.idle) ∧ (∀ i, sameRegs (t.rbAt i) Rb.reset) ∧ t.brc = Brc.reset ∧
      t.pins = Pins.reset sdaPull sclPull ∧ t.dib = Dib.reset s.cfg.dibBase ∧ t.cd.idx = 0 ∧
      t.cd.acc.length = s.cfg.cdCap ∧ t.pinTrace = [] ∧ t.busTrace = [] ∧ t.txOut = []
end

