-- ==== Sys2Proof/Laws/State.lean ====
section
/-! SUPPORT. Beside the state: one lemma per field per update, so that no later proof unfolds a record update. -/

namespace Sys2Proof.Machine

/-! ## `store`, `setRb`, the traces -/

@[simp] theorem State.store_cfg (s : State) (a : Word) (v : Byte) : (s.store a v).cfg = s.cfg := rfl
@[simp] theorem State.store_rb (s : State) (a : Word) (v : Byte) : (s.store a v).rb = s.rb := rfl
@[simp] theorem State.store_main (s : State) (a : Word) (v : Byte) : (s.store a v).main = s.main := rfl
@[simp] theorem State.store_brc (s : State) (a : Word) (v : Byte) : (s.store a v).brc = s.brc := rfl
@[simp] theorem State.store_pins (s : State) (a : Word) (v : Byte) : (s.store a v).pins = s.pins := rfl
@[simp] theorem State.store_dib (s : State) (a : Word) (v : Byte) : (s.store a v).dib = s.dib := rfl
@[simp] theorem State.store_cd (s : State) (a : Word) (v : Byte) : (s.store a v).cd = s.cd := rfl
@[simp] theorem State.store_pinTrace (s : State) (a : Word) (v : Byte) : (s.store a v).pinTrace = s.pinTrace := rfl
@[simp] theorem State.store_busTrace (s : State) (a : Word) (v : Byte) : (s.store a v).busTrace = s.busTrace := rfl
@[simp] theorem State.store_txOut (s : State) (a : Word) (v : Byte) : (s.store a v).txOut = s.txOut := rfl
@[simp] theorem State.store_env (s : State) (a : Word) (v : Byte) : (s.store a v).env = s.env := rfl

@[simp] theorem State.setRb_cfg (s : State) (i : Nat) (r : Rb) : (s.setRb i r).cfg = s.cfg := rfl
@[simp] theorem State.setRb_main (s : State) (i : Nat) (r : Rb) : (s.setRb i r).main = s.main := rfl
@[simp] theorem State.setRb_brc (s : State) (i : Nat) (r : Rb) : (s.setRb i r).brc = s.brc := rfl
@[simp] theorem State.setRb_pins (s : State) (i : Nat) (r : Rb) : (s.setRb i r).pins = s.pins := rfl
@[simp] theorem State.setRb_dib (s : State) (i : Nat) (r : Rb) : (s.setRb i r).dib = s.dib := rfl
@[simp] theorem State.setRb_cd (s : State) (i : Nat) (r : Rb) : (s.setRb i r).cd = s.cd := rfl
@[simp] theorem State.setRb_mem (s : State) (i : Nat) (r : Rb) : (s.setRb i r).mem = s.mem := rfl
@[simp] theorem State.setRb_pinTrace (s : State) (i : Nat) (r : Rb) : (s.setRb i r).pinTrace = s.pinTrace := rfl
@[simp] theorem State.setRb_busTrace (s : State) (i : Nat) (r : Rb) : (s.setRb i r).busTrace = s.busTrace := rfl
@[simp] theorem State.setRb_txOut (s : State) (i : Nat) (r : Rb) : (s.setRb i r).txOut = s.txOut := rfl
@[simp] theorem State.setRb_env (s : State) (i : Nat) (r : Rb) : (s.setRb i r).env = s.env := rfl

@[simp] theorem State.emitPins_cfg (s : State) (es : List PinEvent) : (s.emitPins es).cfg = s.cfg := rfl
@[simp] theorem State.emitPins_rb (s : State) (es : List PinEvent) : (s.emitPins es).rb = s.rb := rfl
@[simp] theorem State.emitPins_main (s : State) (es : List PinEvent) : (s.emitPins es).main = s.main := rfl
@[simp] theorem State.emitPins_brc (s : State) (es : List PinEvent) : (s.emitPins es).brc = s.brc := rfl
@[simp] theorem State.emitPins_pins (s : State) (es : List PinEvent) : (s.emitPins es).pins = s.pins := rfl
@[simp] theorem State.emitPins_dib (s : State) (es : List PinEvent) : (s.emitPins es).dib = s.dib := rfl
@[simp] theorem State.emitPins_cd (s : State) (es : List PinEvent) : (s.emitPins es).cd = s.cd := rfl
@[simp] theorem State.emitPins_mem (s : State) (es : List PinEvent) : (s.emitPins es).mem = s.mem := rfl
@[simp] theorem State.emitPins_busTrace (s : State) (es : List PinEvent) : (s.emitPins es).busTrace = s.busTrace := rfl
@[simp] theorem State.emitPins_txOut (s : State) (es : List PinEvent) : (s.emitPins es).txOut = s.txOut := rfl
@[simp] theorem State.emitPins_env (s : State) (es : List PinEvent) : (s.emitPins es).env = s.env := rfl

@[simp] theorem State.emitBus_cfg (s : State) (e : BusEvent) : (s.emitBus e).cfg = s.cfg := rfl
@[simp] theorem State.emitBus_rb (s : State) (e : BusEvent) : (s.emitBus e).rb = s.rb := rfl
@[simp] theorem State.emitBus_main (s : State) (e : BusEvent) : (s.emitBus e).main = s.main := rfl
@[simp] theorem State.emitBus_brc (s : State) (e : BusEvent) : (s.emitBus e).brc = s.brc := rfl
@[simp] theorem State.emitBus_pins (s : State) (e : BusEvent) : (s.emitBus e).pins = s.pins := rfl
@[simp] theorem State.emitBus_dib (s : State) (e : BusEvent) : (s.emitBus e).dib = s.dib := rfl
@[simp] theorem State.emitBus_cd (s : State) (e : BusEvent) : (s.emitBus e).cd = s.cd := rfl
@[simp] theorem State.emitBus_mem (s : State) (e : BusEvent) : (s.emitBus e).mem = s.mem := rfl
@[simp] theorem State.emitBus_pinTrace (s : State) (e : BusEvent) : (s.emitBus e).pinTrace = s.pinTrace := rfl
@[simp] theorem State.emitBus_txOut (s : State) (e : BusEvent) : (s.emitBus e).txOut = s.txOut := rfl
@[simp] theorem State.emitBus_env (s : State) (e : BusEvent) : (s.emitBus e).env = s.env := rfl

@[simp] theorem State.actingAs_cfg (s : State) (p : Port) : (s.actingAs p).cfg = s.cfg := rfl
@[simp] theorem State.actingAs_rb (s : State) (p : Port) : (s.actingAs p).rb = s.rb := rfl
@[simp] theorem State.actingAs_main (s : State) (p : Port) : (s.actingAs p).main = s.main := rfl
@[simp] theorem State.actingAs_brc (s : State) (p : Port) : (s.actingAs p).brc = s.brc := rfl
@[simp] theorem State.actingAs_pins (s : State) (p : Port) : (s.actingAs p).pins = s.pins := rfl
@[simp] theorem State.actingAs_dib (s : State) (p : Port) : (s.actingAs p).dib = s.dib := rfl
@[simp] theorem State.actingAs_cd (s : State) (p : Port) : (s.actingAs p).cd = s.cd := rfl
@[simp] theorem State.actingAs_mem (s : State) (p : Port) : (s.actingAs p).mem = s.mem := rfl
@[simp] theorem State.actingAs_pinTrace (s : State) (p : Port) : (s.actingAs p).pinTrace = s.pinTrace := rfl
@[simp] theorem State.actingAs_busTrace (s : State) (p : Port) : (s.actingAs p).busTrace = s.busTrace := rfl
@[simp] theorem State.actingAs_txOut (s : State) (p : Port) : (s.actingAs p).txOut = s.txOut := rfl

@[simp] theorem State.drawing_cfg (s : State) (p : Port) (d : Draw) : (s.drawing p d).cfg = s.cfg := rfl
@[simp] theorem State.drawing_rb (s : State) (p : Port) (d : Draw) : (s.drawing p d).rb = s.rb := rfl
@[simp] theorem State.drawing_main (s : State) (p : Port) (d : Draw) : (s.drawing p d).main = s.main := rfl
@[simp] theorem State.drawing_brc (s : State) (p : Port) (d : Draw) : (s.drawing p d).brc = s.brc := rfl
@[simp] theorem State.drawing_pins (s : State) (p : Port) (d : Draw) : (s.drawing p d).pins = s.pins := rfl
@[simp] theorem State.drawing_dib (s : State) (p : Port) (d : Draw) : (s.drawing p d).dib = s.dib := rfl
@[simp] theorem State.drawing_cd (s : State) (p : Port) (d : Draw) : (s.drawing p d).cd = s.cd := rfl
@[simp] theorem State.drawing_mem (s : State) (p : Port) (d : Draw) : (s.drawing p d).mem = s.mem := rfl
@[simp] theorem State.drawing_pinTrace (s : State) (p : Port) (d : Draw) : (s.drawing p d).pinTrace = s.pinTrace := rfl
@[simp] theorem State.drawing_busTrace (s : State) (p : Port) (d : Draw) : (s.drawing p d).busTrace = s.busTrace := rfl
@[simp] theorem State.drawing_txOut (s : State) (p : Port) (d : Draw) : (s.drawing p d).txOut = s.txOut := rfl

@[simp] theorem State.store_mem (s : State) (a : Word) (v : Byte) : (s.store a v).mem = s.mem.write a.toNat v := rfl
@[simp] theorem State.setRb_rb (s : State) (i : Nat) (r : Rb) : (s.setRb i r).rb = s.rb.set i r := rfl
@[simp] theorem State.emitPins_pinTrace (s : State) (es : List PinEvent) : (s.emitPins es).pinTrace = s.pinTrace ++ es := rfl
@[simp] theorem State.emitBus_busTrace (s : State) (e : BusEvent) : (s.emitBus e).busTrace = s.busTrace ++ [e] := rfl
@[simp] theorem State.actingAs_env (s : State) (p : Port) : (s.actingAs p).env = { s.env with acting := p } := rfl
@[simp] theorem State.drawing_env (s : State) (p : Port) (d : Draw) : (s.drawing p d).env = { s.env with acting := p, draw := d } := rfl

/-! ## `setPort` and the operations that go through it -/

@[simp] theorem State.setPort_cfg (s : State) (p : Port) (c : PortRec) : (s.setPort p c).cfg = s.cfg := by cases p <;> rfl
@[simp] theorem State.setPort_brc (s : State) (p : Port) (c : PortRec) : (s.setPort p c).brc = s.brc := by cases p <;> rfl
@[simp] theorem State.setPort_pins (s : State) (p : Port) (c : PortRec) : (s.setPort p c).pins = s.pins := by cases p <;> rfl
@[simp] theorem State.setPort_dib (s : State) (p : Port) (c : PortRec) : (s.setPort p c).dib = s.dib := by cases p <;> rfl
@[simp] theorem State.setPort_cd (s : State) (p : Port) (c : PortRec) : (s.setPort p c).cd = s.cd := by cases p <;> rfl
@[simp] theorem State.setPort_mem (s : State) (p : Port) (c : PortRec) : (s.setPort p c).mem = s.mem := by cases p <;> rfl
@[simp] theorem State.setPort_pinTrace (s : State) (p : Port) (c : PortRec) : (s.setPort p c).pinTrace = s.pinTrace := by cases p <;> rfl
@[simp] theorem State.setPort_busTrace (s : State) (p : Port) (c : PortRec) : (s.setPort p c).busTrace = s.busTrace := by cases p <;> rfl
@[simp] theorem State.setPort_txOut (s : State) (p : Port) (c : PortRec) : (s.setPort p c).txOut = s.txOut := by cases p <;> rfl
@[simp] theorem State.setPort_env (s : State) (p : Port) (c : PortRec) : (s.setPort p c).env = s.env := by cases p <;> rfl

@[simp] theorem State.respond_cfg (s : State) (st : Status) (v : Word) : (s.respond st v).cfg = s.cfg := State.setPort_cfg _ _ _
@[simp] theorem State.respond_brc (s : State) (st : Status) (v : Word) : (s.respond st v).brc = s.brc := State.setPort_brc _ _ _
@[simp] theorem State.respond_pins (s : State) (st : Status) (v : Word) : (s.respond st v).pins = s.pins := State.setPort_pins _ _ _
@[simp] theorem State.respond_dib (s : State) (st : Status) (v : Word) : (s.respond st v).dib = s.dib := State.setPort_dib _ _ _
@[simp] theorem State.respond_cd (s : State) (st : Status) (v : Word) : (s.respond st v).cd = s.cd := State.setPort_cd _ _ _
@[simp] theorem State.respond_mem (s : State) (st : Status) (v : Word) : (s.respond st v).mem = s.mem := State.setPort_mem _ _ _
@[simp] theorem State.respond_pinTrace (s : State) (st : Status) (v : Word) : (s.respond st v).pinTrace = s.pinTrace := State.setPort_pinTrace _ _ _
@[simp] theorem State.respond_busTrace (s : State) (st : Status) (v : Word) : (s.respond st v).busTrace = s.busTrace := State.setPort_busTrace _ _ _
@[simp] theorem State.respond_txOut (s : State) (st : Status) (v : Word) : (s.respond st v).txOut = s.txOut := State.setPort_txOut _ _ _
@[simp] theorem State.respond_env (s : State) (st : Status) (v : Word) : (s.respond st v).env = s.env := State.setPort_env _ _ _

@[simp] theorem State.fail_cfg (s : State) (st : Status) : (s.fail st).cfg = s.cfg := State.setPort_cfg _ _ _
@[simp] theorem State.fail_brc (s : State) (st : Status) : (s.fail st).brc = s.brc := State.setPort_brc _ _ _
@[simp] theorem State.fail_pins (s : State) (st : Status) : (s.fail st).pins = s.pins := State.setPort_pins _ _ _
@[simp] theorem State.fail_dib (s : State) (st : Status) : (s.fail st).dib = s.dib := State.setPort_dib _ _ _
@[simp] theorem State.fail_cd (s : State) (st : Status) : (s.fail st).cd = s.cd := State.setPort_cd _ _ _
@[simp] theorem State.fail_mem (s : State) (st : Status) : (s.fail st).mem = s.mem := State.setPort_mem _ _ _
@[simp] theorem State.fail_pinTrace (s : State) (st : Status) : (s.fail st).pinTrace = s.pinTrace := State.setPort_pinTrace _ _ _
@[simp] theorem State.fail_busTrace (s : State) (st : Status) : (s.fail st).busTrace = s.busTrace := State.setPort_busTrace _ _ _
@[simp] theorem State.fail_txOut (s : State) (st : Status) : (s.fail st).txOut = s.txOut := State.setPort_txOut _ _ _
@[simp] theorem State.fail_env (s : State) (st : Status) : (s.fail st).env = s.env := State.setPort_env _ _ _

@[simp] theorem State.begin_cfg (s : State) (i : Instr) (ph : Phase) : (s.begin i ph).cfg = s.cfg := State.setPort_cfg _ _ _
@[simp] theorem State.begin_brc (s : State) (i : Instr) (ph : Phase) : (s.begin i ph).brc = s.brc := State.setPort_brc _ _ _
@[simp] theorem State.begin_pins (s : State) (i : Instr) (ph : Phase) : (s.begin i ph).pins = s.pins := State.setPort_pins _ _ _
@[simp] theorem State.begin_dib (s : State) (i : Instr) (ph : Phase) : (s.begin i ph).dib = s.dib := State.setPort_dib _ _ _
@[simp] theorem State.begin_cd (s : State) (i : Instr) (ph : Phase) : (s.begin i ph).cd = s.cd := State.setPort_cd _ _ _
@[simp] theorem State.begin_mem (s : State) (i : Instr) (ph : Phase) : (s.begin i ph).mem = s.mem := State.setPort_mem _ _ _
@[simp] theorem State.begin_pinTrace (s : State) (i : Instr) (ph : Phase) : (s.begin i ph).pinTrace = s.pinTrace := State.setPort_pinTrace _ _ _
@[simp] theorem State.begin_busTrace (s : State) (i : Instr) (ph : Phase) : (s.begin i ph).busTrace = s.busTrace := State.setPort_busTrace _ _ _
@[simp] theorem State.begin_txOut (s : State) (i : Instr) (ph : Phase) : (s.begin i ph).txOut = s.txOut := State.setPort_txOut _ _ _
@[simp] theorem State.begin_env (s : State) (i : Instr) (ph : Phase) : (s.begin i ph).env = s.env := State.setPort_env _ _ _

@[simp] theorem State.advance_cfg (s : State) (ph : Phase) (t : Temps) : (s.advance ph t).cfg = s.cfg := by
  unfold State.advance; split
  · exact State.setPort_cfg _ _ _
  · rfl
@[simp] theorem State.advance_brc (s : State) (ph : Phase) (t : Temps) : (s.advance ph t).brc = s.brc := by
  unfold State.advance; split
  · exact State.setPort_brc _ _ _
  · rfl
@[simp] theorem State.advance_pins (s : State) (ph : Phase) (t : Temps) : (s.advance ph t).pins = s.pins := by
  unfold State.advance; split
  · exact State.setPort_pins _ _ _
  · rfl
@[simp] theorem State.advance_dib (s : State) (ph : Phase) (t : Temps) : (s.advance ph t).dib = s.dib := by
  unfold State.advance; split
  · exact State.setPort_dib _ _ _
  · rfl
@[simp] theorem State.advance_cd (s : State) (ph : Phase) (t : Temps) : (s.advance ph t).cd = s.cd := by
  unfold State.advance; split
  · exact State.setPort_cd _ _ _
  · rfl
@[simp] theorem State.advance_mem (s : State) (ph : Phase) (t : Temps) : (s.advance ph t).mem = s.mem := by
  unfold State.advance; split
  · exact State.setPort_mem _ _ _
  · rfl
@[simp] theorem State.advance_pinTrace (s : State) (ph : Phase) (t : Temps) : (s.advance ph t).pinTrace = s.pinTrace := by
  unfold State.advance; split
  · exact State.setPort_pinTrace _ _ _
  · rfl
@[simp] theorem State.advance_busTrace (s : State) (ph : Phase) (t : Temps) : (s.advance ph t).busTrace = s.busTrace := by
  unfold State.advance; split
  · exact State.setPort_busTrace _ _ _
  · rfl
@[simp] theorem State.advance_txOut (s : State) (ph : Phase) (t : Temps) : (s.advance ph t).txOut = s.txOut := by
  unfold State.advance; split
  · exact State.setPort_txOut _ _ _
  · rfl
@[simp] theorem State.advance_env (s : State) (ph : Phase) (t : Temps) : (s.advance ph t).env = s.env := by
  unfold State.advance; split
  · exact State.setPort_env _ _ _
  · rfl

@[simp] theorem State.goto_cfg (s : State) (ph : Phase) : (s.goto ph).cfg = s.cfg := State.advance_cfg _ _ _
@[simp] theorem State.goto_brc (s : State) (ph : Phase) : (s.goto ph).brc = s.brc := State.advance_brc _ _ _
@[simp] theorem State.goto_pins (s : State) (ph : Phase) : (s.goto ph).pins = s.pins := State.advance_pins _ _ _
@[simp] theorem State.goto_dib (s : State) (ph : Phase) : (s.goto ph).dib = s.dib := State.advance_dib _ _ _
@[simp] theorem State.goto_cd (s : State) (ph : Phase) : (s.goto ph).cd = s.cd := State.advance_cd _ _ _
@[simp] theorem State.goto_mem (s : State) (ph : Phase) : (s.goto ph).mem = s.mem := State.advance_mem _ _ _
@[simp] theorem State.goto_pinTrace (s : State) (ph : Phase) : (s.goto ph).pinTrace = s.pinTrace := State.advance_pinTrace _ _ _
@[simp] theorem State.goto_busTrace (s : State) (ph : Phase) : (s.goto ph).busTrace = s.busTrace := State.advance_busTrace _ _ _
@[simp] theorem State.goto_txOut (s : State) (ph : Phase) : (s.goto ph).txOut = s.txOut := State.advance_txOut _ _ _
@[simp] theorem State.goto_env (s : State) (ph : Phase) : (s.goto ph).env = s.env := State.advance_env _ _ _

@[simp] theorem State.gotoRun_cfg (s : State) (ph : Phase) : (s.gotoRun ph).cfg = s.cfg := State.goto_cfg _ _
@[simp] theorem State.gotoRun_brc (s : State) (ph : Phase) : (s.gotoRun ph).brc = s.brc := State.goto_brc _ _
@[simp] theorem State.gotoRun_pins (s : State) (ph : Phase) : (s.gotoRun ph).pins = s.pins := State.goto_pins _ _
@[simp] theorem State.gotoRun_dib (s : State) (ph : Phase) : (s.gotoRun ph).dib = s.dib := State.goto_dib _ _
@[simp] theorem State.gotoRun_cd (s : State) (ph : Phase) : (s.gotoRun ph).cd = s.cd := State.goto_cd _ _
@[simp] theorem State.gotoRun_mem (s : State) (ph : Phase) : (s.gotoRun ph).mem = s.mem := State.goto_mem _ _
@[simp] theorem State.gotoRun_pinTrace (s : State) (ph : Phase) : (s.gotoRun ph).pinTrace = s.pinTrace := State.goto_pinTrace _ _
@[simp] theorem State.gotoRun_busTrace (s : State) (ph : Phase) : (s.gotoRun ph).busTrace = s.busTrace := State.goto_busTrace _ _
@[simp] theorem State.gotoRun_txOut (s : State) (ph : Phase) : (s.gotoRun ph).txOut = s.txOut := State.goto_txOut _ _
@[simp] theorem State.gotoRun_env (s : State) (ph : Phase) : (s.gotoRun ph).env = s.env := State.goto_env _ _

end Sys2Proof.Machine
end

