-- ==== Sys2Proof/Laws/Memory.lean ====
section
/-! SUPPORT. Memory: a read after a write, and the canonical form, which every memory operation keeps. -/

namespace Sys2Proof.Machine

theorem Memory.wfFrom_mono {lo lo' : Nat} {m : Memory} (hle : lo ≤ lo') (h : Memory.wfFrom lo' m = true) :
    Memory.wfFrom lo m = true := by
  cases m with
  | nil => rfl
  | cons c rest =>
    obtain ⟨k, v⟩ := c
    simp only [Memory.wfFrom, Bool.and_eq_true, decide_eq_true_eq] at h ⊢
    exact ⟨⟨⟨by omega, h.1.1.2⟩, h.1.2⟩, h.2⟩

/-- Below the first address of a canonical memory nothing is listed. -/
theorem Memory.read_below {lo a : Nat} {m : Memory} (h : Memory.wfFrom lo m = true) (ha : a < lo) :
    Memory.read m a = Memory.unlisted := by
  induction m generalizing lo with
  | nil => rfl
  | cons c rest ih =>
    obtain ⟨k, v⟩ := c
    simp only [Memory.wfFrom, Bool.and_eq_true, decide_eq_true_eq] at h
    rw [Memory.read, if_neg (by omega)]
    exact ih h.2 (by omega)

theorem Memory.wfFrom_cons {lo a : Nat} {v : Byte} {rest : Memory} (h : Memory.wfFrom (a + 1) rest = true)
    (hlo : lo ≤ a) (ha : a < 2 ^ 32) : Memory.wfFrom lo (Memory.cons a v rest) = true := by
  unfold Memory.cons
  split
  · exact Memory.wfFrom_mono (by omega) h
  · simp only [Memory.wfFrom, Bool.and_eq_true, decide_eq_true_eq]
    exact ⟨⟨⟨hlo, ha⟩, by assumption⟩, h⟩

theorem Memory.wfFrom_write {lo a : Nat} {v : Byte} {m : Memory} (h : Memory.wfFrom lo m = true) (hlo : lo ≤ a)
    (ha : a < 2 ^ 32) : Memory.wfFrom lo (Memory.write m a v) = true := by
  induction m generalizing lo with
  | nil => exact Memory.wfFrom_cons rfl hlo ha
  | cons c rest ih =>
    obtain ⟨k, w⟩ := c
    have h' := h
    simp only [Memory.wfFrom, Bool.and_eq_true, decide_eq_true_eq] at h'
    unfold Memory.write
    split
    · refine Memory.wfFrom_cons ?_ hlo ha
      simp only [Memory.wfFrom, Bool.and_eq_true, decide_eq_true_eq]
      exact ⟨⟨⟨by omega, h'.1.1.2⟩, h'.1.2⟩, h'.2⟩
    · split
      · subst_vars
        exact Memory.wfFrom_cons h'.2 hlo ha
      · simp only [Memory.wfFrom, Bool.and_eq_true, decide_eq_true_eq]
        exact ⟨h'.1, ih h'.2 (by omega)⟩

/-- Every write keeps the canonical form. -/
theorem Memory.wf_write {m : Memory} (a : Nat) (v : Byte) (h : m.wf = true) (ha : a < 2 ^ 32) :
    (m.write a v).wf = true := Memory.wfFrom_write h (Nat.zero_le a) ha

theorem Memory.read_cons_self {lo a : Nat} {v : Byte} {rest : Memory} (h : Memory.wfFrom lo rest = true)
    (ha : a < lo) : Memory.read (Memory.cons a v rest) a = v := by
  unfold Memory.cons
  split
  · rw [Memory.read_below h ha]; symm; assumption
  · simp [Memory.read]

theorem Memory.read_cons_ne {a b : Nat} {v : Byte} {rest : Memory} (hne : b ≠ a) :
    Memory.read (Memory.cons a v rest) b = Memory.read rest b := by
  unfold Memory.cons
  split
  · rfl
  · rw [Memory.read, if_neg (Ne.symm hne)]

theorem Memory.read_write_self {lo a : Nat} {v : Byte} {m : Memory} (h : Memory.wfFrom lo m = true) :
    Memory.read (Memory.write m a v) a = v := by
  induction m generalizing lo with
  | nil => exact Memory.read_cons_self (lo := a + 1) rfl (by omega)
  | cons c rest ih =>
    obtain ⟨k, w⟩ := c
    simp only [Memory.wfFrom, Bool.and_eq_true, decide_eq_true_eq] at h
    unfold Memory.write
    split
    · refine Memory.read_cons_self (lo := k) ?_ (by assumption)
      simp only [Memory.wfFrom, Bool.and_eq_true, decide_eq_true_eq]
      exact ⟨⟨⟨le_refl k, h.1.1.2⟩, h.1.2⟩, h.2⟩
    · split
      · exact Memory.read_cons_self h.2 (by omega)
      · rw [Memory.read, if_neg (by omega)]
        exact ih h.2

theorem Memory.read_write_ne {a b : Nat} {v : Byte} {m : Memory} (hne : b ≠ a) :
    Memory.read (Memory.write m a v) b = Memory.read m b := by
  induction m with
  | nil => exact Memory.read_cons_ne hne
  | cons c rest ih =>
    obtain ⟨k, w⟩ := c
    unfold Memory.write
    split
    · exact Memory.read_cons_ne hne
    · split
      · rw [Memory.read_cons_ne hne, Memory.read, if_neg (by omega)]
      · simp only [Memory.read, ih]

/-! ## Through the state -/

theorem State.load_congr {s t : State} (h : t.mem = s.mem) (a : Word) : t.load a = s.load a := by
  unfold State.load; rw [h]

theorem State.load_store_self {s : State} {a : Word} {v : Byte} (h : s.mem.wf = true) : (s.store a v).load a = v :=
  Memory.read_write_self h

theorem State.load_store_ne {s : State} {a b : Word} {v : Byte} (hne : b ≠ a) : (s.store a v).load b = s.load b :=
  Memory.read_write_ne fun h => hne (BitVec.eq_of_toNat_eq h)

theorem State.store_wf {s : State} (a : Word) (v : Byte) (h : s.mem.wf = true) : (s.store a v).mem.wf = true :=
  Memory.wf_write _ _ h a.isLt

/-- Reset memory is canonical. -/
theorem State.resetWith_mem_wf (c : Params) (n : Nat) : (State.resetWith c n).mem.wf = true := rfl

end Sys2Proof.Machine
end

