-- ==== Sys2Proof/Laws/Ports.lean ====
section
/-! SUPPORT. RB instances and ports: what a read after a write gives, and what each shared operation on a port does, said
once (its frame, and how the request ends or goes on). -/

namespace Sys2Proof.Machine

open Sys2Proof.Safety

/-! ## Instances -/

@[simp] theorem State.setRb_nRb (s : State) (i : Nat) (r : Rb) : (s.setRb i r).nRb = s.nRb := by
  simp [State.nRb]

theorem State.rbAt_setRb_self {s : State} {i : Nat} {r : Rb} (h : i < s.nRb) : (s.setRb i r).rbAt i = r := by
  simp only [State.nRb] at h
  simp [State.rbAt, h]

theorem State.rbAt_setRb_ne {s : State} {i j : Nat} {r : Rb} (h : j ≠ i) : (s.setRb i r).rbAt j = s.rbAt j := by
  simp [State.rbAt, List.getElem?_set_ne (Ne.symm h)]

theorem State.rbAt_of_ge {s : State} {i : Nat} (h : s.nRb ≤ i) : s.rbAt i = Rb.reset := by
  simp only [State.nRb] at h
  simp [State.rbAt, h]

theorem State.rbAt_mem {s : State} {i : Nat} (h : i < s.nRb) : s.rbAt i ∈ s.rb := by
  simp only [State.nRb] at h
  simp [State.rbAt, h]

theorem State.rbAt_congr {s t : State} (h : t.rb = s.rb) (i : Nat) : t.rbAt i = s.rbAt i := by
  simp [State.rbAt, h]

/-- Writing an instance outside the list changes nothing. -/
theorem State.setRb_of_ge {s : State} {i : Nat} {r : Rb} (h : s.nRb ≤ i) : s.setRb i r = s := by
  simp only [State.nRb] at h
  simp [State.setRb, List.set_eq_of_length_le h]

/-! ## Ports -/

@[simp] theorem State.setPort_nRb (s : State) (p : Port) (c : PortRec) : (s.setPort p c).nRb = s.nRb := by
  cases p
  · exact State.setRb_nRb _ _ _
  · rfl

theorem State.port_setPort_self {s : State} {p : Port} {c : PortRec} (h : s.hasPort p = true) :
    (s.setPort p c).port p = c := by
  cases p with
  | prod i =>
    simp only [State.hasPort, decide_eq_true_eq] at h
    simp [State.setPort, State.port, State.rbAt_setRb_self h]
  | main => rfl

theorem State.port_setPort_ne {s : State} {p q : Port} {c : PortRec} (h : q ≠ p) :
    (s.setPort p c).port q = s.port q := by
  cases p with
  | prod i =>
    cases q with
    | prod j =>
      have hji : j ≠ i := fun e => h (by rw [e])
      simp [State.setPort, State.port, State.rbAt_setRb_ne hji]
    | main => rfl
  | main =>
    cases q with
    | prod j => rfl
    | main => exact absurd rfl h

/-- A port's record is no register of a ring. -/
theorem State.sameRegs_setPort (s : State) (p : Port) (c : PortRec) (i : Nat) :
    sameRegs (s.rbAt i) ((s.setPort p c).rbAt i) := by
  cases p with
  | main => exact ⟨rfl, rfl, rfl, rfl, rfl, rfl⟩
  | prod j =>
    by_cases hij : i = j
    · subst hij
      by_cases h : i < s.nRb
      · rw [State.setPort, State.rbAt_setRb_self h]; exact ⟨rfl, rfl, rfl, rfl, rfl, rfl⟩
      · rw [State.setPort, State.setRb_of_ge (by omega)]; exact ⟨rfl, rfl, rfl, rfl, rfl, rfl⟩
    · rw [State.setPort, State.rbAt_setRb_ne hij]; exact ⟨rfl, rfl, rfl, rfl, rfl, rfl⟩

@[simp] theorem State.load_setPort (s : State) (p : Port) (c : PortRec) (a : Word) :
    (s.setPort p c).load a = s.load a := State.load_congr (State.setPort_mem _ _ _) a

@[simp] theorem State.load_setRb (s : State) (i : Nat) (r : Rb) (a : Word) : (s.setRb i r).load a = s.load a := rfl

/-- A port with a request in flight exists. -/
theorem State.hasPort_of_flight {s : State} {p : Port} {f : Flight} (h : (s.port p).flight = some f) :
    s.hasPort p = true := by
  cases p with
  | main => rfl
  | prod i =>
    simp only [State.hasPort, decide_eq_true_eq]
    by_contra hge
    simp only [State.port] at h
    rw [State.rbAt_of_ge (by omega)] at h
    simp [Rb.reset, PortRec.idle] at h

/-- A port at a step has a request in flight at that step. -/
theorem State.flight_of_phase {s : State} {ph : Phase} (h : s.phase = some ph) :
    ∃ f, s.flight = some f ∧ f.phase = ph := by
  unfold State.phase at h
  cases hf : s.flight with
  | none => simp [hf] at h
  | some f => exact ⟨f, rfl, by simpa [hf] using h⟩

theorem State.hasPort_of_phase {s : State} {ph : Phase} (h : s.phase = some ph) : s.hasPort s.env.acting = true := by
  obtain ⟨f, hf, -⟩ := State.flight_of_phase h
  exact State.hasPort_of_flight hf

theorem State.phase_none {s : State} (h : s.flight = none) : s.phase = none := by simp [State.phase, h]

theorem State.temps_of_flight {s : State} {f : Flight} (h : s.flight = some f) : s.temps = f.temps := by
  simp [State.temps, h]

/-! ## Frames -/

theorem sameRegs_refl (r : Rb) : sameRegs r r := ⟨rfl, rfl, rfl, rfl, rfl, rfl⟩

theorem sameRegs_trans {a b c : Rb} (h : sameRegs a b) (k : sameRegs b c) : sameRegs a c :=
  ⟨h.1.trans k.1, h.2.1.trans k.2.1, h.2.2.1.trans k.2.2.1, h.2.2.2.1.trans k.2.2.2.1,
    h.2.2.2.2.1.trans k.2.2.2.2.1, h.2.2.2.2.2.trans k.2.2.2.2.2⟩

/-- The frame of a state whose fields are known: whatever is not listed must be shown unchanged. -/
theorem Frame.setPort {changed : List Part} {s t : State} {c : PortRec} (hcfg : t.cfg = s.cfg) (hn : t.nRb = s.nRb)
    (henv : t.env = s.env) (hports : ∀ p, p ≠ s.env.acting → t.port p = s.port p)
    (hparts : ∀ part, part ∉ changed → samePart s t part) :
    Frame changed s (t.setPort t.env.acting c) := by
  refine ⟨by simpa using hcfg, by simpa using hn, by simpa using henv, ?_, ?_⟩
  · intro p hp
    rw [State.port_setPort_ne (by rwa [henv]), hports p hp]
  · intro part hpart
    have h := hparts part hpart
    cases part with
    | ring i => exact sameRegs_trans h (State.sameRegs_setPort _ _ _ _)
    | mem => intro a; simpa using h a
    | brc => simpa [samePart] using h
    | pins => simpa [samePart] using h
    | dib => simpa [samePart] using h
    | cd => simpa [samePart] using h
    | pinTrace => simpa [samePart] using h
    | busTrace => simpa [samePart] using h
    | txOut => simpa [samePart] using h

theorem samePart_refl (s : State) (part : Part) : samePart s s part := by
  cases part with
  | ring i => exact sameRegs_refl _
  | mem => exact fun _ => rfl
  | brc => rfl
  | pins => rfl
  | dib => rfl
  | cd => rfl
  | pinTrace => rfl
  | busTrace => rfl
  | txOut => rfl

theorem samePart_trans {s t u : State} {part : Part} (h : samePart s t part) (k : samePart t u part) :
    samePart s u part := by
  cases part with
  | ring i => exact sameRegs_trans h k
  | mem => exact fun a => (k a).trans (h a)
  | brc => exact k.trans h
  | pins => exact k.trans h
  | dib => exact k.trans h
  | cd => exact k.trans h
  | pinTrace => exact k.trans h
  | busTrace => exact k.trans h
  | txOut => exact k.trans h

theorem Frame.refl (s : State) (changed : List Part) : Frame changed s s :=
  ⟨rfl, rfl, rfl, fun _ _ => rfl, fun part _ => samePart_refl s part⟩

theorem Frame.trans {c : List Part} {s t u : State} (h : Frame c s t) (k : Frame c t u) : Frame c s u :=
  ⟨k.1.trans h.1, k.2.1.trans h.2.1, k.2.2.1.trans h.2.2.1,
    fun p hp => (k.2.2.2.1 p (by rwa [h.2.2.1])).trans (h.2.2.2.1 p hp),
    fun part hpart => samePart_trans (h.2.2.2.2 part hpart) (k.2.2.2.2 part hpart)⟩

theorem Frame.weaken {c c' : List Part} {s t : State} (h : Frame c s t) (hc : ∀ p, p ∈ c → p ∈ c') : Frame c' s t :=
  ⟨h.1, h.2.1, h.2.2.1, h.2.2.2.1, fun part hpart => h.2.2.2.2 part fun hm => hpart (hc _ hm)⟩

theorem Frame.of_agent {c : List Part} {s t : State} (h : AgentFrame c s t) : Frame c s t :=
  ⟨h.1, h.2.1, h.2.2.1, fun p _ => h.2.2.2.1 p, h.2.2.2.2⟩

theorem AgentFrame.refl (s : State) (changed : List Part) : AgentFrame changed s s :=
  ⟨rfl, rfl, rfl, fun _ => rfl, fun part _ => samePart_refl s part⟩

theorem AgentFrame.trans {c : List Part} {s t u : State} (h : AgentFrame c s t) (k : AgentFrame c t u) :
    AgentFrame c s u :=
  ⟨k.1.trans h.1, k.2.1.trans h.2.1, k.2.2.1.trans h.2.2.1, fun p => (k.2.2.2.1 p).trans (h.2.2.2.1 p),
    fun part hpart => samePart_trans (h.2.2.2.2 part hpart) (k.2.2.2.2 part hpart)⟩

/-! ## The frames of the updates -/

/-- A write of an instance's registers that leaves its port's record changes that ring and nothing else. -/
theorem AgentFrame.setRb {s : State} {i : Nat} {r : Rb} (hport : r.port = (s.rbAt i).port) :
    AgentFrame [.ring i] s (s.setRb i r) := by
  refine ⟨rfl, State.setRb_nRb _ _ _, rfl, ?_, ?_⟩
  · intro p
    cases p with
    | main => rfl
    | prod j =>
      by_cases hji : j = i
      · subst hji
        by_cases h : j < s.nRb
        · simp only [State.port, State.rbAt_setRb_self h, hport]
        · rw [State.setRb_of_ge (by omega)]
      · simp only [State.port, State.rbAt_setRb_ne hji]
  · intro part hpart
    cases part with
    | ring j =>
      have hji : j ≠ i := fun e => hpart (by simp [e])
      simp only [samePart, State.rbAt_setRb_ne hji]
      exact sameRegs_refl _
    | mem => exact fun _ => rfl
    | brc => rfl
    | pins => rfl
    | dib => rfl
    | cd => rfl
    | pinTrace => rfl
    | busTrace => rfl
    | txOut => rfl

/-- A store changes memory and nothing else. -/
theorem AgentFrame.store (s : State) (a : Word) (v : Byte) : AgentFrame [.mem] s (s.store a v) := by
  refine ⟨rfl, rfl, rfl, fun p => by cases p <;> rfl, ?_⟩
  intro part hpart
  cases part with
  | mem => exact absurd (List.mem_singleton.mpr rfl) hpart
  | ring i => exact sameRegs_refl _
  | brc => rfl
  | pins => rfl
  | dib => rfl
  | cd => rfl
  | pinTrace => rfl
  | busTrace => rfl
  | txOut => rfl

/-! ## The operations that end a request or let it go on -/

theorem State.respond_frame (s : State) (st : Status) (v : Word) : Frame [] s (s.respond st v) :=
  Frame.setPort rfl rfl rfl (fun _ _ => rfl) (fun part _ => samePart_refl s part)

theorem State.respond_answered {s : State} {st : Status} {v : Word} (h : s.hasPort s.env.acting = true) :
    Answered s (s.respond st v) st v := State.port_setPort_self h

/-- Everything `respond` can do: the acting port, which exists, is answered, and nothing else changes. -/
theorem State.respond_spec {s : State} {st : Status} {v : Word} (h : s.hasPort s.env.acting = true) :
    Answered s (s.respond st v) st v ∧ Frame [] s (s.respond st v) :=
  ⟨State.respond_answered h, State.respond_frame s st v⟩

theorem State.advance_frame (s : State) (ph : Phase) (t : Temps) : Frame [] s (s.advance ph t) := by
  unfold State.advance
  split
  · exact Frame.setPort rfl rfl rfl (fun _ _ => rfl) (fun part _ => samePart_refl s part)
  · exact Frame.refl s []

theorem State.advance_goesOn {s : State} {ph ph' : Phase} {t : Temps} (h : s.phase = some ph') :
    GoesOn s (s.advance ph t) ph t := by
  obtain ⟨f, hf, -⟩ := State.flight_of_phase h
  refine ⟨f, hf, ?_⟩
  rw [State.advance, hf]
  exact State.port_setPort_self (State.hasPort_of_phase h)

/-- Everything `advance` can do at a step: the request goes on, and nothing else changes. -/
theorem State.advance_spec {s : State} {ph ph' : Phase} {t : Temps} (h : s.phase = some ph') :
    GoesOn s (s.advance ph t) ph t ∧ Frame [] s (s.advance ph t) :=
  ⟨State.advance_goesOn h, State.advance_frame s ph t⟩

theorem State.begin_frame (s : State) (i : Instr) (ph : Phase) : Frame [] s (s.begin i ph) :=
  Frame.setPort rfl rfl rfl (fun _ _ => rfl) (fun part _ => samePart_refl s part)

/-- Everything `accept` can do (step D0): a fault of the program, a `BadRequest`, or the request in flight. -/
theorem accept_cases {i : Instr} {ph : Phase} {s t : State} (h : accept i ph s = .next t) :
    (admits s.env.acting i = true ∧ i.wellFormed s.nRb = true ∧ s.initHazard i ph = false ∧ t = s.begin i ph) ∨
    ((admits s.env.acting i && i.wellFormed s.nRb) = false ∧ t = s.fail .badRequest) := by
  unfold accept at h
  split at h
  · rename_i hok
    rw [Bool.and_eq_true] at hok
    split at h
    · cases h
    · rename_i hz
      injection h with h
      exact .inl ⟨hok.1, hok.2, by simpa using hz, h.symm⟩
  · rename_i hok
    injection h with h
    exact .inr ⟨by simpa using hok, h.symm⟩

end Sys2Proof.Machine
end

