-- ==== Sys2Proof/Laws/Steps.lean ====
section
/-! SUPPORT. What each atomic step of a request may change (its frame) and how it leaves the acting port, said once per
step and then once for `exec`, so that a proof over all requests looks only at the steps that change what it is
about. -/

namespace Sys2Proof.Machine

open Sys2Proof.Safety

theorem Answered.of_frame {c : List Part} {s u : State} {st : Status} {v : Word} (h : AgentFrame c s u)
    (hp : s.hasPort s.env.acting = true) : Answered s (u.respond st v) st v := by
  have henv : u.env = s.env := h.2.2.1
  have hport : u.hasPort u.env.acting = true := by
    rw [henv]
    cases hp' : s.env.acting with
    | main => rfl
    | prod i =>
      rw [hp'] at hp
      simpa [State.hasPort, h.2.1] using hp
  have := State.respond_answered (st := st) (v := v) hport
  unfold Answered at this ⊢
  rwa [henv] at this

theorem AgentFrame.phase {c : List Part} {s u : State} (h : AgentFrame c s u) : u.phase = s.phase := by
  simp only [State.phase, State.flight, h.2.2.1, h.2.2.2.1]

theorem AgentFrame.flight {c : List Part} {s u : State} (h : AgentFrame c s u) : u.flight = s.flight := by
  simp only [State.flight, h.2.2.1, h.2.2.2.1]

theorem AgentFrame.temps {c : List Part} {s u : State} (h : AgentFrame c s u) : u.temps = s.temps := by
  simp only [State.temps, AgentFrame.flight h]

/-- A step that changes some parts and then answers. -/
theorem respond_after {c : List Part} {s u : State} (st : Status) (v : Word) (h : AgentFrame c s u)
    (hp : s.hasPort s.env.acting = true) : Answered s (u.respond st v) st v ∧ Frame c s (u.respond st v) :=
  ⟨Answered.of_frame h hp,
    Frame.trans (Frame.of_agent h) (Frame.weaken (State.respond_frame u st v) (by simp))⟩

/-- A step that changes some parts and then goes on. -/
theorem advance_after {c : List Part} {s u : State} {ph' : Phase} (ph : Phase) (tmp : Temps) (h : AgentFrame c s u)
    (hph : s.phase = some ph') : GoesOn s (u.advance ph tmp) ph tmp ∧ Frame c s (u.advance ph tmp) := by
  refine ⟨?_, Frame.trans (Frame.of_agent h) (Frame.weaken (State.advance_frame u ph tmp) (by simp))⟩
  obtain ⟨f, hf, hport⟩ := State.advance_goesOn (ph := ph) (t := tmp) ((AgentFrame.phase h).trans hph)
  exact ⟨f, AgentFrame.flight h ▸ hf, by rwa [h.2.2.1] at hport⟩

/-! ## Parts of the state that are single fields -/

theorem AgentFrame.setDib (s : State) (d : Dib) : AgentFrame [.dib] s { s with dib := d } := by
  refine ⟨rfl, rfl, rfl, fun p => by cases p <;> rfl, ?_⟩
  intro part hpart
  cases part with
  | dib => exact absurd (List.mem_singleton.mpr rfl) hpart
  | ring i => exact sameRegs_refl _
  | mem => exact fun _ => rfl
  | brc => rfl
  | pins => rfl
  | cd => rfl
  | pinTrace => rfl
  | busTrace => rfl
  | txOut => rfl

theorem AgentFrame.setCd (s : State) (d : Cd) : AgentFrame [.cd] s { s with cd := d } := by
  refine ⟨rfl, rfl, rfl, fun p => by cases p <;> rfl, ?_⟩
  intro part hpart
  cases part with
  | cd => exact absurd (List.mem_singleton.mpr rfl) hpart
  | ring i => exact sameRegs_refl _
  | mem => exact fun _ => rfl
  | brc => rfl
  | pins => rfl
  | dib => rfl
  | pinTrace => rfl
  | busTrace => rfl
  | txOut => rfl

theorem AgentFrame.setBrc (s : State) (b : Brc) : AgentFrame [.brc] s { s with brc := b } := by
  refine ⟨rfl, rfl, rfl, fun p => by cases p <;> rfl, ?_⟩
  intro part hpart
  cases part with
  | brc => exact absurd (List.mem_singleton.mpr rfl) hpart
  | ring i => exact sameRegs_refl _
  | mem => exact fun _ => rfl
  | cd => rfl
  | pins => rfl
  | dib => rfl
  | pinTrace => rfl
  | busTrace => rfl
  | txOut => rfl

theorem AgentFrame.emitBus (s : State) (e : BusEvent) : AgentFrame [.busTrace] s (s.emitBus e) := by
  refine ⟨rfl, rfl, rfl, fun p => by cases p <;> rfl, ?_⟩
  intro part hpart
  cases part with
  | busTrace => exact absurd (List.mem_singleton.mpr rfl) hpart
  | ring i => exact sameRegs_refl _
  | mem => exact fun _ => rfl
  | brc => rfl
  | cd => rfl
  | pins => rfl
  | dib => rfl
  | pinTrace => rfl
  | txOut => rfl

theorem AgentFrame.weaken {c c' : List Part} {s t : State} (h : AgentFrame c s t) (hc : ∀ p, p ∈ c → p ∈ c') :
    AgentFrame c' s t :=
  ⟨h.1, h.2.1, h.2.2.1, h.2.2.2.1, fun part hpart => h.2.2.2.2 part fun hm => hpart (hc _ hm)⟩

/-- A change of the pins, the recovery registers and the pin trace. -/
theorem AgentFrame.setRecovery (s : State) (p : Pins) (b : Brc) (es : List PinEvent) :
    AgentFrame [.pins, .brc, .pinTrace] s (({ s with pins := p, brc := b }).emitPins es) := by
  refine ⟨rfl, rfl, rfl, fun p => by cases p <;> rfl, ?_⟩
  intro part hpart
  cases part with
  | pins => exact absurd (by simp) hpart
  | brc => exact absurd (by simp) hpart
  | pinTrace => exact absurd (by simp) hpart
  | ring i => exact sameRegs_refl _
  | mem => exact fun _ => rfl
  | cd => rfl
  | dib => rfl
  | busTrace => rfl
  | txOut => rfl

theorem recoverV1_frame (s : State) : AgentFrame [.pins, .brc, .pinTrace] s (recoverV1 s) :=
  AgentFrame.setRecovery s _ _ _

theorem recoverV2_frame (s : State) : AgentFrame [.pins, .brc, .pinTrace] s (recoverV2 s) :=
  AgentFrame.setRecovery s _ _ _

theorem recoverV3_frame (s : State) : AgentFrame [.pins, .brc, .pinTrace] s (recoverV3 s) :=
  AgentFrame.setRecovery s _ _ _

theorem recoverV4_frame (s : State) : AgentFrame [.pins, .brc, .pinTrace, .busTrace] s (recoverV4 s) :=
  AgentFrame.trans (AgentFrame.weaken (AgentFrame.setRecovery s _ _ _) (by simp))
    (AgentFrame.weaken (AgentFrame.emitBus _ _) (by simp))

/-! ## The inversion of `exec` -/

/-- One step of a request, named: what `exec` answers when it answers a next state. -/
inductive ExecStep : Instr → State → State → Prop where
  /-- step D0 accepts -/
  | accepted (i : Instr) (s : State) : s.phase = none → admits s.env.acting i = true → i.wellFormed s.nRb = true →
      s.initHazard i (firstStep i) = false → ExecStep i s (s.begin i (firstStep i))
  /-- step D0 answers `BadRequest` -/
  | turnedAway (i : Instr) (s : State) : s.phase = none → (admits s.env.acting i && i.wellFormed s.nRb) = false →
      ExecStep i s (s.fail .badRequest)
  /-- the phase is no step of the request -/
  | noStep (i : Instr) (s : State) (ph : Phase) : s.phase = some ph → ph ∉ stepsOf i → ExecStep i s s
  | g1 (csr : BitVec 12) (s : State) : s.phase = some .g1 → ExecStep (.sysCsrr csr) s (sysCsrrG1 csr s)
  | h1 (csr : BitVec 12) (value : Word) (s : State) : s.phase = some .h1 →
      ExecStep (.sysCsrw csr value) s (sysCsrwH1 csr value s)
  | i1 (sel : BitVec 8) (base size : Word) (s t : State) : s.phase = some .i1 →
      rbInitI1 sel base size s = .next t → ExecStep (.rbInit sel base size) s t
  | p1 (sel : BitVec 8) (byte : Byte) (s : State) : s.phase = some .p1 →
      ExecStep (.rbPush sel byte) s (rbPushP1 sel s)
  | p2 (sel : BitVec 8) (byte : Byte) (s : State) : s.phase = some .p2 →
      ExecStep (.rbPush sel byte) s (rbPushP2 sel byte s)
  | p3 (sel : BitVec 8) (byte : Byte) (s : State) : s.phase = some .p3 →
      ExecStep (.rbPush sel byte) s (rbPushP3 sel s)
  | c1 (sel : BitVec 8) (s : State) : s.phase = some .c1 → ExecStep (.rbPop sel) s (rbPopC1 sel s)
  | c2 (sel : BitVec 8) (s : State) : s.phase = some .c2 → ExecStep (.rbPop sel) s (rbPopC2 sel s)
  | c3 (sel : BitVec 8) (s : State) : s.phase = some .c3 → ExecStep (.rbPop sel) s (rbPopC3 sel s)
  | e1 (sel : BitVec 8) (s : State) : s.phase = some .e1 → ExecStep (.rbIsEmpty sel) s (rbIsEmptyE1 sel s)
  | f1 (sel : BitVec 8) (s : State) : s.phase = some .f1 → ExecStep (.rbIsFull sel) s (rbIsFullF1 sel s)
  | w1 (addr : Byte) (data length : Word) (s t : State) : s.phase = some .w1 →
      brcSafeWriteW1 addr data length s = .next t → ExecStep (.brcSafeWrite addr data length) s t
  | w2 (addr : Byte) (data length : Word) (s : State) : s.phase = some .w2 →
      ExecStep (.brcSafeWrite addr data length) s (brcSafeWriteW2 length s)
  | w3 (addr : Byte) (data length : Word) (s : State) : s.phase = some .w3 →
      ExecStep (.brcSafeWrite addr data length) s (s.fail .busTimeout)
  | v1 (i : Instr) (done : Phase) (s : State) : recoveryOf i = some done → s.phase = some .v1 →
      ExecStep i s ((recoverV1 s).gotoRun done)
  | v2 (i : Instr) (done : Phase) (s : State) : recoveryOf i = some done → s.phase = some .v2 →
      ExecStep i s ((recoverV2 s).gotoRun done)
  | v3 (i : Instr) (done : Phase) (s : State) : recoveryOf i = some done → s.phase = some .v3 →
      ExecStep i s ((recoverV3 s).gotoRun done)
  | v4 (i : Instr) (done : Phase) (s : State) : recoveryOf i = some done → s.phase = some .v4 →
      ExecStep i s ((recoverV4 s).gotoRun done)
  | x1 (s : State) : s.phase = some .x1 → ExecStep .brcRecover s (s.respond .ok 0)
  | n1 (s t : State) : s.phase = some .n1 → dibInitN1 s = .next t → ExecStep .dibInit s t
  | s1 (data length : Word) (s t : State) : s.phase = some .s1 → dibSendS1 data length s = .next t →
      ExecStep (.dibSend data length) s t
  | d1 (output maxLen : Word) (s t : State) : s.phase = some .d1 → dibReadD1 output maxLen s = .next t →
      ExecStep (.dibRead output maxLen) s t
  | d2 (output maxLen : Word) (s : State) : s.phase = some .d2 →
      ExecStep (.dibRead output maxLen) s (dibReadD2 output maxLen s)
  | d3 (output maxLen : Word) (s : State) : s.phase = some .d3 →
      ExecStep (.dibRead output maxLen) s (s.respond .ok s.temps.cnt)
  | k1 (byte : Byte) (s : State) : s.phase = some .k1 → ExecStep (.cdFeed byte) s (cdFeedK1 byte s)

theorem ExecStep.of_accept {i : Instr} {s t : State} (hph : s.phase = none)
    (h : accept i (firstStep i) s = .next t) : ExecStep i s t := by
  rcases accept_cases h with ⟨h1, h2, h3, rfl⟩ | ⟨h1, rfl⟩
  · exact .accepted i s hph h1 h2 h3
  · exact .turnedAway i s hph h1

/-- Everything `exec` can do when it answers a next state. -/
theorem exec_step {i : Instr} {s t : State} (h : exec i s = .next t) : ExecStep i s t := by
  have hnone : s.phase = none → accept i (firstStep i) s = .next t → ExecStep i s t := ExecStep.of_accept
  cases hph : s.phase with
  | none =>
    refine hnone hph ?_
    cases i <;> simpa [exec, execSysCsrr, execSysCsrw, execRbInit, execRbPush, execRbPop, execRbIsEmpty, execRbIsFull,
      execBrcSafeWrite, execBrcRecover, execDibInit, execDibSend, execDibRead, execCdFeed, hph, firstStep] using h
  | some ph =>
    have hno : ph ∉ stepsOf i → t = s → ExecStep i s t := fun h1 h2 => h2 ▸ .noStep i s ph hph h1
    cases i with
    | sysCsrr csr =>
      cases ph <;> simp only [exec, execSysCsrr, hph, Host.Outcome.next.injEq] at h
      case g1 => exact h ▸ .g1 csr s hph
      all_goals exact hno (by simp [stepsOf]) h.symm
    | sysCsrw csr value =>
      cases ph <;> simp only [exec, execSysCsrw, hph, Host.Outcome.next.injEq] at h
      case h1 => exact h ▸ .h1 csr value s hph
      all_goals exact hno (by simp [stepsOf]) h.symm
    | rbInit sel base size =>
      cases ph <;> simp only [exec, execRbInit, hph, Host.Outcome.next.injEq] at h
      case i1 => exact .i1 sel base size s t hph h
      all_goals exact hno (by simp [stepsOf]) h.symm
    | rbPush sel byte =>
      cases ph <;> simp only [exec, execRbPush, hph, Host.Outcome.next.injEq] at h
      case p1 => exact h ▸ .p1 sel byte s hph
      case p2 => exact h ▸ .p2 sel byte s hph
      case p3 => exact h ▸ .p3 sel byte s hph
      all_goals exact hno (by simp [stepsOf]) h.symm
    | rbPop sel =>
      cases ph <;> simp only [exec, execRbPop, hph, Host.Outcome.next.injEq] at h
      case c1 => exact h ▸ .c1 sel s hph
      case c2 => exact h ▸ .c2 sel s hph
      case c3 => exact h ▸ .c3 sel s hph
      all_goals exact hno (by simp [stepsOf]) h.symm
    | rbIsEmpty sel =>
      cases ph <;> simp only [exec, execRbIsEmpty, hph, Host.Outcome.next.injEq] at h
      case e1 => exact h ▸ .e1 sel s hph
      all_goals exact hno (by simp [stepsOf]) h.symm
    | rbIsFull sel =>
      cases ph <;> simp only [exec, execRbIsFull, hph, Host.Outcome.next.injEq] at h
      case f1 => exact h ▸ .f1 sel s hph
      all_goals exact hno (by simp [stepsOf]) h.symm
    | brcSafeWrite addr data length =>
      cases ph <;> simp only [exec, execBrcSafeWrite, hph, Host.Outcome.next.injEq] at h
      case w1 => exact .w1 addr data length s t hph h
      case w2 => exact h ▸ .w2 addr data length s hph
      case w3 => exact h ▸ .w3 addr data length s hph
      case v1 => exact h ▸ .v1 _ .w3 s rfl hph
      case v2 => exact h ▸ .v2 _ .w3 s rfl hph
      case v3 => exact h ▸ .v3 _ .w3 s rfl hph
      case v4 => exact h ▸ .v4 _ .w3 s rfl hph
      all_goals exact hno (by simp [stepsOf]) h.symm
    | brcRecover =>
      cases ph <;> simp only [exec, execBrcRecover, hph, Host.Outcome.next.injEq] at h
      case x1 => exact h ▸ .x1 s hph
      case v1 => exact h ▸ .v1 _ .x1 s rfl hph
      case v2 => exact h ▸ .v2 _ .x1 s rfl hph
      case v3 => exact h ▸ .v3 _ .x1 s rfl hph
      case v4 => exact h ▸ .v4 _ .x1 s rfl hph
      all_goals exact hno (by simp [stepsOf]) h.symm
    | dibInit =>
      cases ph <;> simp only [exec, execDibInit, hph, Host.Outcome.next.injEq] at h
      case n1 => exact .n1 s t hph h
      all_goals exact hno (by simp [stepsOf]) h.symm
    | dibSend data length =>
      cases ph <;> simp only [exec, execDibSend, hph, Host.Outcome.next.injEq] at h
      case s1 => exact .s1 data length s t hph h
      all_goals exact hno (by simp [stepsOf]) h.symm
    | dibRead output maxLen =>
      cases ph <;> simp only [exec, execDibRead, hph, Host.Outcome.next.injEq] at h
      case d1 => exact .d1 output maxLen s t hph h
      case d2 => exact h ▸ .d2 output maxLen s hph
      case d3 => exact h ▸ .d3 output maxLen s hph
      all_goals exact hno (by simp [stepsOf]) h.symm
    | cdFeed byte =>
      cases ph <;> simp only [exec, execCdFeed, hph, Host.Outcome.next.injEq] at h
      case k1 => exact h ▸ .k1 byte s hph
      all_goals exact hno (by simp [stepsOf]) h.symm

end Sys2Proof.Machine
end

