-- ==== Sys2Proof/Laws/Moves.lean ====
section
/-! SUPPORT. What a move does when the machine goes on, said once: a port's move is a step of `exec`, a presented request
is accepted, answered or left, and every other agent's move is its own step. -/

namespace Sys2Proof.Machine

open Sys2Proof.Safety

@[simp] theorem State.actingAs_env_acting (s : State) (p : Port) : (s.actingAs p).env.acting = p := rfl
@[simp] theorem State.actingAs_port (s : State) (p q : Port) : (s.actingAs p).port q = s.port q := by cases q <;> rfl
@[simp] theorem State.actingAs_nRb (s : State) (p : Port) : (s.actingAs p).nRb = s.nRb := rfl
@[simp] theorem State.actingAs_rbAt (s : State) (p : Port) (i : Nat) : (s.actingAs p).rbAt i = s.rbAt i := rfl
@[simp] theorem State.actingAs_load (s : State) (p : Port) (a : Word) : (s.actingAs p).load a = s.load a := rfl
@[simp] theorem State.drawing_env_acting (s : State) (p : Port) (d : Draw) : (s.drawing p d).env.acting = p := rfl
@[simp] theorem State.drawing_port (s : State) (p q : Port) (d : Draw) : (s.drawing p d).port q = s.port q := by
  cases q <;> rfl
@[simp] theorem State.drawing_nRb (s : State) (p : Port) (d : Draw) : (s.drawing p d).nRb = s.nRb := rfl
@[simp] theorem State.drawing_rbAt (s : State) (p : Port) (d : Draw) (i : Nat) : (s.drawing p d).rbAt i = s.rbAt i := rfl
@[simp] theorem State.drawing_load (s : State) (p : Port) (d : Draw) (a : Word) : (s.drawing p d).load a = s.load a := rfl

/-- Taking the move from the script changes no part, no port and no parameter. -/
theorem State.popMove_keeps (s : State) :
    s.popMove.cfg = s.cfg ∧ s.popMove.rb = s.rb ∧ s.popMove.main = s.main ∧ s.popMove.brc = s.brc ∧
      s.popMove.pins = s.pins ∧ s.popMove.dib = s.dib ∧ s.popMove.cd = s.cd ∧ s.popMove.mem = s.mem ∧
      s.popMove.pinTrace = s.pinTrace ∧ s.popMove.busTrace = s.busTrace ∧ s.popMove.txOut = s.txOut := by
  unfold State.popMove
  split <;> exact ⟨rfl, rfl, rfl, rfl, rfl, rfl, rfl, rfl, rfl, rfl, rfl⟩

/-- The bytes that must stay still are those of a `BRC.SAFE_WRITE` in flight. -/
theorem State.payloadRegion_contains {s : State} {a : Nat} :
    s.payloadRegion.contains a = true ↔ ∃ f addr data length, s.main.flight = some f ∧
      f.instr = .brcSafeWrite addr data length ∧ (operandRegion data length).contains a = true := by
  have hno : noRegion.contains a = false := by simp [noRegion, Region.contains]
  unfold State.payloadRegion
  cases hf : s.main.flight with
  | none => simp [hno]
  | some f => cases hi : f.instr <;> simp [payloadOf, hno, hi]

/-- What a move is when the machine answers a next state. -/
inductive MoveStep : Move → State → State → Prop where
  /-- the request is not accepted: the port is busy or does not exist -/
  | ignored (p : Port) (r : Request) (s : State) : (s.hasPort p && !s.busy p) = false → MoveStep (.request p r) s s
  /-- the word matches no row -/
  | undecoded (p : Port) (r : Request) (e : DecodeError) (s : State) : s.hasPort p = true → s.busy p = false →
      decodeWords r = .bad e → MoveStep (.request p r) s ((s.actingAs p).fail .badRequest)
  /-- step D0 of a decoded request -/
  | presented (p : Port) (r : Request) (i : Instr) (s t : State) : s.hasPort p = true → s.busy p = false →
      decodeWords r = .instr i → accept i (firstStep i) (s.actingAs p) = .next t → MoveStep (.request p r) s t
  | idle (p : Port) (d : Draw) (s : State) : (s.port p).flight = none → MoveStep (.port p d) s s
  /-- a step of the request in flight -/
  | served (p : Port) (d : Draw) (f : Flight) (s t : State) : (s.port p).flight = some f →
      ExecStep f.instr (s.drawing p d) t → MoveStep (.port p d) s t
  | hwWrite (b : Byte) (s : State) : MoveStep (.hwWrite b) s (hwWriteStep b s)
  | txByte (s : State) : MoveStep .txByte s (txByteStep s)
  | txDone (s : State) : MoveStep .txDone s (txDoneStep s)
  | syncH (i : Nat) (s : State) : MoveStep (.syncH i) s (syncHStep i s)
  | syncT (i : Nat) (s : State) : MoveStep (.syncT i) s (syncTStep i s)
  | syncD (s : State) : MoveStep .syncD s (syncDStep s)
  | envWrite (a : Word) (v : Byte) (s : State) : s.envForbidden a = false → MoveStep (.envWrite a v) s (s.store a v)
  | envRead (a : Word) (s : State) : MoveStep (.envRead a) s s
  | reset (x y : Bool) (acc : List Byte) (s : State) : MoveStep (.reset x y acc) s (resetStep x y acc s)

/-- On an idle port every `exec` is step D0. -/
theorem exec_idle {i : Instr} {s : State} (h : s.phase = none) : exec i s = accept i (firstStep i) s := by
  cases i <;> simp [exec, execSysCsrr, execSysCsrw, execRbInit, execRbPush, execRbPop, execRbIsEmpty, execRbIsFull,
    execBrcSafeWrite, execBrcRecover, execDibInit, execDibSend, execDibRead, execCdFeed, h, firstStep]

/-- Everything a move can do when the machine answers a next state. -/
theorem apply_cases {m : Move} {s t : State} (h : apply m s = .next t) : MoveStep m s t := by
  cases m with
  | request p r =>
    simp only [apply, route, routeRequest] at h
    by_cases hp : (s.hasPort p && !s.busy p) = true
    · rw [if_pos hp] at h
      have hp' : s.hasPort p = true ∧ s.busy p = false := by simpa using hp
      cases hd : decodeWords r with
      | instr i =>
        simp only [hd] at h
        have hph : (s.actingAs p).phase = none := by
          have hb := hp'.2
          simp only [State.busy] at hb
          cases hf : (s.port p).flight with
          | none => simp [State.phase, State.flight, hf]
          | some f => simp [hf] at hb
        rw [exec_idle hph] at h
        exact .presented p r i s t hp'.1 hp'.2 hd h
      | bad e =>
        simp only [hd, Host.Outcome.next.injEq] at h
        exact h ▸ .undecoded p r e s hp'.1 hp'.2 hd
    · rw [if_neg hp] at h
      simp only [Host.Outcome.next.injEq] at h
      exact h ▸ .ignored p r s (by simpa using hp)
  | port p d =>
    simp only [apply, route, routePort] at h
    cases hf : (s.port p).flight with
    | none =>
      simp only [hf, Host.Outcome.next.injEq] at h
      exact h ▸ .idle p d s hf
    | some f =>
      simp only [hf] at h
      exact .served p d f s t hf (exec_step h)
  | hwWrite b => simp only [apply, route, Host.Outcome.next.injEq] at h; exact h ▸ .hwWrite b s
  | txByte => simp only [apply, route, Host.Outcome.next.injEq] at h; exact h ▸ .txByte s
  | txDone => simp only [apply, route, Host.Outcome.next.injEq] at h; exact h ▸ .txDone s
  | syncH i => simp only [apply, route, Host.Outcome.next.injEq] at h; exact h ▸ .syncH i s
  | syncT i => simp only [apply, route, Host.Outcome.next.injEq] at h; exact h ▸ .syncT i s
  | syncD => simp only [apply, route, Host.Outcome.next.injEq] at h; exact h ▸ .syncD s
  | envWrite a v =>
    simp only [apply, route, envWriteStep] at h
    by_cases hl : s.envForbidden a = true
    · simp [hl] at h
    · simp only [hl, Bool.false_eq_true, if_false, Host.Outcome.next.injEq] at h
      exact h ▸ .envWrite a v s (by simpa using hl)
  | envRead a => simp only [apply, route, Host.Outcome.next.injEq] at h; exact h ▸ .envRead a s
  | reset x y acc => simp only [apply, route, Host.Outcome.next.injEq] at h; exact h ▸ .reset x y acc s

/-! ## What the steps of the other agents change -/

theorem AgentFrame.setTxOut (s : State) (d : Dib) (out : List Byte) :
    AgentFrame [.dib, .txOut] s { s with txOut := out, dib := d } := by
  refine ⟨rfl, rfl, rfl, fun p => by cases p <;> rfl, ?_⟩
  intro part hpart
  cases part with
  | dib => exact absurd (by simp) hpart
  | txOut => exact absurd (by simp) hpart
  | ring i => exact sameRegs_refl _
  | mem => exact fun _ => rfl
  | brc => rfl
  | pins => rfl
  | cd => rfl
  | pinTrace => rfl
  | busTrace => rfl

theorem hwWriteStep_frame (b : Byte) (s : State) : AgentFrame [.mem, .dib] s (hwWriteStep b s) := by
  unfold hwWriteStep
  split
  · exact AgentFrame.trans (AgentFrame.weaken (AgentFrame.store s _ _) (by simp))
      (AgentFrame.weaken (AgentFrame.setDib _ _) (by simp))
  · exact AgentFrame.refl _ _

theorem txByteStep_frame (s : State) : AgentFrame [.dib, .txOut] s (txByteStep s) := by
  unfold txByteStep
  split
  · exact AgentFrame.setTxOut _ _ _
  · exact AgentFrame.refl _ _

theorem txDoneStep_frame (s : State) : AgentFrame [.dib] s (txDoneStep s) := by
  unfold txDoneStep
  split
  · exact AgentFrame.setDib _ _
  · exact AgentFrame.refl _ _

theorem syncHStep_frame (i : Nat) (s : State) : AgentFrame [.ring i] s (syncHStep i s) := by
  unfold syncHStep
  split
  · exact AgentFrame.refl _ _
  · exact AgentFrame.setRb rfl

theorem syncTStep_frame (i : Nat) (s : State) : AgentFrame [.ring i] s (syncTStep i s) := by
  unfold syncTStep
  split
  · exact AgentFrame.refl _ _
  · exact AgentFrame.setRb rfl

theorem syncDStep_frame (s : State) : AgentFrame [.dib] s (syncDStep s) := by
  unfold syncDStep
  split
  · exact AgentFrame.refl _ _
  · exact AgentFrame.setDib _ _

end Sys2Proof.Machine
end

