-- ==== Sys2Proof/Laws/PerInstr.lean ====
section
/-! SUPPORT. A statement per constructor: the encoded header of every instruction has the pattern of its own row
(30_encoding.md R95). -/

namespace Sys2Proof.Laws

/-- A header's field `opc` is in bits 31..24, `sel` in 23..16, `imm16` in 15..0 (R91): masking the free bits of a row
away leaves the fixed ones. -/
theorem header_toNat (opc sel : BitVec 8) (imm : BitVec 16) :
    (header opc sel imm).toNat = opc.toNat * 2 ^ 24 + sel.toNat * 2 ^ 16 + imm.toNat := by
  have hs := sel.isLt
  have hi := imm.isLt
  simp only [header, BitVec.toNat_append]
  rw [← Nat.shiftLeft_add_eq_or_of_lt hs, ← Nat.shiftLeft_add_eq_or_of_lt hi, Nat.shiftLeft_eq, Nat.shiftLeft_eq]
  omega

theorem opcOf_header (opc sel : BitVec 8) (imm : BitVec 16) : opcOf (header opc sel imm) = opc := by
  have h := header_toNat opc sel imm
  have hs := sel.isLt
  have hi := imm.isLt
  have ho := opc.isLt
  apply BitVec.eq_of_toNat_eq
  simp only [opcOf, BitVec.extractLsb'_toNat, h, Nat.shiftRight_eq_div_pow]
  omega

theorem selOf_header (opc sel : BitVec 8) (imm : BitVec 16) : selOf (header opc sel imm) = sel := by
  have h := header_toNat opc sel imm
  have hs := sel.isLt
  have hi := imm.isLt
  have ho := opc.isLt
  apply BitVec.eq_of_toNat_eq
  simp only [selOf, BitVec.extractLsb'_toNat, h, Nat.shiftRight_eq_div_pow]
  omega

theorem immOf_header (opc sel : BitVec 8) (imm : BitVec 16) : immOf (header opc sel imm) = imm := by
  have h := header_toNat opc sel imm
  have hs := sel.isLt
  have hi := imm.isLt
  have ho := opc.isLt
  apply BitVec.eq_of_toNat_eq
  simp only [immOf, BitVec.extractLsb'_toNat, h, Nat.shiftRight_eq_div_pow]
  omega

/-- A bit of a header, by its field (R91). -/
theorem getLsbD_header (opc sel : BitVec 8) (imm : BitVec 16) (j : Nat) :
    (header opc sel imm).getLsbD j =
      if j < 16 then imm.getLsbD j else if j < 24 then sel.getLsbD (j - 16) else opc.getLsbD (j - 24) := by
  simp only [header, BitVec.getLsbD_append]
  by_cases h1 : j < 16
  · simp [h1]
  · by_cases h2 : j < 24
    · simp [h1, h2, show j - 16 < 8 by omega]
    · simp [h1, h2, show ¬ j - 16 < 8 by omega, show j - 16 - 8 = j - 24 by omega]

theorem bit_maskSel : ∀ j, j < 32 → (0xFF00FFFF#32 : Word).getLsbD j = decide (j < 16 ∨ 24 ≤ j) := by decide

theorem bit_maskCsr : ∀ j, j < 32 → (0xFFFFF000#32 : Word).getLsbD j = decide (12 ≤ j) := by decide

theorem bit_maskAddr : ∀ j, j < 32 → (0xFFFFFF00#32 : Word).getLsbD j = decide (8 ≤ j) := by decide

/-- Masking the `sel` field away leaves `opc` and `imm16`. -/
theorem header_mask_sel (opc sel : BitVec 8) (imm : BitVec 16) :
    header opc sel imm &&& 0xFF00FFFF#32 = header opc 0 imm := by
  apply BitVec.eq_of_getLsbD_eq
  intro j hj
  rw [BitVec.getLsbD_and, getLsbD_header, getLsbD_header, bit_maskSel j hj]
  by_cases h1 : j < 16
  · simp [h1]
  · by_cases h2 : j < 24
    · simp [h1, h2, show ¬ 24 ≤ j by omega]
    · simp [h1, h2, show 24 ≤ j by omega]

/-- Masking the low twelve bits away. -/
theorem header_mask_csr (opc : BitVec 8) (csr : BitVec 12) :
    header opc 0 (csr.setWidth 16) &&& 0xFFFFF000#32 = header opc 0 0 := by
  apply BitVec.eq_of_getLsbD_eq
  intro j hj
  rw [BitVec.getLsbD_and, getLsbD_header, getLsbD_header, bit_maskCsr j hj]
  by_cases h1 : j < 12
  · simp [show j < 16 by omega, show ¬ 12 ≤ j by omega]
  · by_cases h2 : j < 16
    · simp [h2, BitVec.getLsbD_of_ge csr j (by omega)]
    · simp [h2, show 12 ≤ j by omega]

/-- Masking the low eight bits away. -/
theorem header_mask_addr (opc : BitVec 8) (addr : Byte) :
    header opc 0 (addr.setWidth 16) &&& 0xFFFFFF00#32 = header opc 0 0 := by
  apply BitVec.eq_of_getLsbD_eq
  intro j hj
  rw [BitVec.getLsbD_and, getLsbD_header, getLsbD_header, bit_maskAddr j hj]
  by_cases h1 : j < 8
  · simp [show j < 16 by omega, show ¬ 8 ≤ j by omega]
  · by_cases h2 : j < 16
    · simp [h2, BitVec.getLsbD_of_ge addr j (by omega)]
    · simp [h2, show 8 ≤ j by omega]

namespace RowOfEncoding

/-- The encoded header has the pattern of the instruction's own row. -/
def Statement (i : Instr) : Prop := i.row.matchesWord (encode i).w0 = true

theorem sysCsrr (csr : BitVec 12) : Statement (.sysCsrr csr) := by
  simp only [Statement, Row.matchesWord, Instr.row, encode, header_mask_csr]; decide

theorem sysCsrw (csr : BitVec 12) (value : Word) : Statement (.sysCsrw csr value) := by
  simp only [Statement, Row.matchesWord, Instr.row, encode, header_mask_csr]; decide

theorem rbInit (sel : BitVec 8) (base size : Word) : Statement (.rbInit sel base size) := by
  simp only [Statement, Row.matchesWord, Instr.row, encode, header_mask_sel]; decide

theorem rbPush (sel : BitVec 8) (byte : Byte) : Statement (.rbPush sel byte) := by
  simp only [Statement, Row.matchesWord, Instr.row, encode, header_mask_sel]; decide

theorem rbPop (sel : BitVec 8) : Statement (.rbPop sel) := by
  simp only [Statement, Row.matchesWord, Instr.row, encode, header_mask_sel]; decide

theorem rbIsEmpty (sel : BitVec 8) : Statement (.rbIsEmpty sel) := by
  simp only [Statement, Row.matchesWord, Instr.row, encode, header_mask_sel]; decide

theorem rbIsFull (sel : BitVec 8) : Statement (.rbIsFull sel) := by
  simp only [Statement, Row.matchesWord, Instr.row, encode, header_mask_sel]; decide

theorem brcSafeWrite (addr : Byte) (data length : Word) : Statement (.brcSafeWrite addr data length) := by
  simp only [Statement, Row.matchesWord, Instr.row, encode, header_mask_addr]; decide

theorem brcRecover : Statement .brcRecover := by unfold Statement; decide

theorem dibInit : Statement .dibInit := by unfold Statement; decide

theorem dibSend (data length : Word) : Statement (.dibSend data length) :=
  (by decide : decide (header 0x31 0 0 &&& 0xFFFFFFFF#32 = 0x31000000#32) = true)

theorem dibRead (output maxLen : Word) : Statement (.dibRead output maxLen) :=
  (by decide : decide (header 0x32 0 0 &&& 0xFFFFFFFF#32 = 0x32000000#32) = true)

theorem cdFeed (byte : Byte) : Statement (.cdFeed byte) :=
  (by decide : decide (header 0x40 0 0 &&& 0xFFFFFFFF#32 = 0x40000000#32) = true)

end RowOfEncoding

end Sys2Proof.Laws
end

