-- ==== Sys2Proof/Tests/Slice0.lean ====
section
/-! SUPPORT. Small tests: ill-formed terms, words written out from 95_test_vectors.md V8, one step of each request with
the expected result of the spec's vectors, and for every statement with hypotheses a state and operands that meet
them. -/

namespace Sys2Proof.Tests

open Sys2Proof.Machine Sys2Proof.Safety

/-! ## States -/

/-- The state with request `i` in flight on port `p` at step `ph`, with temporaries `t`. -/
def at_ (p : Port) (i : Instr) (ph : Phase) (s : State) (t : Temps := Temps.zero) : State :=
  (s.actingAs p).setPort p { flight := some { instr := i, phase := ph, temps := t }, resp := none }

/-- The state in which the step being taken draws `d`. -/
def drawn (d : Draw) (s : State) : State := { s with env := { s.env with draw := d } }

/-- The state with a script. -/
def scripted (ms : List Move) (s : State) : State := { s with env := { s.env with script := ms } }

/-- Instance 0 with its store at 0x20000000, mask `mask`, cursors `head` and `tail` and the shadows equal to them where
the mode is `GRAY`. -/
def ring0 (mask head tail : Word) (s : State) : State :=
  s.setRb 0 { s.rbAt 0 with base := 0x20000000#32, mask := mask, head := head, tail := tail }

def grayMode (s : State) : State := { s with cfg := { s.cfg with rbSync := .gray, dibSync := .gray } }

/-- The bridge running, its cursors at `hw` and `rd`. -/
def running (hw rd : Word) (s : State) : State := { s with dib := { s.dib with run := true, hw := hw, rd := rd } }

/-- An outbound transfer in flight with `n` bytes left from 0x20002000. -/
def sending (n : Word) (s : State) : State :=
  { s with dib := { s.dib with txBusy := true, txSrc := 0x20002000#32, txRem := n } }

/-- The recovery machine between its steps. -/
def recovering (st : BrcState) (modes : PinMode × PinMode) (n : BitVec 4) (s : State) : State :=
  { s with brc := { s.brc with state := st, n := n },
           pins := { s.pins with sdaMode := modes.1, sclMode := modes.2 } }

def r0 : State := State.reset

/-- The response on a port. -/
def answer (p : Port) : Result → Option Response
  | .next t => (t.port p).resp
  | .fault _ => none
  | .refused _ => none

/-- A field of the next state. -/
def after {α : Type} (f : State → α) : Result → Option α
  | .next t => some (f t)
  | .fault _ => none
  | .refused _ => none

/-! ## Well-formedness: each check refuses an ill-formed term -/

theorem test_wf_instance_out_of_range : (Instr.rbPop 2).wellFormed 2 = false := by decide
theorem test_wf_instance_in_range : (Instr.rbPop 1).wellFormed 2 = true := by decide
theorem test_wf_cap_not_a_power : ({ Params.reference with dibCap := 100 }).dibCapOk = false := by decide
theorem test_wf_cap_too_small : ({ Params.reference with dibCap := 1 }).dibCapOk = false := by decide
theorem test_wf_cap_too_large : ({ Params.reference with dibCap := 2 ^ 33 }).dibCapOk = false := by decide
theorem test_wf_base_misaligned : ({ Params.reference with dibBase := 0x20004080#32 }).dibBaseOk = false := by decide
theorem test_wf_command_buffer_too_small : ({ Params.reference with cdCap := 4 }).cdCapOk = false := by decide
theorem test_wf_reference : Params.reference.wellFormed = true := by decide
theorem test_wf_instances : nRbOk 0 = false ∧ nRbOk 257 = false ∧ nRbOk 1 = true ∧ nRbOk 256 = true := by decide

/-! ## Decoding: the words of V8, one per constructor, and the rejections of V9 -/

theorem test_decode_csrr : decodeWords ⟨0x01000003#32, 0, 0⟩ = .instr (.sysCsrr 3) := by decide
theorem test_decode_csrw : decodeWords ⟨0x02000001#32, 0x4E20#32, 0⟩ = .instr (.sysCsrw 1 20000#32) := by decide
theorem test_decode_init :
    decodeWords ⟨0x10010000#32, 0x20000400#32, 0x400#32⟩ = .instr (.rbInit 1 0x20000400#32 1024#32) := by decide
theorem test_decode_push : decodeWords ⟨0x11010000#32, 0x41#32, 0⟩ = .instr (.rbPush 1 0x41#8) := by decide
theorem test_decode_pop : decodeWords ⟨0x12010000#32, 0, 0⟩ = .instr (.rbPop 1) := by decide
theorem test_decode_is_empty : decodeWords ⟨0x13010000#32, 0, 0⟩ = .instr (.rbIsEmpty 1) := by decide
theorem test_decode_is_full : decodeWords ⟨0x14000000#32, 0, 0⟩ = .instr (.rbIsFull 0) := by decide
theorem test_decode_safe_write :
    decodeWords ⟨0x2000003C#32, 0x20001000#32, 2#32⟩ = .instr (.brcSafeWrite 0x3C#8 0x20001000#32 2#32) := by decide
theorem test_decode_recover : decodeWords ⟨0x21000000#32, 0, 0⟩ = .instr .brcRecover := by decide
theorem test_decode_dib_init : decodeWords ⟨0x30000000#32, 0, 0⟩ = .instr .dibInit := by decide
theorem test_decode_send :
    decodeWords ⟨0x31000000#32, 0x20002000#32, 5#32⟩ = .instr (.dibSend 0x20002000#32 5#32) := by decide
theorem test_decode_read :
    decodeWords ⟨0x32000000#32, 0x20003000#32, 0x40#32⟩ = .instr (.dibRead 0x20003000#32 64#32) := by decide
theorem test_decode_feed : decodeWords ⟨0x40000000#32, 0x49#32, 0⟩ = .instr (.cdFeed 0x49#8) := by decide
theorem test_decode_ignores_high_bits : decodeWords ⟨0x40000000#32, 0xABCDEF49#32, 7#32⟩ = .instr (.cdFeed 0x49#8) := by
  decide
theorem test_decode_bytes_little_endian :
    decodeBytes [0x3C, 0, 0, 0x20, 0, 0x10, 0, 0x20, 2, 0, 0, 0, 0xFF] =
      (.instr (.brcSafeWrite 0x3C#8 0x20001000#32 2#32), [0xFF]) := by decide
theorem test_reject_unassigned : decodeWords ⟨0, 0, 0⟩ = .bad .unassignedOpcode ∧
    decodeWords ⟨0xFF000000#32, 0, 0⟩ = .bad .unassignedOpcode ∧
    decodeWords ⟨0x15000000#32, 0, 0⟩ = .bad .unassignedOpcode := by decide
theorem test_reject_sel : decodeWords ⟨0x21010000#32, 0, 0⟩ = .bad .reservedSel := by decide
theorem test_reject_imm : decodeWords ⟨0x10000001#32, 0x20000000#32, 8#32⟩ = .bad .reservedImm ∧
    decodeWords ⟨0x20000100#32, 0x20001000#32, 2#32⟩ = .bad .reservedImm ∧
    decodeWords ⟨0x01001000#32, 0, 0⟩ = .bad .reservedImm := by decide
theorem test_reject_short : decodeBytes [1, 2, 3] = (.bad .shortRequest, [1, 2, 3]) := by decide

/-! ## The first instruction after reset -/

/-- After reset, the presented request is in flight after one step, for each row of the table. -/
theorem test_fetch_runs_each_row :
    (tableInstrs.all fun i =>
      match step (r0.withFetchWord 96 ((encode i).w0.toNat)) with
      | .next t => (t.port (r0.homePort (encode i))).flight.map Flight.instr == some i
      | .fault _ => false
      | .refused _ => false) = true := by decide

/-! ## One step of each request, against the vectors of the spec -/

/-- V18: the reference value of `BRC_TIMEOUT`. -/
theorem test_csrr_timeout : answer .main (exec (.sysCsrr 1) (at_ .main (.sysCsrr 1) .g1 r0)) = some ⟨.ok, 50000#32⟩ := by
  decide
/-- V9: index 0x108 names no register of two instances. -/
theorem test_csrr_no_register :
    answer .main (exec (.sysCsrr 0x108#12) (at_ .main (.sysCsrr 0x108#12) .g1 r0)) = some ⟨.badRequest, 0⟩ := by decide
/-- V19: a pulse count above 9 is clamped, and only four bits count. -/
theorem test_csrw_pulses_clamped :
    after (fun t => t.brc.pulses) (exec (.sysCsrw 2 12) (at_ .main (.sysCsrw 2 12) .h1 r0)) = some 9#4 ∧
    after (fun t => t.brc.pulses) (exec (.sysCsrw 2 0x25) (at_ .main (.sysCsrw 2 0x25) .h1 r0)) = some 5#4 := by decide
/-- V9: `CD_IDX` is read-only. -/
theorem test_csrw_read_only :
    answer .main (exec (.sysCsrw 0x010 5) (at_ .main (.sysCsrw 0x010 5) .h1 r0)) = some ⟨.badRequest, 0⟩ := by decide
/-- V2: `RB.INIT 0, 0x20000000, 8`. -/
theorem test_init_sets_mask :
    after (fun t => ((t.rbAt 0).base, (t.rbAt 0).mask))
      (exec (.rbInit 0 0x20000000#32 8) (at_ .main (.rbInit 0 0x20000000#32 8) .i1 r0)) =
      some (0x20000000#32, 7#32) := by decide
/-- V10: 257 is no power of two. -/
theorem test_init_rejects_size :
    answer .main (exec (.rbInit 0 0x20000000#32 257) (at_ .main (.rbInit 0 0x20000000#32 257) .i1 r0)) =
      some ⟨.configError, 0⟩ := by decide
/-- V3: the eighth push in a ring of eight slots publishes cursor 0. -/
theorem test_push_wraps :
    after (fun t => (t.port (.prod 0)).flight.map (·.temps.next))
      (exec (.rbPush 0 0x5A#8) (at_ (.prod 0) (.rbPush 0 0x5A#8) .p1 (ring0 7 7 7 r0))) = some (some 0#32) := by decide
/-- V4: full after seven pushes. -/
theorem test_push_full :
    answer (.prod 0) (exec (.rbPush 0 0x48#8) (at_ (.prod 0) (.rbPush 0 0x48#8) .p1 (ring0 7 7 0 r0))) =
      some ⟨.bufferFull, 0⟩ := by decide
/-- V2: the tail goes from 7 to 0 and the byte comes back zero-extended. -/
theorem test_pop_wraps :
    after id (exec (.rbPop 0) (at_ .main (.rbPop 0) .c3 (ring0 7 1 7 r0) { Temps.zero with byte := 0x9A#8 })) =
      some (((ring0 7 1 0 r0).actingAs .main).respond .ok 0x9A#32) := by decide
theorem test_pop_empty :
    answer .main (exec (.rbPop 0) (at_ .main (.rbPop 0) .c1 (ring0 7 3 3 r0))) = some ⟨.bufferEmpty, 0⟩ := by decide
/-- V1: difference 3 modulo 4 is full and not empty. -/
theorem test_is_full_is_empty :
    answer .main (exec (.rbIsFull 0) (at_ .main (.rbIsFull 0) .f1 (ring0 3 1 2 r0))) = some ⟨.ok, 1⟩ ∧
    answer .main (exec (.rbIsEmpty 0) (at_ .main (.rbIsEmpty 0) .e1 (ring0 3 1 2 r0))) = some ⟨.ok, 0⟩ ∧
    answer .main (exec (.rbIsEmpty 0) (at_ .main (.rbIsEmpty 0) .e1 (ring0 3 2 2 r0))) = some ⟨.ok, 1⟩ := by decide
/-- V15: in `GRAY` mode the consumer does not see a push before the synchroniser has stepped. -/
theorem test_pop_gray_stale :
    answer .main (exec (.rbPop 0) (at_ .main (.rbPop 0) .c1 (grayMode (ring0 3 1 0 r0)))) = some ⟨.bufferEmpty, 0⟩ := by
  decide
/-- PRG3: the payload is read and the write issued with the programmed timeout. -/
theorem test_safe_write_issues :
    after (fun t => t.busTrace) (exec (.brcSafeWrite 0x3C 0x20001000 2)
      (at_ .main (.brcSafeWrite 0x3C 0x20001000 2) .w1 (r0.store 0x20001001 0xAF))) =
      some [.write 0x3C#8 [0x00#8, 0xAF#8] 50000#32] := by decide
/-- PRG3: a timeout leads to the recovery run. -/
theorem test_safe_write_timeout :
    after (fun t => t.phase) (exec (.brcSafeWrite 0x3C 0x20001000 2)
      (drawn { Draw.zero with outcome := .timeout } (at_ .main (.brcSafeWrite 0x3C 0x20001000 2) .w2 r0))) =
      some (some .v1) := by decide
/-- V6: the third pulse samples 1. -/
theorem test_recover_stops_at_sample :
    after (fun t => (t.brc.n, t.brc.state)) (exec .brcRecover (drawn { Draw.zero with sample := true }
      (at_ .main .brcRecover .v2 (recovering .pulseClock (.input, .output) 2 r0)))) =
      some (3#4, .generateStop) := by decide
/-- V22: with no pulse allowed the run goes straight to the stop condition. -/
theorem test_recover_no_pulses :
    after (fun t => t.phase) (exec .brcRecover
      (at_ .main .brcRecover .v1 { r0 with brc := { r0.brc with pulses := 0 } })) = some (some .v3) := by decide
/-- V7: the bridge's cursors after `DIB.INIT`. -/
theorem test_dib_init :
    after (fun t => (t.dib.hw, t.dib.rd, t.dib.run))
      (exec .dibInit (at_ .main .dibInit .n1 (running 0x20004009 7 r0))) = some (0x20004000#32, 0#32, true) := by decide
/-- V33: the request is held while a transfer is in flight. -/
theorem test_send_held :
    after id (exec (.dibSend 0x20002000 5) (at_ .main (.dibSend 0x20002000 5) .s1 (sending 3 r0))) =
      some (at_ .main (.dibSend 0x20002000 5) .s1 (sending 3 r0)) := by decide
/-- V7: nothing to copy, so the next step answers. -/
theorem test_read_empty :
    after (fun t => t.phase) (exec (.dibRead 0x20003000 16)
      (at_ .main (.dibRead 0x20003000 16) .d1 (running 0x20004005 5 r0))) = some (some .d3) := by decide
/-- The read cursor wraps from the last slot, and the count reaches `max_len`. -/
theorem test_read_wraps :
    after (fun t => (t.dib.rd, t.phase, t.load 0x20003002)) (exec (.dibRead 0x20003000 3)
      (at_ .main (.dibRead 0x20003000 3) .d2 ((running 0x20004005 255 r0).store 0x200040FF 0x7E)
        { Temps.zero with prod := 5, cnt := 2 })) = some (0#32, some .d3, 0x7E#8) := by decide
/-- V5 (a): "INV" and a line-feed. -/
theorem test_feed_inv :
    answer .main (exec (.cdFeed 0x0A) (at_ .main (.cdFeed 0x0A) .k1
      { r0 with cd := { acc := [0x49, 0x4E, 0x56, 0x47, 0, 0, 0, 0, 0, 0, 0, 0, 0, 0, 0, 0], idx := 3 } })) =
      some ⟨.ok, 1⟩ := by decide
/-- V41: with a full line the byte is discarded. -/
theorem test_feed_full_line :
    after (fun t => t.cd.idx) (exec (.cdFeed 0x58) (at_ .main (.cdFeed 0x58) .k1
      { r0 with cd := { r0.cd with idx := 15 } })) = some 15 := by decide
/-- V9: a pop on a producer port. -/
theorem test_wrong_port :
    answer (.prod 0) (exec (.rbPop 0) (r0.actingAs (.prod 0))) = some ⟨.badRequest, 0⟩ := by decide
/-- The ingest engine wraps at the end of its buffer. -/
theorem test_ingest_wraps :
    (hwWriteStep 0x61 (running 0x200040FF 0 r0)).dib.hw = 0x20004000#32 ∧
      (hwWriteStep 0x61 (running 0x200040FF 0 r0)).load 0x200040FF = 0x61#8 := by decide
/-- 20_memory.md R72: the codes of 7 and of 8, and the wrap from 7 to 0 in three bits. -/
theorem test_gray_codes : gray 7 = 4#32 ∧ gray 8 = 12#32 ∧ ungray 12 = 8#32 ∧ gray 7 ^^^ gray 0 = 4#32 := by decide

/-! ## Witnesses: for each statement with hypotheses, what meets them, clause by clause, at the ends of the ranges -/

def goes : Result → Bool
  | .next _ => true
  | .fault _ => false
  | .refused _ => false

theorem next_of_goes {o : Result} (h : goes o = true) : ∃ t, o = .next t := by
  cases o with
  | next t => exact ⟨t, rfl⟩
  | fault r => simp [goes] at h
  | refused r => simp [goes] at h

/-- A step that goes on from a state that meets a test. -/
theorem steps_from {P : State → Bool} (s : State) (m : Move) (h : P s = true ∧ goes (apply m s) = true) :
    ∃ s t m, P s = true ∧ apply m s = .next t :=
  ⟨s, _, m, h.1, (next_of_goes h.2).choose_spec⟩

theorem scripted_from {P : State → Bool} (s : State) (h : P s = true ∧ goes (step s) = true) :
    ∃ s t, P s = true ∧ step s = .next t :=
  ⟨s, _, h.1, (next_of_goes h.2).choose_spec⟩

/-- A push that has stored its byte: mask 7, one byte in the ring, the next cursor at the wrap. -/
def pushing : State :=
  at_ (.prod 0) (.rbPush 0 0x5A) .p3 ((ring0 7 7 6 r0).store 0x20000007 0x5A) { Temps.zero with next := 0 }

/-- A pop that has read its byte. -/
def popping : State :=
  at_ .main (.rbPop 0) .c3 ((ring0 7 0 7 r0).store 0x20000007 0x5A) { Temps.zero with head := 0, byte := 0x5A }

/-- A read with one byte to copy. -/
def reading : State :=
  at_ .main (.dibRead 0x20003000 4) .d2 ((running 0x20004000 255 r0).store 0x200040FF 0x7E)
    { Temps.zero with prod := 0, cnt := 3 }

/-- A recovery run before a pulse. -/
def pulsing : State := at_ .main .brcRecover .v2 (recovering .pulseClock (.input, .output) 8 r0)

theorem test_witness_DecodeFollowsTheRows :
    decodeWords ⟨0x11FF0000#32, 0, 0⟩ = .instr (.rbPush 255 0) ∧
      (Instr.rbPush 0 0).row ∈ opcodeRows ∧ (Instr.rbPush 0 0).row.matchesWord 0x11FF0000#32 = true := by decide
theorem test_witness_OperandsAsTheyStand :
    decodeWords ⟨0x11010000#32, 0xFFFFFF41#32, 5#32⟩ = .instr (.rbPush 1 0x41) ∧
      0x41#32 &&& (usedBits (.rbPush 1 0x41)).1 = 0xFFFFFF41#32 &&& (usedBits (.rbPush 1 0x41)).1 ∧
      9#32 &&& (usedBits (.rbPush 1 0x41)).2 = 5#32 &&& (usedBits (.rbPush 1 0x41)).2 := by decide
theorem test_witness_StepRunsTheDecodedRequest :
    (∃ s p r rest i, State.hasPort s p = true ∧ s.env.script = Move.request p r :: rest ∧ s.busy p = false ∧
      decodeWords r = .instr i) ∧
    (∃ s p d rest f, State.port s p = { flight := some f, resp := none } ∧ s.env.script = Move.port p d :: rest) ∧
    ∃ s : State, s.env.script = [] :=
  ⟨⟨scripted [.request (.prod 1) ⟨0x11010000#32, 0x41#32, 0⟩] r0, .prod 1, _, _, _, by decide, rfl, by decide, rfl⟩,
    ⟨scripted [.port .main Draw.zero] popping, .main, _, _, _, rfl, rfl⟩, ⟨r0, rfl⟩⟩
theorem test_witness_BusyPortAcceptsNothing : popping.busy .main = true ∧ popping.busy (.prod 0) = false := by decide
theorem test_witness_AdmittedRequestIsAccepted :
    (r0.actingAs (.prod 1)).flight = none ∧ r0.hasPort (.prod 1) = true ∧ admits (.prod 1) (.rbPush 1 0x41) = true ∧
      (Instr.rbPush 1 0x41).wellFormed r0.nRb = true ∧
      (r0.actingAs (.prod 1)).initHazard (.rbPush 1 0x41) (firstStep (.rbPush 1 0x41)) = false := by decide
theorem test_witness_BadRequestChangesNothing :
    (r0.hasPort (.prod 1) = true ∧ r0.busy (.prod 1) = false ∧ decodeWords ⟨0x15000000#32, 0, 0⟩ = .bad .unassignedOpcode) ∧
    (r0.flight = none ∧ admits r0.env.acting (.rbPush 0 0x41) = false) ∧
    (Instr.rbPop 2).wellFormed r0.nRb = false := by decide
theorem test_witness_PortAdmission :
    (r0.env.acting = .main ∧ r0.flight = none) ∧
      (r0.actingAs (.prod 1)).env.acting = .prod 1 ∧ 1 < r0.nRb ∧ (r0.actingAs (.prod 1)).flight = none := by decide
/-- An `RB.INIT 0` at each of its steps while a push is in flight, and a push presented while an `RB.INIT 1` is. -/
theorem test_witness_InitRaceIsAFault :
    ((pushing.actingAs .main).phase = none ∧ pushing.busy (.prod 0) = true ∧ 0 < pushing.nRb) ∧
    ((at_ .main (.rbInit 0 0x20000000 8) .i1 pushing).phase = some .i1 ∧
      (at_ .main (.rbInit 0 0x20000000 8) .i1 pushing).busy (.prod 0) = true) ∧
    (((at_ .main (.rbInit 1 0x20000000 8) .i1 r0).actingAs (.prod 1)).phase = none ∧
      admits (.prod 1) (.rbPush 1 0) = true ∧ 1 < r0.nRb ∧
      (at_ .main (.rbInit 1 0x20000000 8) .i1 r0).initInFlight 1 = true) := by decide
theorem test_witness_BadRegionIsRefused :
    2 ^ 32 < (0xFFFFFFFF#32).toNat + (2#32).toNat ∧ initRejected r0.cfg 0xFFFFFFFF#32 2#32 = false ∧
    (at_ .main (.brcSafeWrite 0 0xFFFFFFFF 2) .w1 r0).phase = some .w1 ∧
    (at_ .main (.dibSend 0xFFFFFFFF 2) .s1 r0).phase = some .s1 ∧
    (at_ .main (.dibRead 0xFFFFFFFF 2) .d1 r0).phase = some .d1 ∧
    (at_ .main (.rbInit 0 0xFFFFFFFF 2) .i1 r0).phase = some .i1 ∧ r0.busy (.prod 0) = false := by decide
/-- Each overlap, in a state at the step that refuses it; the first is an `RB.INIT` before any `DIB.INIT`. -/
theorem test_witness_BadRegionIsRefused_overlaps :
    let init := at_ .main (.rbInit 1 0x200040F8 8) .i1 r0
    let init' := at_ .main (.rbInit 1 0x20000000 8) .i1 (ring0 7 0 0 r0)
    let read := at_ .main (.dibRead 0x200040FF 1) .d1 r0
    let read' := at_ .main (.dibRead 0x20000007 1) .d1 (ring0 7 0 0 r0)
    let start := at_ .main .dibInit .n1 (r0.setRb 1 { Rb.reset with base := 0x20004000, mask := 7 })
    (0xFFFFFFF8#32).toNat + (8#32).toNat ≤ 2 ^ 32 ∧
    (init.phase = some .i1 ∧ init.busy (.prod 1) = false ∧ initRejected init.cfg 0x200040F8 8 = false ∧
      init.clearOfDib (operandRegion 0x200040F8 8) = false ∧ init.dib.run = false) ∧
    (init'.phase = some .i1 ∧ init'.busy (.prod 1) = false ∧ initRejected init'.cfg 0x20000000 8 = false ∧
      init'.clearOfOtherStores 1 (operandRegion 0x20000000 8) = false) ∧
    (read.phase = some .d1 ∧ read.clearOfDib (operandRegion 0x200040FF 1) = false) ∧
    (read'.phase = some .d1 ∧ read'.clearOfStores (operandRegion 0x20000007 1) = false) ∧
    (start.phase = some .n1 ∧ start.clearOfStores (dibRegion start.cfg) = false) := by decide
/-- The four rejections and two acceptances of `RB.INIT`. -/
theorem test_witness_RbInitInitialisesOrRejects :
    let s := at_ .main (.rbInit 1 0x20000000 8) .i1 r0
    (s.phase = some .i1 ∧ s.env.acting = .main ∧ 1 < s.nRb ∧ s.busy (.prod 1) = false) ∧
    (3#32 &&& (3#32 - 1) ≠ 0 ∧ ({ s.cfg with acceptSize1 := false }).acceptSize1 = false) ∧
    (8#32 ≠ 0 ∧ 8#32 &&& (8#32 - 1) = 0 ∧ 0x20000000#32 ≠ 0 ∧ (0x20000000#32).toNat + (8#32).toNat ≤ 2 ^ 32 ∧
      s.clearOfDib (operandRegion 0x20000000 8) = true ∧
      s.clearOfOtherStores 1 (operandRegion 0x20000000 8) = true) ∧
    (1#32 &&& (1#32 - 1) = 0 ∧ s.cfg.acceptSize1 = true ∧ (0xFFFFFFFF#32).toNat + (1#32).toNat ≤ 2 ^ 32 ∧
      s.clearOfDib (operandRegion 0xFFFFFFFF 1) = true ∧
      s.clearOfOtherStores 1 (operandRegion 0xFFFFFFFF 1) = true) := by decide
theorem test_witness_PushSteps :
    let s := fun ph r => at_ (.prod 0) (.rbPush 0 0x41) ph r
    (s .p1 (ring0 7 7 0 r0)).phase = some .p1 ∧ (s .p1 (ring0 7 7 0 r0)).env.acting = .prod 0 ∧
    ((7#32 + 1) &&& 7#32 = ((s .p1 (ring0 7 7 0 r0)).rbAt 0).viewTail .direct) ∧
    ((7#32 + 1) &&& 7#32 ≠ ((s .p1 (ring0 7 7 1 r0)).rbAt 0).viewTail .direct) ∧
    ((s .p2 (ring0 7 7 1 r0)).phase = some .p2 ∧ (s .p2 (ring0 7 7 1 r0)).mem.wf = true) ∧
    (s .p3 (ring0 7 7 1 r0)).phase = some .p3 := by decide
theorem test_witness_PopSteps :
    let s := fun ph r => at_ .main (.rbPop 1) ph r
    ((s .c1 r0).phase = some .c1 ∧ (s .c1 r0).env.acting = .main ∧ 1 < (s .c1 r0).nRb ∧
      ((s .c1 r0).rbAt 1).viewHead .direct = ((s .c1 r0).rbAt 1).tail) ∧
    ((s .c1 (ring0 7 0 7 r0)).rbAt 0).viewHead .direct ≠ ((s .c1 (ring0 7 0 7 r0)).rbAt 0).tail ∧
    (s .c2 r0).phase = some .c2 ∧ (s .c3 r0).phase = some .c3 := by decide
theorem test_witness_QueriesAnswer :
    let s := fun p i ph => at_ p i ph r0
    ((s .main (.rbIsEmpty 1) .e1).phase = some .e1 ∧ (s .main (.rbIsEmpty 1) .e1).env.acting = .main) ∧
    ((s (.prod 1) (.rbIsEmpty 1) .e1).phase = some .e1 ∧ (s (.prod 1) (.rbIsEmpty 1) .e1).env.acting = .prod 1) ∧
    ((s .main (.rbIsFull 1) .f1).phase = some .f1 ∧ (s .main (.rbIsFull 1) .f1).env.acting = .main) ∧
    ((s (.prod 1) (.rbIsFull 1) .f1).phase = some .f1 ∧ (s (.prod 1) (.rbIsFull 1) .f1).env.acting = .prod 1) := by
  decide
theorem test_witness_WholePush :
    let s := (ring0 7 7 1 r0).actingAs (.prod 0)
    s.env.acting = .prod 0 ∧ s.flight = none ∧ 0 < s.nRb ∧ s.initInFlight 0 = false ∧ s.mem.wf = true ∧
      ((s.rbAt 0).head + 1) &&& (s.rbAt 0).mask ≠ (s.rbAt 0).viewTail s.cfg.rbSync := by decide
theorem test_witness_WholePop :
    let s := ring0 7 0 7 r0
    s.env.acting = .main ∧ s.flight = none ∧ 0 < s.nRb ∧ (s.rbAt 0).viewHead s.cfg.rbSync ≠ (s.rbAt 0).tail := by decide
theorem test_witness_UninitialisedRingIsHarmless :
    (let s := fun p i ph => at_ p i ph r0
    ((s (.prod 1) (.rbPush 1 0) .p1).phase = some .p1 ∧ (s (.prod 1) (.rbPush 1 0) .p1).env.acting = .prod 1) ∧
    ((s .main (.rbPop 1) .c1).phase = some .c1 ∧ (s .main (.rbPop 1) .c1).env.acting = .main) ∧
    (s .main (.rbIsEmpty 1) .e1).phase = some .e1 ∧ (s .main (.rbIsFull 1) .f1).phase = some .f1) ∧
    sameRegs ((at_ (.prod 1) (.rbPush 1 0) .p1 r0).rbAt 1) Rb.reset ∧
    sameRegs ((at_ .main (.rbPop 1) .c1 r0).rbAt 1) Rb.reset := by
  unfold sameRegs; decide
theorem test_witness_OccupancyCounts :
    (maskOk 0 = true ∧ (0#32) ≤ 0#32) ∧ (maskOk 0x7FFFFFFF = true ∧ (0x7FFFFFFF#32) ≤ 0x7FFFFFFF#32) ∧
      cursorsFull 0 5 7 = false ∧ cursorsEmpty 0 5 = false := by decide
theorem test_witness_RingsStayInRange : ∃ s t, (flightsOk s && ringsOk s) = true ∧ step s = .next t :=
  scripted_from (scripted [.port (.prod 0) Draw.zero] pushing) (by decide)
theorem test_witness_RingIsAQueue_push : ∃ s t m, (queueOk s && 0 < s.nRb) = true ∧ apply m s = .next t :=
  steps_from pushing (.port (.prod 0) Draw.zero) (by decide)
theorem test_witness_RingIsAQueue_pop : ∃ s t m, (queueOk s && 0 < s.nRb) = true ∧ apply m s = .next t :=
  steps_from popping (.port .main Draw.zero) (by decide)
theorem test_witness_QueueInvariantIsKept : ∃ s t, queueOk s = true ∧ step s = .next t :=
  scripted_from (scripted [.port .main Draw.zero] reading) (by decide)
theorem test_witness_SafeWriteIssues :
    (at_ .main (.brcSafeWrite 0x3C 0xFFFFFFFE 2) .w1 r0).phase = some .w1 ∧
      (0xFFFFFFFE#32).toNat + (2#32).toNat ≤ 2 ^ 32 := by decide
theorem test_witness_SafeWriteOutcome :
    let s := fun o => drawn { Draw.zero with outcome := o } (at_ .main (.brcSafeWrite 0x3C 0x20001000 2) .w2 r0)
    ((s (.written 3)).phase = some .w2 ∧ (s (.written 3)).env.draw.outcome = .written 3) ∧
      (s .timeout).env.draw.outcome = .timeout ∧ (s .failure).env.draw.outcome = .failure := by decide
theorem test_witness_AnswerAfterRecovery :
    (at_ .main (.brcSafeWrite 0x3C 0x20001000 2) .w3 r0).phase = some .w3 ∧
      (at_ .main .brcRecover .x1 r0).phase = some .x1 := by decide
theorem test_witness_RecoveryStarts :
    recoveryOf .brcRecover = some .x1 ∧ (at_ .main .brcRecover .v1 r0).phase = some .v1 ∧
      recoveryOf (.brcSafeWrite 0 0 0) = some .w3 := by decide
theorem test_witness_RecoveryPulses :
    recoveryOf .brcRecover = some .x1 ∧ pulsing.phase = some .v2 ∧ pulsing.brc.state = .pulseClock ∧
      true = (pulsing.env.draw.sample || pulsing.brc.n + 1 = pulsing.brc.pulses) := by decide
theorem test_witness_RecoveryStops :
    recoveryOf .brcRecover = some .x1 ∧
      (at_ .main .brcRecover .v3 (recovering .generateStop (.input, .output) 9 r0)).phase = some .v3 := by decide
theorem test_witness_RecoveryReinitialises :
    recoveryOf .brcRecover = some .x1 ∧
      (at_ .main .brcRecover .v4 (recovering .reinit (.output, .output) 9 r0)).phase = some .v4 := by decide
/-- The statement's hypotheses, and a run of it: nine samples of 0, so `k` is the pulse count. -/
theorem test_witness_RecoveryRunEnds :
    recoveryOf .brcRecover = some .x1 ∧ (at_ .main .brcRecover .v1 r0).phase = some .v1 ∧
      after (fun t => (t.phase, t.brc.n, t.pinTrace.length))
        (serveDraws .brcRecover (List.replicate 12 Draw.zero) (at_ .main .brcRecover .v1 r0)) =
        some (some .x1, 9#4, 58) := by decide
theorem test_witness_RecoveryInvariantIsKept : ∃ s t, (flightsOk s && recoveryOk s) = true ∧ step s = .next t :=
  scripted_from (scripted [.port .main Draw.zero] pulsing) (by decide)
theorem test_witness_DibInitStarts :
    (at_ .main .dibInit .n1 (ring0 7 0 0 r0)).phase = some .n1 ∧
      (at_ .main .dibInit .n1 (ring0 7 0 0 r0)).clearOfStores (dibRegion r0.cfg) = true := by decide
theorem test_witness_DibSendTriggersOrHolds :
    (at_ .main (.dibSend 0xFFFFFFFB 5) .s1 r0).phase = some .s1 ∧ (0xFFFFFFFB#32).toNat + (5#32).toNat ≤ 2 ^ 32 ∧
      r0.dib.txBusy = false ∧ (at_ .main (.dibSend 0xFFFFFFFB 5) .s1 (sending 0 r0)).dib.txBusy = true := by decide
theorem test_witness_DibReadSamplesAndAnswers :
    let s := at_ .main (.dibRead 0x20003F00 256) .d1 (running 0x200040FF 0 r0)
    s.phase = some .d1 ∧ (0x20003F00#32).toNat + (256#32).toNat ≤ 2 ^ 32 ∧
      s.clearOfDib (operandRegion 0x20003F00 256) = true ∧ s.clearOfStores (operandRegion 0x20003F00 256) = true ∧
      (at_ .main (.dibRead 0x20003000 64) .d3 r0).phase = some .d3 := by decide
theorem test_witness_DibReadCopiesOneByte : reading.phase = some .d2 ∧ reading.mem.wf = true := by decide
theorem test_witness_DibReadDrains :
    let s := at_ .main (.dibRead 0x20003000 3) .d1 (running 0x20004002 254 r0)
    s.phase = some .d1 ∧ s.cfg.wellFormed = true ∧ dibOk s = true ∧ s.mem.wf = true ∧
      (0x20003000#32).toNat + (3#32).toNat ≤ 2 ^ 32 ∧ s.clearOfDib (operandRegion 0x20003000 3) = true ∧
      s.clearOfStores (operandRegion 0x20003000 3) = true ∧
      ((dibIndex s.cfg s.viewHw - s.dib.rd) &&& dibMask s.cfg).toNat = 4 := by decide
theorem test_witness_IngestEngineStores :
    ((running 0x200040FF 0 r0).dib.run = true ∧ (running 0x200040FF 0 r0).mem.wf = true) ∧ r0.dib.run = false := by decide
theorem test_witness_OutboundEngineSteps :
    ((sending 1 r0).dib.txBusy = true ∧ (sending 1 r0).dib.txRem ≠ 0) ∧
      ((sending 0 r0).dib.txBusy = true ∧ (sending 0 r0).dib.txRem = 0) ∧ r0.dib.txBusy = false := by decide
theorem test_witness_OutboundTransferSendsAll :
    (sending 5 r0).dib.txBusy = true ∧ (sending 5 r0).dib.txRem.toNat = 5 := by decide

/-- A run that lets the outbound engine end an empty transfer and then stays as it is. -/
theorem test_witness_OutboundTransferEnds :
    ∃ (moves : Nat → Move) (e : Nat → State), Runs moves e ∧ FairTx moves e ∧ (e 0).dib.txBusy = true := by
  refine ⟨fun _ => .txDone, fun n => if n = 0 then sending 0 r0 else txDoneStep (sending 0 r0), ?_, ?_, by decide⟩
  · intro n
    rcases n with _ | n <;> rfl
  · intro n h
    rcases n with _ | n
    · exact ⟨0, le_refl _, .inr (.inl ⟨rfl, by decide⟩)⟩
    · exact ⟨n + 1, le_refl _, .inr (.inr rfl)⟩

theorem test_witness_BridgeCursorsStayInRange : ∃ s t, (s.cfg.wellFormed && dibOk s) = true ∧ step s = .next t :=
  scripted_from (scripted [.hwWrite 0x61] (running 0x200040FF 255 r0)) (by decide)
theorem test_witness_FeedFollowsTheTable :
    (at_ .main (.cdFeed 0x0A) .k1 r0).phase = some .k1 ∧ (0x58#8 ≠ 0x0A#8 ∧ 0x58#8 ≠ 0x0D#8) ∧
      14 < r0.cfg.cdCap - 1 ∧ r0.cfg.cdCap - 1 ≤ 15 := by decide
theorem test_witness_LineIsDecodedOnce :
    r0.cd.acc.length = r0.cfg.cdCap ∧ r0.cd.idx = 0 ∧ 5 ≤ r0.cfg.cdCap ∧ isTerminator 0x0D = true ∧
      (∀ b, b ∈ List.replicate 20 0x58#8 → isTerminator b = false) := by decide
theorem test_witness_DecoderIndexStaysInRange : ∃ s t, (s.cfg.wellFormed && cdOk s) = true ∧ step s = .next t :=
  scripted_from (scripted [.port .main Draw.zero] (at_ .main (.cdFeed 0x58) .k1 { r0 with cd := { r0.cd with idx := 15 } }))
    (by decide)
theorem test_witness_CsrReadAnswers :
    (at_ .main (.sysCsrr 2) .g1 r0).phase = some .g1 ∧ r0.csrRead 2 = some 9 ∧ r0.csrRead 0xFFF#12 = none := by decide
theorem test_witness_CsrMapIsTheTable :
    r0.nRb ≤ 256 ∧ 1 < r0.nRb ∧ (0x108#12).toNat ∉ [0x000, 0x001, 0x002, 0x003, 0x010, 0x020, 0x021, 0x022] ∧
      0x100 + 4 * r0.nRb ≤ (0x108#12).toNat ∧ (0x0FF#12).toNat < 0x100 := by decide
theorem test_witness_CsrWriteSets :
    (at_ .main (.sysCsrw 3 0x12345) .h1 r0).phase = some .h1 ∧ 4 ≤ (4#12).toNat ∧
      ({ r0.brc with pwidthUs := 0x2345 } : Brc) = { r0.brc with pwidthUs := (0x12345#32).extractLsb' 0 16 } := by decide
theorem test_witness_SynchronisersCopy :
    (grayMode r0).cfg.rbSync = .gray ∧ 1 < (grayMode r0).nRb ∧ (grayMode r0).cfg.dibSync = .gray ∧
      r0.cfg.rbSync = .direct ∧ r0.cfg.dibSync = .direct := by decide

/-- The moves of a run in which the three synchronisers take turns. -/
def turns (n : Nat) : Move := if n % 3 = 0 then .syncH 0 else if n % 3 = 1 then .syncT 0 else .syncD

/-- With every cursor and shadow as reset leaves it the state stays as it is. -/
theorem test_witness_ViewsCatchUp :
    ∃ (moves : Nat → Move) (e : Nat → State), Runs moves e ∧ FairSync 0 moves ∧ FairSyncD moves ∧
      (e 0).cfg.rbSync = .gray ∧ (e 0).cfg.dibSync = .gray ∧ 0 < (e 0).nRb ∧
      ∀ m, 0 ≤ m → ((e m).rbAt 0).head = 0 ∧ ((e m).rbAt 0).tail = 0 ∧ (e m).dib.hw = 0x20004000#32 := by
  refine ⟨turns, fun _ => grayMode r0, ?_, ⟨fun n => ⟨3 * n, by omega, ?_⟩, fun n => ⟨3 * n + 1, by omega, ?_⟩⟩,
    fun n => ⟨3 * n + 2, by omega, ?_⟩, by decide, by decide, by decide, fun _ _ => ⟨rfl, rfl, rfl⟩⟩
  · intro n
    unfold turns
    split
    · rfl
    · split
      · rfl
      · rfl
  · simp [turns]
  · simp [turns, Nat.add_mod]
  · simp [turns, Nat.add_mod]

/-- A push in flight that answers at the first move, the port idle from then on. -/
theorem test_witness_ProducerNeverWaits :
    ∃ (moves : Nat → Move) (e : Nat → State), Runs moves e ∧ FairPort (.prod 0) moves ∧ flightsOk (e 0) = true ∧
      (e 0).busy (.prod 0) = true := by
  obtain ⟨t, ht⟩ := next_of_goes (o := apply (.port (.prod 0) Draw.zero) pushing) (by decide)
  refine ⟨fun _ => .port (.prod 0) Draw.zero, fun n => if n = 0 then pushing else t, ?_,
    fun n => ⟨n, Draw.zero, le_refl _, rfl⟩, ?_, ?_⟩
  rotate_left
  · show flightsOk pushing = true
    decide
  · show pushing.busy (.prod 0) = true
    decide
  intro n
  rcases n with _ | n
  · exact ht
  · have h : some (t.port (.prod 0)).flight = some none :=
      (congrArg (after fun u => (u.port (.prod 0)).flight) ht).symm.trans
        (show after (fun u => (u.port (.prod 0)).flight) (apply (.port (.prod 0) Draw.zero) pushing) = some none by decide)
    simp only [Nat.add_eq_zero_iff, Nat.one_ne_zero, and_false, ↓reduceIte, apply, route, routePort]
    rw [Option.some.inj h]

theorem test_witness_GrayCodeChangesOneBit :
    (maskOk 1 = true ∧ (1#32) ≤ 1#32) ∧ maskOk 0x7FFFFFFF = true ∧ (0x7FFFFFFF#32) ≠ 0 := by decide
/-- The ends of each region, and the byte after each. -/
theorem test_witness_EnvironmentAccesses :
    let s := at_ .main (.brcSafeWrite 0x3C 0x20001000 2) .w1 (ring0 7 0 0 r0)
    ((ring0 7 0 0 r0).liveAddress 0x20000008 = false ∧ r0.main.flight = none ∧ r0.mem.wf = true) ∧
      (s.liveAddress 0x20001002 = false ∧ s.payloadRegion.contains 0x20001002 = false) ∧
      (ring0 7 0 0 r0).liveAddress 0x20000007 = true ∧ (running 0x20004000 0 r0).liveAddress 0x200040FF = true ∧
      (s.main.flight.map Flight.instr = some (.brcSafeWrite 0x3C 0x20001000 2) ∧
        (operandRegion 0x20001000 2).contains 0x20001001 = true) := by decide
/-- R293: a byte of the payload must not change before W1 has read it. -/
theorem test_env_payload_still :
    let s := at_ .main (.brcSafeWrite 0x3C 0x20001000 2) .w1 r0
    goes (apply (.envWrite 0x20001001 0xAF) s) = false ∧ goes (apply (.envWrite 0x20001002 0xAF) s) = true := by decide
theorem test_witness_OnlyOwnRegionsAreWritten :
    ∃ s t m a, queueOk s = true ∧ apply m s = .next t ∧ t.load a ≠ s.load a := by
  obtain ⟨t, ht⟩ := next_of_goes (o := apply (.hwWrite 0x61) (running 0x200040FF 0 r0)) (by decide)
  refine ⟨_, t, _, 0x200040FF#32, by decide, ht, ?_⟩
  have h : some (t.load 0x200040FF#32) = some 0x61#8 :=
    (congrArg (after fun u => u.load 0x200040FF#32) ht).symm.trans
      (show after (fun u => u.load 0x200040FF#32) (apply (.hwWrite 0x61) (running 0x200040FF 0 r0)) = some 0x61#8 by
        decide)
  rw [Option.some.inj h]
  decide
theorem test_witness_EachCursorHasOneWriter :
    ∃ s t m, flightsOk s = true ∧ apply m s = .next t ∧ (∀ x y z, m ≠ .reset x y z) := by
  obtain ⟨t, ht⟩ := next_of_goes (o := apply (.port .main Draw.zero) popping) (by decide)
  exact ⟨_, t, _, by decide, ht, by simp⟩
theorem test_witness_ParametersAndMemoryFormAreKept : ∃ s t, s.mem.wf = true ∧ step s = .next t :=
  scripted_from (P := fun s => s.mem.wf) (scripted [.envWrite 0xFFFFFFFF 0] (r0.store 0xFFFFFFFF 1)) (by decide)
theorem test_witness_FlightsStayInOrder : ∃ s t, flightsOk s = true ∧ step s = .next t :=
  scripted_from (scripted [.port .main Draw.zero] popping) (by decide)
theorem test_witness_RegionsStayDisjoint : ∃ s t, regionsOk s = true ∧ step s = .next t :=
  scripted_from (scripted [.port .main Draw.zero] (at_ .main .dibInit .n1 (ring0 7 0 0 r0))) (by decide)
theorem test_witness_ResetLeavesTheTable :
    Params.reference.wellFormed = true ∧ nRbOk 1 = true ∧
      ({ Params.reference with dibCap := 2 ^ 32, dibBase := 0, cdCap := 5 } : Params).wellFormed = true := by decide

/-! ## The end of a run (R301) -/

/-- A program of one request: a byte for the decoder. -/
def feedProgram : Program
  | .main => [⟨0x40000000#32, 0x49#32, 0⟩]
  | .prod _ => []

def feedMoves (n : Nat) : Move := if n = 0 then .request .main ⟨0x40000000#32, 0x49#32, 0⟩ else .port .main Draw.zero

def feedRun (n : Nat) : State :=
  if n = 0 then r0
  else if n = 1 then at_ .main (.cdFeed 0x49) .k1 r0
  else cdFeedK1 0x49 (at_ .main (.cdFeed 0x49) .k1 r0)

/-- The run goes on as the machine does, its program has ended after two steps and neither before the request has been
presented nor while it is in flight. -/
theorem test_ended :
    (∀ n, n < 2 → apply (feedMoves n) (feedRun n) = .next (feedRun (n + 1))) ∧
      Ended feedProgram feedMoves feedRun 2 ∧ ¬ Ended feedProgram feedMoves feedRun 0 ∧
      ¬ Ended feedProgram feedMoves feedRun 1 := by
  refine ⟨?_, ⟨?_, ?_, by decide, by decide⟩, ?_, ?_⟩
  · intro n hn
    rcases n with _ | _ | n
    · rfl
    · rfl
    · omega
  · intro p
    rcases p with i | _
    · exact ⟨rfl, by rcases i with _ | _ | i <;> rfl⟩
    · exact ⟨by decide, by decide⟩
  · intro p
    rcases p with i | _
    · rcases i with _ | _ | i <;> rfl
    · rfl
  · intro h
    exact absurd (h.1 .main).1 (by decide)
  · intro h
    exact absurd (h.1 .main).2 (by decide)

end Sys2Proof.Tests
end

section
/-! PROOFS. Family 00_scope.md (O56): what no step of the machine changes, the parameters and the number of RB instances
(00_scope.md R9), and the canonical form of memory (10_state.md R20), followed from the state's operations up to `step`. -/

namespace Sys2Proof.Proofs

open Sys2Proof.Machine

/-! ## The relation and the operations that keep it -/

/-- `t` has the parameters and the number of instances of `s`, and a canonical memory if `s` has one. -/
structure KeepsForm (s t : State) : Prop where
  cfg : t.cfg = s.cfg
  nRb : t.nRb = s.nRb
  mem : s.mem.wf = true → t.mem.wf = true

namespace KeepsForm

/-- What leaves parameters, instances and memory alone keeps the form. -/
theorem of_eq {s t : State} (hcfg : t.cfg = s.cfg) (hrb : t.rb = s.rb) (hmem : t.mem = s.mem) : KeepsForm s t :=
  ⟨hcfg, congrArg List.length hrb, fun h => hmem ▸ h⟩

theorem refl (s : State) : KeepsForm s s := of_eq rfl rfl rfl

theorem trans {s t u : State} (h : KeepsForm s t) (k : KeepsForm t u) : KeepsForm s u :=
  ⟨k.cfg.trans h.cfg, k.nRb.trans h.nRb, fun hs => k.mem (h.mem hs)⟩

variable {s t : State}

theorem store (h : KeepsForm s t) (a : Word) (v : Byte) : KeepsForm s (t.store a v) :=
  h.trans ⟨rfl, rfl, State.store_wf a v⟩

theorem setRb (h : KeepsForm s t) (i : Nat) (r : Rb) : KeepsForm s (t.setRb i r) :=
  h.trans ⟨rfl, State.setRb_nRb t i r, id⟩

theorem setPort (h : KeepsForm s t) (p : Port) (c : PortRec) : KeepsForm s (t.setPort p c) :=
  h.trans ⟨State.setPort_cfg t p c, State.setPort_nRb t p c, fun hm => by rwa [State.setPort_mem]⟩

theorem respond (h : KeepsForm s t) (st : Status) (v : Word) : KeepsForm s (t.respond st v) := h.setPort _ _

theorem fail (h : KeepsForm s t) (st : Status) : KeepsForm s (t.fail st) := h.respond st 0

theorem begin (h : KeepsForm s t) (i : Instr) (ph : Phase) : KeepsForm s (t.begin i ph) := h.setPort _ _

theorem advance (h : KeepsForm s t) (ph : Phase) (tmp : Temps) : KeepsForm s (t.advance ph tmp) := by
  unfold State.advance
  split
  · exact h.setPort _ _
  · exact h

theorem goto (h : KeepsForm s t) (ph : Phase) : KeepsForm s (t.goto ph) := h.advance ph _

theorem setDib (h : KeepsForm s t) (d : Dib) : KeepsForm s { t with dib := d } := h.trans (of_eq rfl rfl rfl)

theorem setBrc (h : KeepsForm s t) (b : Brc) : KeepsForm s { t with brc := b } := h.trans (of_eq rfl rfl rfl)

theorem setCd (h : KeepsForm s t) (d : Cd) : KeepsForm s { t with cd := d } := h.trans (of_eq rfl rfl rfl)

theorem emitBus (h : KeepsForm s t) (e : BusEvent) : KeepsForm s (t.emitBus e) := h.trans (of_eq rfl rfl rfl)

theorem gotoRun (h : KeepsForm s t) (done : Phase) : KeepsForm s (t.gotoRun done) := h.goto _

end KeepsForm

/-! ## The steps of the requests -/

theorem sysCsrrG1_keepsForm (csr : BitVec 12) (s : State) : KeepsForm s (sysCsrrG1 csr s) := by
  unfold sysCsrrG1
  split
  · exact (KeepsForm.refl s).respond _ _
  · exact (KeepsForm.refl s).fail _

theorem sysCsrwH1_keepsForm (csr : BitVec 12) (value : Word) (s : State) : KeepsForm s (sysCsrwH1 csr value s) := by
  unfold sysCsrwH1
  split
  · exact ((KeepsForm.refl s).setBrc _).respond _ _
  · exact (KeepsForm.refl s).fail _

theorem rbInitI1_keepsForm {sel : BitVec 8} {base size : Word} {s t : State}
    (h : rbInitI1 sel base size s = .next t) : KeepsForm s t := by
  unfold rbInitI1 at h
  split_ifs at h <;> cases h
  · exact (KeepsForm.refl s).fail _
  · exact ((KeepsForm.refl s).setRb _ _).respond _ _

theorem rbPushP1_keepsForm (sel : BitVec 8) (s : State) : KeepsForm s (rbPushP1 sel s) := by
  simp only [rbPushP1]
  split
  · exact (KeepsForm.refl s).fail _
  · exact (KeepsForm.refl s).advance _ _

theorem rbPopC1_keepsForm (sel : BitVec 8) (s : State) : KeepsForm s (rbPopC1 sel s) := by
  simp only [rbPopC1]
  split
  · exact (KeepsForm.refl s).fail _
  · exact (KeepsForm.refl s).advance _ _

theorem brcSafeWriteW1_keepsForm {addr : Byte} {data length : Word} {s t : State}
    (h : brcSafeWriteW1 addr data length s = .next t) : KeepsForm s t := by
  unfold brcSafeWriteW1 at h
  split_ifs at h
  cases h
  exact (((KeepsForm.refl s).setBrc _).emitBus _).advance _ _

theorem brcSafeWriteW2_keepsForm (length : Word) (s : State) : KeepsForm s (brcSafeWriteW2 length s) := by
  have hdrawn (e : BusEvent) (ph : Phase) (tmp : Temps) : KeepsForm s ((s.emitBus e).advance ph tmp) :=
    ((KeepsForm.refl s).emitBus e).advance ph tmp
  simp only [brcSafeWriteW2]
  split
  · exact (hdrawn _ _ _).respond _ _
  · exact hdrawn _ _ _
  · exact hdrawn _ _ _

theorem recoverV1_keepsForm (s : State) : KeepsForm s (recoverV1 s) := .of_eq rfl rfl rfl

theorem recoverV2_keepsForm (s : State) : KeepsForm s (recoverV2 s) := .of_eq rfl rfl rfl

theorem recoverV3_keepsForm (s : State) : KeepsForm s (recoverV3 s) := .of_eq rfl rfl rfl

theorem recoverV4_keepsForm (s : State) : KeepsForm s (recoverV4 s) := .of_eq rfl rfl rfl

theorem dibInitN1_keepsForm {s t : State} (h : dibInitN1 s = .next t) : KeepsForm s t := by
  unfold dibInitN1 at h
  split_ifs at h
  cases h
  exact ((KeepsForm.refl s).setDib _).respond _ _

theorem dibSendS1_keepsForm {data length : Word} {s t : State} (h : dibSendS1 data length s = .next t) :
    KeepsForm s t := by
  unfold dibSendS1 at h
  split_ifs at h <;> cases h
  · exact KeepsForm.refl s
  · exact ((KeepsForm.refl s).setDib _).respond _ _

theorem dibReadD1_keepsForm {output maxLen : Word} {s t : State} (h : dibReadD1 output maxLen s = .next t) :
    KeepsForm s t := by
  unfold dibReadD1 at h
  split_ifs at h
  cases h
  exact (KeepsForm.refl s).advance _ _

theorem dibReadD2_keepsForm (output maxLen : Word) (s : State) : KeepsForm s (dibReadD2 output maxLen s) :=
  (((KeepsForm.refl s).store _ _).setDib _).advance _ _

/-- Every step of every request keeps the form; only P2 and D2 store a byte. -/
theorem execStep_keepsForm {i : Instr} {s t : State} (h : ExecStep i s t) : KeepsForm s t := by
  have hs := KeepsForm.refl s
  cases h with
  | accepted => exact hs.begin _ _
  | turnedAway => exact hs.fail _
  | noStep => exact hs
  | g1 csr => exact sysCsrrG1_keepsForm csr s
  | h1 csr value => exact sysCsrwH1_keepsForm csr value s
  | i1 _ _ _ _ _ _ h => exact rbInitI1_keepsForm h
  | p1 sel => exact rbPushP1_keepsForm sel s
  | p2 => exact (hs.store _ _).goto _
  | p3 => exact (hs.setRb _ _).respond _ _
  | c1 sel => exact rbPopC1_keepsForm sel s
  | c2 => exact hs.advance _ _
  | c3 => exact (hs.setRb _ _).respond _ _
  | e1 => exact hs.respond _ _
  | f1 => exact hs.respond _ _
  | w1 _ _ _ _ _ _ h => exact brcSafeWriteW1_keepsForm h
  | w2 _ _ length => exact brcSafeWriteW2_keepsForm length s
  | w3 => exact hs.fail _
  | v1 => exact (recoverV1_keepsForm s).gotoRun _
  | v2 => exact (recoverV2_keepsForm s).gotoRun _
  | v3 => exact (recoverV3_keepsForm s).gotoRun _
  | v4 => exact (recoverV4_keepsForm s).gotoRun _
  | x1 => exact hs.respond _ _
  | n1 _ _ _ h => exact dibInitN1_keepsForm h
  | s1 _ _ _ _ _ h => exact dibSendS1_keepsForm h
  | d1 _ _ _ _ _ h => exact dibReadD1_keepsForm h
  | d2 output maxLen => exact dibReadD2_keepsForm output maxLen s
  | d3 => exact hs.respond _ _
  | k1 => exact (hs.setCd _).respond _ _

/-! ## The moves of the other agents -/

theorem accept_keepsForm {i : Instr} {ph : Phase} {s t : State} (h : accept i ph s = .next t) : KeepsForm s t := by
  obtain ⟨-, -, -, rfl⟩ | ⟨-, rfl⟩ := accept_cases h
  · exact (KeepsForm.refl s).begin _ _
  · exact (KeepsForm.refl s).fail _

theorem actingAs_keepsForm (s : State) (p : Port) : KeepsForm s (s.actingAs p) := .of_eq rfl rfl rfl

theorem drawing_keepsForm (s : State) (p : Port) (d : Draw) : KeepsForm s (s.drawing p d) := .of_eq rfl rfl rfl

theorem hwWriteStep_keepsForm (b : Byte) (s : State) : KeepsForm s (hwWriteStep b s) := by
  unfold hwWriteStep
  split
  · exact ((KeepsForm.refl s).store _ _).setDib _
  · exact KeepsForm.refl s

theorem txByteStep_keepsForm (s : State) : KeepsForm s (txByteStep s) := by
  unfold txByteStep
  split <;> exact .of_eq rfl rfl rfl

theorem txDoneStep_keepsForm (s : State) : KeepsForm s (txDoneStep s) := by
  unfold txDoneStep
  split <;> exact .of_eq rfl rfl rfl

theorem syncHStep_keepsForm (i : Nat) (s : State) : KeepsForm s (syncHStep i s) := by
  unfold syncHStep
  split
  · exact KeepsForm.refl s
  · exact (KeepsForm.refl s).setRb _ _

theorem syncTStep_keepsForm (i : Nat) (s : State) : KeepsForm s (syncTStep i s) := by
  unfold syncTStep
  split
  · exact KeepsForm.refl s
  · exact (KeepsForm.refl s).setRb _ _

theorem syncDStep_keepsForm (s : State) : KeepsForm s (syncDStep s) := by
  unfold syncDStep
  split <;> exact .of_eq rfl rfl rfl

/-- Reset builds as many instances as there were and leaves memory alone (R44). -/
theorem resetStep_keepsForm (x y : Bool) (acc : List Byte) (s : State) : KeepsForm s (resetStep x y acc s) :=
  ⟨rfl, List.length_replicate, id⟩

/-- Every move of every agent keeps the form. -/
theorem moveStep_keepsForm {m : Move} {s t : State} (h : MoveStep m s t) : KeepsForm s t := by
  cases h with
  | ignored | idle | envRead => exact KeepsForm.refl s
  | undecoded p => exact (actingAs_keepsForm s p).fail _
  | presented p _ _ _ _ _ _ _ h => exact (actingAs_keepsForm s p).trans (accept_keepsForm h)
  | served p d _ _ _ _ h => exact (drawing_keepsForm s p d).trans (execStep_keepsForm h)
  | hwWrite b => exact hwWriteStep_keepsForm b s
  | txByte => exact txByteStep_keepsForm s
  | txDone => exact txDoneStep_keepsForm s
  | syncH i => exact syncHStep_keepsForm i s
  | syncT i => exact syncTStep_keepsForm i s
  | syncD => exact syncDStep_keepsForm s
  | envWrite a v => exact (KeepsForm.refl s).store a v
  | reset x y acc => exact resetStep_keepsForm x y acc s

/-! ## The step of the machine -/

theorem popMove_keepsForm (s : State) : KeepsForm s s.popMove := by
  obtain ⟨hcfg, hrb, -, -, -, -, -, hmem, -⟩ := State.popMove_keeps s
  exact .of_eq hcfg hrb hmem

theorem step_keepsForm {s t : State} (h : step s = .next t) : KeepsForm s t :=
  (popMove_keepsForm s).trans (moveStep_keepsForm (apply_cases h))

/-- Settles O56: every move keeps the form, and so does taking it from the script. -/
theorem parametersAndMemoryFormAreKept : Obligations.ParametersAndMemoryFormAreKept := by
  intro s t h
  obtain ⟨hcfg, hn, hmem⟩ := step_keepsForm h
  exact ⟨hcfg, hn, hmem⟩

end Sys2Proof.Proofs
end

section
/-! PROOFS. Family 10_state.md, what its invariants need of the steps: which parts of the state a step of a request may
change and how it leaves the acting port, said once for `exec`; and the same for the agents that need no request. -/

namespace Sys2Proof.Proofs

open Sys2Proof.Machine Sys2Proof.Safety

/-! ## What a frame gives -/

theorem Frame.cfg {c : List Part} {s t : State} (h : Frame c s t) : t.cfg = s.cfg := h.1

theorem Frame.nRb {c : List Part} {s t : State} (h : Frame c s t) : t.nRb = s.nRb := h.2.1

theorem Frame.port {c : List Part} {s t : State} (h : Frame c s t) {p : Port} (hp : p ≠ s.env.acting) :
    t.port p = s.port p := h.2.2.2.1 p hp

theorem Frame.part {c : List Part} {s t : State} (h : Frame c s t) {part : Part} (hpart : part ∉ c) :
    samePart s t part := h.2.2.2.2 part hpart

theorem AgentFrame.cfg {c : List Part} {s t : State} (h : AgentFrame c s t) : t.cfg = s.cfg := h.1

theorem AgentFrame.port {c : List Part} {s t : State} (h : AgentFrame c s t) (p : Port) : t.port p = s.port p :=
  h.2.2.2.1 p

theorem AgentFrame.part {c : List Part} {s t : State} (h : AgentFrame c s t) {part : Part} (hpart : part ∉ c) :
    samePart s t part := h.2.2.2.2 part hpart

/-! ## A port written twice -/

@[simp] theorem State.setRb_setRb (s : State) (i : Nat) (r q : Rb) : (s.setRb i r).setRb i q = s.setRb i q := by
  simp [State.setRb]

theorem State.setPort_setPort (s : State) (p : Port) (c d : PortRec) :
    (s.setPort p c).setPort p d = s.setPort p d := by
  cases p with
  | main => rfl
  | prod i =>
    by_cases h : i < s.nRb
    · simp only [State.setPort, State.rbAt_setRb_self h, State.setRb_setRb]
    · simp [State.setPort, State.setRb_of_ge (Nat.not_lt.mp h)]

/-- An answer overwrites whatever the request had come to. -/
theorem State.respond_advance (s : State) (ph : Phase) (tmp : Temps) (st : Status) (v : Word) :
    (s.advance ph tmp).respond st v = s.respond st v := by
  unfold State.respond
  rw [State.advance_env, State.advance]
  split
  · exact State.setPort_setPort _ _ _ _
  · rfl

/-! ## The effect of a step of a request -/

/-- How a step of request `i` leaves the acting port: as it was, answered, with `i` accepted, or at a step of `i`. -/
inductive PortStep (i : Instr) (s t : State) : Prop where
  | stays : t.port s.env.acting = s.port s.env.acting → PortStep i s t
  | answers (st : Status) (v : Word) : Answered s t st v → PortStep i s t
  | begins : admits s.env.acting i = true → i.wellFormed s.nRb = true →
      t.port s.env.acting =
        { flight := some { instr := i, phase := firstStep i, temps := Temps.zero }, resp := none } → PortStep i s t
  | goesOn (ph : Phase) (tmp : Temps) : ph ∈ stepsOf i → GoesOn s t ph tmp → PortStep i s t

/-- The effect of a step of request `i`: on the acting port, and on the parts of the state. -/
structure StepEffect (changed : List Part) (i : Instr) (s t : State) : Prop where
  port : PortStep i s t
  frame : Frame changed s t

namespace StepEffect

variable {c : List Part} {i : Instr} {s u : State}

theorem refl (c : List Part) (i : Instr) (s : State) : StepEffect c i s s := ⟨.stays rfl, Frame.refl s c⟩

theorem respond (st : Status) (v : Word) (h : AgentFrame c s u) (hp : s.hasPort s.env.acting = true) :
    StepEffect c i s (u.respond st v) :=
  have ⟨hans, hfr⟩ := respond_after st v h hp
  ⟨.answers st v hans, hfr⟩

theorem fail (st : Status) (h : AgentFrame c s u) (hp : s.hasPort s.env.acting = true) :
    StepEffect c i s (u.fail st) := respond st 0 h hp

theorem advance {ph ph' : Phase} (tmp : Temps) (h : AgentFrame c s u) (hph : s.phase = some ph')
    (hmem : ph ∈ stepsOf i) : StepEffect c i s (u.advance ph tmp) :=
  have ⟨hgo, hfr⟩ := advance_after ph tmp h hph
  ⟨.goesOn ph tmp hmem hgo, hfr⟩

theorem begin (hadm : admits s.env.acting i = true) (hwf : i.wellFormed s.nRb = true)
    (hp : s.hasPort s.env.acting = true) : StepEffect [] i s (s.begin i (firstStep i)) :=
  ⟨.begins hadm hwf (State.port_setPort_self hp), State.begin_frame s i _⟩

theorem weaken {c' : List Part} {t : State} (h : StepEffect c i s t) (hc : ∀ p, p ∈ c → p ∈ c') :
    StepEffect c' i s t := ⟨h.port, Frame.weaken h.frame hc⟩

end StepEffect

/-! ## The steps of the requests -/

section
variable {s t : State} {sel : BitVec 8}

theorem sysCsrrG1_effect (csr : BitVec 12) (hp : s.hasPort s.env.acting = true) :
    StepEffect [] (.sysCsrr csr) s (sysCsrrG1 csr s) := by
  unfold sysCsrrG1
  split
  · exact .respond _ _ (AgentFrame.refl s _) hp
  · exact .fail _ (AgentFrame.refl s _) hp

theorem sysCsrwH1_effect (csr : BitVec 12) (value : Word) (hp : s.hasPort s.env.acting = true) :
    StepEffect [.brc] (.sysCsrw csr value) s (sysCsrwH1 csr value s) := by
  unfold sysCsrwH1
  split
  · exact .respond _ _ (AgentFrame.setBrc s _) hp
  · exact .fail _ (AgentFrame.refl s _) hp

theorem Rb.initialised_port (mode : SyncMode) (r : Rb) (base size : Word) :
    (r.initialised mode base size).port = r.port := by
  cases mode <;> rfl

theorem rbInitI1_effect {base size : Word} (h : rbInitI1 sel base size s = .next t)
    (hp : s.hasPort s.env.acting = true) : StepEffect [.ring sel.toNat] (.rbInit sel base size) s t := by
  unfold rbInitI1 at h
  split_ifs at h <;> cases h
  · exact .fail _ (AgentFrame.refl s _) hp
  · exact .respond _ _ (AgentFrame.setRb (Rb.initialised_port _ _ _ _)) hp

theorem rbPushP1_effect (byte : Byte) (hph : s.phase = some .p1) :
    StepEffect [] (.rbPush sel byte) s (rbPushP1 sel s) := by
  simp only [rbPushP1]
  split
  · exact .fail _ (AgentFrame.refl s _) (State.hasPort_of_phase hph)
  · exact .advance _ (AgentFrame.refl s _) hph (by simp [stepsOf])

theorem rbPopC1_effect (hph : s.phase = some .c1) : StepEffect [] (.rbPop sel) s (rbPopC1 sel s) := by
  simp only [rbPopC1]
  split
  · exact .fail _ (AgentFrame.refl s _) (State.hasPort_of_phase hph)
  · exact .advance _ (AgentFrame.refl s _) hph (by simp [stepsOf])

/-- Step W1 when it goes on: the address is latched and the write issued. -/
theorem brcSafeWriteW1_next {addr : Byte} {data length : Word} (h : brcSafeWriteW1 addr data length s = .next t) :
    ∃ e tmp, t = (({ s with brc := { s.brc with addr := addr } } : State).emitBus e).advance .w2 tmp := by
  unfold brcSafeWriteW1 at h
  split_ifs at h
  injection h with h
  exact ⟨_, _, h.symm⟩

theorem brcSafeWriteW1_frame (s : State) (addr : Byte) (e : BusEvent) :
    AgentFrame [.brc, .busTrace] s (({ s with brc := { s.brc with addr := addr } } : State).emitBus e) :=
  AgentFrame.trans (AgentFrame.weaken (AgentFrame.setBrc s _) (by simp))
    (AgentFrame.weaken (AgentFrame.emitBus _ e) (by simp))

/-- Step W2: the outcome is on the trace, and the request is answered or the recovery run starts. -/
theorem brcSafeWriteW2_cases (length : Word) (s : State) :
    ∃ e, (∃ n, brcSafeWriteW2 length s = (s.emitBus e).respond .ok n) ∨
      ∃ tmp, brcSafeWriteW2 length s = (s.emitBus e).advance .v1 tmp := by
  simp only [brcSafeWriteW2]
  split
  · exact ⟨_, .inl ⟨_, State.respond_advance _ _ _ _ _⟩⟩
  · exact ⟨_, .inr ⟨_, rfl⟩⟩
  · exact ⟨_, .inr ⟨_, rfl⟩⟩

theorem brcSafeWriteW2_effect (addr : Byte) (data length : Word) (hph : s.phase = some .w2) :
    StepEffect [.busTrace] (.brcSafeWrite addr data length) s (brcSafeWriteW2 length s) := by
  obtain ⟨e, ⟨n, h⟩ | ⟨tmp, h⟩⟩ := brcSafeWriteW2_cases length s <;> rw [h]
  · exact .respond _ _ (AgentFrame.emitBus s e) (State.hasPort_of_phase hph)
  · exact .advance _ (AgentFrame.emitBus s e) hph (by simp [stepsOf])

/-- Wherever the recovery machine stands, the step that follows is one of the request's own. -/
theorem nextStep_mem_stepsOf {i : Instr} {done : Phase} (h : recoveryOf i = some done) (st : BrcState) :
    st.nextStep done ∈ stepsOf i := by
  cases i <;> cases h <;> cases st <;> simp [stepsOf, BrcState.nextStep]

theorem gotoRun_effect {c : List Part} {i : Instr} {u : State} {done ph : Phase} (h : AgentFrame c s u)
    (hph : s.phase = some ph) (hdone : recoveryOf i = some done) : StepEffect c i s (u.gotoRun done) :=
  .advance _ h hph (nextStep_mem_stepsOf hdone _)

theorem dibInitN1_effect (h : dibInitN1 s = .next t) (hp : s.hasPort s.env.acting = true) :
    StepEffect [.dib] .dibInit s t := by
  unfold dibInitN1 at h
  split_ifs at h
  cases h
  exact .respond _ _ (AgentFrame.setDib s _) hp

theorem dibSendS1_effect {data length : Word} (h : dibSendS1 data length s = .next t)
    (hp : s.hasPort s.env.acting = true) : StepEffect [.dib] (.dibSend data length) s t := by
  unfold dibSendS1 at h
  split_ifs at h <;> cases h
  · exact .refl _ _ s
  · exact .respond _ _ (AgentFrame.setDib s _) hp

theorem dibReadNext_mem_stepsOf (rd prod cnt output maxLen : Word) :
    dibReadNext rd prod cnt maxLen ∈ stepsOf (.dibRead output maxLen) := by
  unfold dibReadNext
  split <;> simp [stepsOf]

theorem dibReadD1_effect {output maxLen : Word} (h : dibReadD1 output maxLen s = .next t)
    (hph : s.phase = some .d1) : StepEffect [] (.dibRead output maxLen) s t := by
  unfold dibReadD1 at h
  split_ifs at h
  cases h
  exact .advance _ (AgentFrame.refl s _) hph (dibReadNext_mem_stepsOf _ _ _ _ _)

theorem dibReadD2_effect (output maxLen : Word) (hph : s.phase = some .d2) :
    StepEffect [.mem, .dib] (.dibRead output maxLen) s (dibReadD2 output maxLen s) :=
  .advance _ (AgentFrame.trans (AgentFrame.weaken (AgentFrame.store s _ _) (by simp))
    (AgentFrame.weaken (AgentFrame.setDib _ _) (by simp))) hph (dibReadNext_mem_stepsOf _ _ _ _ _)

end

/-! ## `exec` -/

/-- The parts of the state the step of request `i` named by the acting port's phase may change; step D0 changes none. -/
def mayChange (i : Instr) : Option Phase → List Part
  | some .h1 => [.brc]
  | some .i1 | some .p3 | some .c3 => (i.instanceOf.map Part.ring).toList
  | some .p2 => [.mem]
  | some .w1 => [.brc, .busTrace]
  | some .w2 => [.busTrace]
  | some .v1 | some .v2 | some .v3 => [.pins, .brc, .pinTrace]
  | some .v4 => [.pins, .brc, .pinTrace, .busTrace]
  | some .n1 | some .s1 => [.dib]
  | some .d2 => [.mem, .dib]
  | some .k1 => [.cd]
  | _ => []

/-- The effect of every step of every request on a port that exists. -/
theorem execStep_effect {i : Instr} {s t : State} (h : ExecStep i s t) (hp : s.hasPort s.env.acting = true) :
    StepEffect (mayChange i s.phase) i s t := by
  have hs (c : List Part) : AgentFrame c s s := AgentFrame.refl s c
  cases h with
  | accepted _ _ _ hadm hwf => exact (StepEffect.begin hadm hwf hp).weaken (by simp)
  | turnedAway => exact .fail _ (hs _) hp
  | noStep => exact .refl _ _ s
  | g1 csr _ hph => exact hph ▸ sysCsrrG1_effect csr hp
  | h1 csr value _ hph => exact hph ▸ sysCsrwH1_effect csr value hp
  | i1 _ _ _ _ _ hph h => exact hph ▸ rbInitI1_effect h hp
  | p1 _ byte _ hph => exact hph ▸ rbPushP1_effect byte hph
  | p2 _ _ _ hph => exact hph ▸ .advance _ (AgentFrame.store s _ _) hph (by simp [stepsOf])
  | p3 _ _ _ hph => exact hph ▸ .respond _ _ (AgentFrame.setRb rfl) hp
  | c1 _ _ hph => exact hph ▸ rbPopC1_effect hph
  | c2 _ _ hph => exact hph ▸ .advance _ (hs _) hph (by simp [stepsOf])
  | c3 _ _ hph => exact hph ▸ .respond _ _ (AgentFrame.setRb rfl) hp
  | e1 => exact .respond _ _ (hs _) hp
  | f1 => exact .respond _ _ (hs _) hp
  | w1 addr _ _ _ _ hph h =>
    obtain ⟨e, tmp, rfl⟩ := brcSafeWriteW1_next h
    exact hph ▸ .advance _ (brcSafeWriteW1_frame s addr e) hph (by simp [stepsOf])
  | w2 addr data length _ hph => exact hph ▸ brcSafeWriteW2_effect addr data length hph
  | w3 => exact .fail _ (hs _) hp
  | v1 _ _ _ hdone hph => exact hph ▸ gotoRun_effect (recoverV1_frame s) hph hdone
  | v2 _ _ _ hdone hph => exact hph ▸ gotoRun_effect (recoverV2_frame s) hph hdone
  | v3 _ _ _ hdone hph => exact hph ▸ gotoRun_effect (recoverV3_frame s) hph hdone
  | v4 _ _ _ hdone hph => exact hph ▸ gotoRun_effect (recoverV4_frame s) hph hdone
  | x1 => exact .respond _ _ (hs _) hp
  | n1 _ _ hph h => exact hph ▸ dibInitN1_effect h hp
  | s1 _ _ _ _ hph h => exact hph ▸ dibSendS1_effect h hp
  | d1 _ _ _ _ hph h => exact hph ▸ dibReadD1_effect h hph
  | d2 output maxLen _ hph => exact hph ▸ dibReadD2_effect output maxLen hph
  | d3 => exact .respond _ _ (hs _) hp
  | k1 _ _ hph => exact hph ▸ .respond _ _ (AgentFrame.setCd s _) hp

end Sys2Proof.Proofs
end

section
/-! PROOFS. Family 10_state.md: an invariant of the machine is followed through `step` once (`KeptBySteps`); then the
requests in flight (O57). -/

namespace Sys2Proof.Proofs

open Sys2Proof.Machine Sys2Proof.Safety

/-! ## An invariant, followed through every move -/

/-- The parts of the state the step of an agent that needs no request may change; none for the other moves. -/
def agentParts : Move → Option (List Part)
  | .request _ _ | .port _ _ | .reset _ _ _ => none
  | .hwWrite _ => some [.mem, .dib]
  | .txByte => some [.dib, .txOut]
  | .txDone | .syncD => some [.dib]
  | .syncH i | .syncT i => some [.ring i]
  | .envWrite _ _ => some [.mem]
  | .envRead _ => some []

theorem moveStep_agentFrame {m : Move} {c : List Part} {s t : State} (h : MoveStep m s t)
    (hc : agentParts m = some c) : AgentFrame c s t := by
  cases h <;> cases hc
  case hwWrite b => exact hwWriteStep_frame b s
  case txByte => exact txByteStep_frame s
  case txDone => exact txDoneStep_frame s
  case syncH i => exact syncHStep_frame i s
  case syncT i => exact syncTStep_frame i s
  case syncD => exact syncDStep_frame s
  case envWrite a v _ => exact AgentFrame.store s a v
  case envRead => exact AgentFrame.refl s _

/-- What has to be shown of an invariant: it reads no field of the environment, it is kept by every step of the request
in flight or accepted on a port that exists, by the answer to a word that matches no row, by every other agent's
step and by reset. -/
structure KeptBySteps (Inv : State → Prop) : Prop where
  env (s : State) (e : Env) : Inv s → Inv { s with env := e }
  exec (i : Instr) (s t : State) : Inv s → s.hasPort s.env.acting = true →
    (∀ f, s.flight = some f → f.instr = i) → ExecStep i s t → Inv t
  badWord (s : State) : Inv s → s.hasPort s.env.acting = true → s.flight = none → Inv (s.fail .badRequest)
  agent (m : Move) (c : List Part) (s t : State) : Inv s → agentParts m = some c → MoveStep m s t → Inv t
  reset (x y : Bool) (acc : List Byte) (s : State) : Inv s → Inv (resetStep x y acc s)

theorem State.flight_actingAs_of_idle {s : State} {p : Port} (h : s.busy p = false) :
    (s.actingAs p).flight = none := by
  simpa [State.flight, State.busy] using h

theorem State.hasPort_actingAs (s : State) (p q : Port) : (s.actingAs p).hasPort q = s.hasPort q := by cases q <;> rfl

theorem State.hasPort_drawing (s : State) (p q : Port) (d : Draw) : (s.drawing p d).hasPort q = s.hasPort q := by
  cases q <;> rfl

theorem State.popMove_eq (s : State) : ∃ e, s.popMove = { s with env := e } := by
  unfold State.popMove
  split <;> exact ⟨_, rfl⟩

theorem KeptBySteps.move {Inv : State → Prop} (hinv : KeptBySteps Inv) {m : Move} {s t : State} (hs : Inv s)
    (h : MoveStep m s t) : Inv t := by
  have hm := h
  cases h with
  | ignored | idle => exact hs
  | undecoded p _ _ _ hp hb =>
    exact hinv.badWord (s.actingAs p) (hinv.env s _ hs) (State.hasPort_actingAs s p p ▸ hp)
      (State.flight_actingAs_of_idle hb)
  | presented p _ i _ _ hp hb _ h =>
    have hfl := State.flight_actingAs_of_idle hb
    exact hinv.exec i (s.actingAs p) t (hinv.env s _ hs) (State.hasPort_actingAs s p p ▸ hp) (by simp [hfl])
      (.of_accept (State.phase_none hfl) h)
  | served p d f _ _ hf h =>
    have hreq : (s.drawing p d).flight = some f := by simpa [State.flight] using hf
    exact hinv.exec f.instr (s.drawing p d) t (hinv.env s _ hs)
      (State.hasPort_drawing s p p d ▸ State.hasPort_of_flight hf) (by simp [hreq]) h
  | hwWrite | txByte | txDone | syncH | syncT | syncD | envWrite | envRead => exact hinv.agent _ _ s _ hs rfl hm
  | reset x y acc => exact hinv.reset x y acc s hs

theorem KeptBySteps.step {Inv : State → Prop} (hinv : KeptBySteps Inv) {s t : State} (hs : Inv s)
    (h : step s = .next t) : Inv t := by
  obtain ⟨e, he⟩ := State.popMove_eq s
  exact hinv.move (he ▸ hinv.env s e hs) (apply_cases h)

/-! ## The requests in flight -/

theorem flightOk_of_idle {n : Nat} {p : Port} {rec : PortRec} (h : rec.flight = none) : flightOk n p rec = true := by
  simp [flightOk, h]

theorem flightOk_iff {n : Nat} {p : Port} {rec : PortRec} {f : Flight} (h : rec.flight = some f) :
    flightOk n p rec = true ↔ admits p f.instr = true ∧ f.instr.wellFormed n = true ∧ f.phase ∈ stepsOf f.instr := by
  simp [flightOk, h, and_assoc]

theorem firstStep_mem_stepsOf (i : Instr) : firstStep i ∈ stepsOf i := by
  cases i <;> simp [firstStep, stepsOf]

/-- The requests in flight are in order on every port; a port that does not exist holds none. -/
theorem flightsOk_iff {s : State} : flightsOk s = true ↔ ∀ p, flightOk s.nRb p (s.port p) = true := by
  simp only [flightsOk, Bool.and_eq_true, List.all_eq_true, List.mem_range]
  constructor
  · rintro ⟨hmain, hprod⟩ (i | _)
    · by_cases hi : i < s.nRb
      · exact hprod i hi
      · rw [State.port, State.rbAt_of_ge (Nat.not_lt.mp hi)]
        exact flightOk_of_idle rfl
    · exact hmain
  · exact fun h => ⟨h .main, fun i _ => h (.prod i)⟩

theorem flightsOk_of_idle {s : State} (h : ∀ p, (s.port p).flight = none) : flightsOk s = true :=
  flightsOk_iff.mpr fun p => flightOk_of_idle (h p)

theorem flightsOk_of_frame {c : List Part} {s t : State} (hfr : Frame c s t) (hs : flightsOk s = true)
    (hact : flightOk s.nRb s.env.acting (t.port s.env.acting) = true) : flightsOk t = true := by
  rw [flightsOk_iff] at hs ⊢
  intro p
  rw [Frame.nRb hfr]
  by_cases hp : p = s.env.acting
  · exact hp ▸ hact
  · exact Frame.port hfr hp ▸ hs p

theorem flightsOk_of_agentFrame {c : List Part} {s t : State} (hfr : AgentFrame c s t) (hs : flightsOk s = true) :
    flightsOk t = true :=
  flightsOk_of_frame (Frame.of_agent hfr) hs (AgentFrame.port hfr _ ▸ flightsOk_iff.mp hs _)

/-- The request in flight on the acting port, when the requests are in order. -/
theorem flightsOk_acting {s : State} {f : Flight} (hs : flightsOk s = true) (hf : s.flight = some f) :
    admits s.env.acting f.instr = true ∧ f.instr.wellFormed s.nRb = true ∧ f.phase ∈ stepsOf f.instr :=
  (flightOk_iff hf).mp (flightsOk_iff.mp hs _)

theorem execStep_flightsOk {i : Instr} {s t : State} (hs : flightsOk s = true) (hp : s.hasPort s.env.acting = true)
    (hreq : ∀ f, s.flight = some f → f.instr = i) (h : ExecStep i s t) : flightsOk t = true := by
  obtain ⟨hport, hfr⟩ := execStep_effect h hp
  refine flightsOk_of_frame hfr hs ?_
  cases hport with
  | stays hsame => exact hsame ▸ flightsOk_iff.mp hs _
  | answers st v hans => exact flightOk_of_idle (by rw [hans])
  | begins hadm hwf hbegun => exact (flightOk_iff (by rw [hbegun])).mpr ⟨hadm, hwf, firstStep_mem_stepsOf i⟩
  | goesOn ph tmp hmem hgo =>
    obtain ⟨f, hf, hnext⟩ := hgo
    obtain ⟨hadm, hwf, -⟩ := flightsOk_acting hs hf
    have hmem : ph ∈ stepsOf f.instr := hreq f hf ▸ hmem
    exact (flightOk_iff (congrArg PortRec.flight hnext)).mpr ⟨hadm, hwf, hmem⟩

theorem resetStep_port (x y : Bool) (acc : List Byte) (s : State) (p : Port) :
    (resetStep x y acc s).port p = (State.resetWith s.cfg s.nRb).port p := by
  cases p <;> rfl

theorem State.resetWith_rbAt (c : Params) (n i : Nat) : (State.resetWith c n).rbAt i = Rb.reset := by
  by_cases hi : i < n
  · simp [State.rbAt, State.resetWith, hi]
  · exact State.rbAt_of_ge (by simpa [State.nRb, State.resetWith] using hi)

theorem State.resetWith_port (c : Params) (n : Nat) (p : Port) : (State.resetWith c n).port p = PortRec.idle := by
  cases p with
  | main => rfl
  | prod i => simp [State.port, State.resetWith_rbAt, Rb.reset]

theorem flightsOk_kept : KeptBySteps fun s => flightsOk s = true where
  env _ _ hs := hs
  exec _ _ _ := execStep_flightsOk
  badWord s hs hp _ :=
    have hans : Answered s (s.fail .badRequest) .badRequest 0 := State.respond_answered hp
    flightsOk_of_frame (State.respond_frame s .badRequest 0) hs (flightOk_of_idle (by rw [hans]))
  agent _ _ _ _ hs hc h := flightsOk_of_agentFrame (moveStep_agentFrame h hc) hs
  reset x y acc s _ := flightsOk_of_idle fun p => by rw [resetStep_port, State.resetWith_port]; rfl

/-- Settles O57: `flightsOk` reads the ports alone, and every step leaves the acting port idle, as it was, or at a step
of a request it admits. -/
theorem flightsStayInOrder : Obligations.FlightsStayInOrder :=
  fun _ _ hs h => flightsOk_kept.step hs h

end Sys2Proof.Proofs
end

section
/-! PROOFS. Family 10_state.md: the recovery machine (O31). -/

namespace Sys2Proof.Proofs

open Sys2Proof.Machine Sys2Proof.Safety

/-! ## The registers and pins of the recovery machine -/

/-- The registers and pins of the recovery machine are in order, whatever step port M is at. -/
structure RunOk (b : Brc) (p : Pins) : Prop where
  pulses : b.pulses ≤ 9#4
  counter : b.n ≤ 9#4
  inPulse : b.state = .pulseClock → b.n < b.pulses
  latches : p.sdaOut = true ∧ p.sclOut = true
  modes : (p.sdaMode, p.sclMode) = pinModesAt b.state

theorem recoveryOk_iff {s : State} :
    recoveryOk s = true ↔ RunOk s.brc s.pins ∧ s.brc.state = recoveryStateAt (s.main.flight.map Flight.phase) := by
  simp only [recoveryOk, Bool.and_eq_true, Bool.or_eq_true, decide_eq_true_eq]
  constructor
  · rintro ⟨⟨⟨⟨⟨⟨hpulses, hn⟩, hstate⟩, hlt⟩, hsda⟩, hscl⟩, hmodes⟩
    exact ⟨⟨hpulses, hn, hlt.resolve_left ∘ not_not_intro, ⟨hsda, hscl⟩, hmodes⟩, hstate⟩
  · rintro ⟨⟨hpulses, hn, hlt, ⟨hsda, hscl⟩, hmodes⟩, hstate⟩
    exact ⟨⟨⟨⟨⟨⟨hpulses, hn⟩, hstate⟩, Decidable.not_or_of_imp hlt⟩, hsda⟩, hscl⟩, hmodes⟩

/-! ## The steps of the run -/

theorem recoverV1_runOk {s : State} (h : RunOk s.brc s.pins) : RunOk (recoverV1 s).brc (recoverV1 s).pins := by
  obtain ⟨hpulses, -, -, hlatches, -⟩ := h
  have hstate : (recoverV1 s).brc.state = if s.brc.pulses = 0 then .generateStop else .pulseClock := rfl
  have hcounter : (0 : BitVec 4) ≤ 9#4 := by decide
  by_cases hz : s.brc.pulses = 0
  · rw [if_pos hz] at hstate
    exact ⟨hpulses, hcounter, fun h => absurd (hstate.symm.trans h) nofun, hlatches, hstate ▸ rfl⟩
  · rw [if_neg hz] at hstate
    have hpos : 0 < s.brc.pulses := by bv_omega
    exact ⟨hpulses, hcounter, fun _ => hpos, hlatches, hstate ▸ rfl⟩

/-- One more pulse stays within the pulse count, and below it unless the pulses end. -/
theorem recoverV2_runOk {s : State} (h : RunOk s.brc s.pins) (hst : s.brc.state = .pulseClock) :
    RunOk (recoverV2 s).brc (recoverV2 s).pins := by
  obtain ⟨hpulses, -, hlt, ⟨hsda, -⟩, hmodes⟩ := h
  have hlt := hlt hst
  have hle : s.brc.n + 1 ≤ s.brc.pulses := by bv_omega
  have hstate : (recoverV2 s).brc.state =
      if s.env.draw.sample || s.brc.n + 1 = s.brc.pulses then .generateStop else .pulseClock := hst ▸ rfl
  rw [hst] at hmodes
  split at hstate
  · exact ⟨hpulses, BitVec.le_trans hle hpulses, fun h => absurd (hstate.symm.trans h) nofun, ⟨hsda, rfl⟩,
      hstate ▸ hmodes⟩
  · next hmore =>
    have hne : s.brc.n + 1 ≠ s.brc.pulses := fun heq => hmore (by rw [heq]; simp)
    exact ⟨hpulses, BitVec.le_trans hle hpulses, fun _ => BitVec.lt_of_le_ne hle hne, ⟨hsda, rfl⟩, hstate ▸ hmodes⟩

theorem recoverV3_runOk {s : State} (h : RunOk s.brc s.pins) (hst : s.brc.state = .generateStop) :
    RunOk (recoverV3 s).brc (recoverV3 s).pins := by
  have hscl : s.pins.sclMode = .output := by simpa [hst, pinModesAt] using congrArg Prod.snd h.modes
  exact ⟨h.pulses, h.counter, nofun, ⟨rfl, rfl⟩, congrArg (Prod.mk PinMode.output) hscl⟩

theorem recoverV4_runOk {s : State} (h : RunOk s.brc s.pins) : RunOk (recoverV4 s).brc (recoverV4 s).pins :=
  ⟨h.pulses, h.counter, nofun, h.latches, rfl⟩

/-- A write of a control register keeps the pulse count in bounds (R41) and touches neither counter nor state. -/
theorem Brc.csrWrite_runOk {b b' : Brc} {p : Pins} {csr : BitVec 12} {value : Word} (h : RunOk b p)
    (hw : b.csrWrite csr value = some b') (hidle : b.state = .idle) : RunOk b' p ∧ b'.state = b.state := by
  have hclamp : clampPulses value ≤ 9#4 := by
    simp only [clampPulses]
    split
    · exact BitVec.le_refl _
    · exact BitVec.not_lt.mp ‹_›
  obtain ⟨hpulses, hn, -, hlatches, hmodes⟩ := h
  have hnot : b.state ≠ .pulseClock := by simp [hidle]
  unfold Brc.csrWrite at hw
  split at hw <;> cases hw <;> refine ⟨⟨?_, hn, fun h => absurd h hnot, hlatches, hmodes⟩, rfl⟩
  exacts [hpulses, hpulses, hclamp, hpulses]

/-! ## Port M before and after a step -/

section
variable {i : Instr} {s t u : State} {c : List Part}

/-- The recovery machine is in order when its registers are and its state is the one port M's next step asks for. -/
theorem recoveryOk_at {ph : Option Phase} (hph : t.main.flight.map Flight.phase = ph) (hrun : RunOk t.brc t.pins)
    (hst : t.brc.state = recoveryStateAt ph) : recoveryOk t = true :=
  recoveryOk_iff.mpr ⟨hrun, hph ▸ hst⟩

theorem recoveryOk_congr (hs : recoveryOk s = true) (hmain : t.main = s.main) (hbrc : t.brc = s.brc)
    (hpins : t.pins = s.pins) : recoveryOk t = true := by
  rw [recoveryOk_iff] at hs ⊢
  rwa [hmain, hbrc, hpins]

/-- When port M acts, its record after the step is the one the step leaves on the acting port. -/
theorem mainPhase_of_port {rec : PortRec} (hmain : s.env.acting = .main) (h : t.port s.env.acting = rec) :
    t.main.flight.map Flight.phase = rec.flight.map Flight.phase := by
  rw [hmain] at h
  exact congrArg (fun rec : PortRec => rec.flight.map Flight.phase) h

theorem mainPhase_eq_phase (hmain : s.env.acting = .main) : s.main.flight.map Flight.phase = s.phase :=
  mainPhase_of_port hmain rfl

theorem mainPhase_of_goesOn {ph : Phase} {tmp : Temps} (hmain : s.env.acting = .main) (h : GoesOn s t ph tmp) :
    t.main.flight.map Flight.phase = some ph := by
  obtain ⟨f, -, h⟩ := h
  exact mainPhase_of_port hmain h

theorem recoveryOk_respond {st : Status} {v : Word} (hmain : s.env.acting = .main) (hfr : AgentFrame c s u)
    (hrun : RunOk u.brc u.pins) (hidle : u.brc.state = .idle) : recoveryOk (u.respond st v) = true :=
  have ⟨hans, _⟩ := respond_after st v hfr (by rw [hmain]; rfl)
  recoveryOk_at (mainPhase_of_port hmain hans) (by simpa using hrun) (by simpa [recoveryStateAt] using hidle)

theorem recoveryOk_advance {ph ph' : Phase} {tmp : Temps} (hmain : s.env.acting = .main) (hfr : AgentFrame c s u)
    (hph : s.phase = some ph') (hrun : RunOk u.brc u.pins) (hst : u.brc.state = recoveryStateAt (some ph)) :
    recoveryOk (u.advance ph tmp) = true :=
  have ⟨hgo, _⟩ := advance_after ph tmp hfr hph
  recoveryOk_at (mainPhase_of_goesOn hmain hgo) (by simpa using hrun) (by simpa using hst)

/-! ## Where the recovery machine is idle -/

theorem recoveryStateAt_firstStep (i : Instr) : recoveryStateAt (some (firstStep i)) = .idle := by
  cases i <;> rfl

theorem recoveryStateAt_of_not_recovery (hi : recoveryOf i = none) :
    ∀ ph ∈ stepsOf i, recoveryStateAt (some ph) = .idle := by
  cases i <;> cases hi <;> simp [stepsOf, recoveryStateAt]

/-- The step that follows in a state of the recovery machine is the one at which the machine is in that state. -/
theorem recoveryStateAt_nextStep {done : Phase} (hi : recoveryOf i = some done) (st : BrcState) :
    recoveryStateAt (some (st.nextStep done)) = st := by
  cases i <;> cases hi <;> cases st <;> rfl

/-! ## Requests that make no recovery run -/

/-- Only step H1 of them touches the recovery machine, and only its settings. -/
theorem execStep_runOk_of_not_recovery (hrun : RunOk s.brc s.pins) (hidle : s.brc.state = .idle)
    (hp : s.hasPort s.env.acting = true) (hi : recoveryOf i = none) (h : ExecStep i s t) :
    RunOk t.brc t.pins ∧ t.brc.state = .idle := by
  have hfr := (execStep_effect h hp).frame
  have hkept (hbrc : .brc ∉ mayChange i s.phase) (hpins : .pins ∉ mayChange i s.phase) :
      RunOk t.brc t.pins ∧ t.brc.state = .idle := by
    rw [show t.brc = s.brc from Frame.part hfr hbrc, show t.pins = s.pins from Frame.part hfr hpins]
    exact ⟨hrun, hidle⟩
  cases h with
  | noStep => exact ⟨hrun, hidle⟩
  | h1 csr value =>
    unfold sysCsrwH1
    split
    · next b hw =>
      obtain ⟨hb, hstate⟩ := Brc.csrWrite_runOk hrun hw hidle
      simpa using ⟨hb, hstate.trans hidle⟩
    · simpa using ⟨hrun, hidle⟩
  | w1 | w2 | w3 | x1 => cases hi
  | v1 _ _ _ hdone | v2 _ _ _ hdone | v3 _ _ _ hdone | v4 _ _ _ hdone => cases hi.symm.trans hdone
  | _ => exact hkept (by simp [mayChange, Instr.instanceOf, *]) (by simp [mayChange, Instr.instanceOf, *])

theorem execStep_recoveryOk_of_not_recovery (hs : recoveryOk s = true) (hmain : s.env.acting = .main)
    (hown : ∀ ph, s.phase = some ph → ph ∈ stepsOf i) (hi : recoveryOf i = none) (h : ExecStep i s t) :
    recoveryOk t = true := by
  have hp : s.hasPort s.env.acting = true := by rw [hmain]; rfl
  obtain ⟨hrun, hst⟩ := recoveryOk_iff.mp hs
  have hbefore : recoveryStateAt s.phase = .idle := by
    cases hph : s.phase with
    | none => rfl
    | some ph => exact recoveryStateAt_of_not_recovery hi ph (hown ph hph)
  rw [mainPhase_eq_phase hmain] at hst
  obtain ⟨hrun, hidle⟩ := execStep_runOk_of_not_recovery hrun (hst.trans hbefore) hp hi h
  cases (execStep_effect h hp).port with
  | stays hsame => exact recoveryOk_at (mainPhase_of_port hmain hsame) hrun (hidle.trans hbefore.symm)
  | answers st v hans => exact recoveryOk_at (mainPhase_of_port hmain hans) hrun hidle
  | begins _ _ hbegun =>
    exact recoveryOk_at (mainPhase_of_port hmain hbegun) hrun (hidle.trans (recoveryStateAt_firstStep i).symm)
  | goesOn ph tmp hmem hgo =>
    exact recoveryOk_at (mainPhase_of_goesOn hmain hgo) hrun
      (hidle.trans (recoveryStateAt_of_not_recovery hi ph hmem).symm)

/-! ## Requests that make a recovery run -/

theorem RunOk.setAddr {b : Brc} {p : Pins} (h : RunOk b p) (addr : Byte) : RunOk { b with addr := addr } p :=
  ⟨h.pulses, h.counter, h.inPulse, h.latches, h.modes⟩

/-- A step of the run that leaves the registers in order goes on to the step the machine's state asks for. -/
theorem recoveryOk_gotoRun {done ph : Phase} (hmain : s.env.acting = .main) (hfr : AgentFrame c s u)
    (hph : s.phase = some ph) (hi : recoveryOf i = some done) (hrun : RunOk u.brc u.pins) :
    recoveryOk (u.gotoRun done) = true :=
  recoveryOk_advance hmain hfr hph hrun (recoveryStateAt_nextStep hi u.brc.state).symm

theorem execStep_recoveryOk_of_recovery {done : Phase} (hs : recoveryOk s = true) (hmain : s.env.acting = .main)
    (hi : recoveryOf i = some done) (h : ExecStep i s t) : recoveryOk t = true := by
  obtain ⟨hrun, hst⟩ := recoveryOk_iff.mp hs
  rw [mainPhase_eq_phase hmain] at hst
  have hstate {ph : Option Phase} (hph : s.phase = ph) : s.brc.state = recoveryStateAt ph := hph ▸ hst
  have hfr := AgentFrame.refl s []
  cases h with
  | accepted _ _ hph =>
    have hp : s.hasPort s.env.acting = true := by rw [hmain]; rfl
    exact recoveryOk_at (mainPhase_of_port hmain (State.port_setPort_self hp)) (by simpa using hrun)
      (by simpa using (hstate hph).trans (recoveryStateAt_firstStep i).symm)
  | turnedAway _ _ hph => exact recoveryOk_respond hmain hfr hrun (hstate hph)
  | noStep => exact hs
  | w1 addr _ _ _ _ hph h =>
    obtain ⟨e, tmp, rfl⟩ := brcSafeWriteW1_next h
    exact recoveryOk_advance hmain (brcSafeWriteW1_frame s addr e) hph (hrun.setAddr addr)
      ((hstate hph).trans rfl)
  | w2 _ _ length _ hph =>
    obtain ⟨e, ⟨n, h⟩ | ⟨tmp, h⟩⟩ := brcSafeWriteW2_cases length s <;> rw [h]
    · exact recoveryOk_respond hmain (AgentFrame.emitBus s e) hrun (hstate hph)
    · exact recoveryOk_advance hmain (AgentFrame.emitBus s e) hph hrun ((hstate hph).trans rfl)
  | w3 _ _ _ _ hph => exact recoveryOk_respond hmain hfr hrun (hstate hph)
  | x1 _ hph => exact recoveryOk_respond hmain hfr hrun (hstate hph)
  | v1 _ _ _ hi hph => exact recoveryOk_gotoRun hmain (recoverV1_frame s) hph hi (recoverV1_runOk hrun)
  | v2 _ _ _ hi hph => exact recoveryOk_gotoRun hmain (recoverV2_frame s) hph hi (recoverV2_runOk hrun (hstate hph))
  | v3 _ _ _ hi hph => exact recoveryOk_gotoRun hmain (recoverV3_frame s) hph hi (recoverV3_runOk hrun (hstate hph))
  | v4 _ _ _ hi hph => exact recoveryOk_gotoRun hmain (recoverV4_frame s) hph hi (recoverV4_runOk hrun)
  | _ => cases hi

/-! ## Every move -/

/-- A producer port admits no request that touches the recovery machine. -/
theorem mayChange_of_producer {p : Port} (hne : p ≠ .main) (hadm : admits p i = true) :
    ∀ ph ∈ stepsOf i, .brc ∉ mayChange i (some ph) ∧ .pins ∉ mayChange i (some ph) := by
  cases i <;> simp [admits, hne] at hadm <;> simp [stepsOf, mayChange, Instr.instanceOf]

theorem execStep_recoveryOk (hfl : flightsOk s = true) (hs : recoveryOk s = true)
    (hp : s.hasPort s.env.acting = true) (hreq : ∀ f, s.flight = some f → f.instr = i) (h : ExecStep i s t) :
    recoveryOk t = true := by
  have hown (ph : Phase) (hph : s.phase = some ph) : admits s.env.acting i = true ∧ ph ∈ stepsOf i := by
    obtain ⟨f, hf, rfl⟩ := State.flight_of_phase hph
    obtain ⟨hadm, -, hmem⟩ := flightsOk_acting hfl hf
    exact hreq f hf ▸ ⟨hadm, hmem⟩
  by_cases hmain : s.env.acting = .main
  · cases hi : recoveryOf i with
    | none => exact execStep_recoveryOk_of_not_recovery hs hmain (fun ph hph => (hown ph hph).2) hi h
    | some done => exact execStep_recoveryOk_of_recovery hs hmain hi h
  · have hfr := (execStep_effect h hp).frame
    have hkept : .brc ∉ mayChange i s.phase ∧ .pins ∉ mayChange i s.phase := by
      cases hph : s.phase with
      | none => simp [mayChange]
      | some ph =>
        obtain ⟨hadm, hmem⟩ := hown ph hph
        exact mayChange_of_producer hmain hadm ph hmem
    exact recoveryOk_congr hs (Frame.port hfr (Ne.symm hmain)) (Frame.part hfr hkept.1) (Frame.part hfr hkept.2)

theorem recoveryOk_of_badWord (hs : recoveryOk s = true) (hfl : s.flight = none) :
    recoveryOk (s.fail .badRequest) = true := by
  by_cases hmain : s.env.acting = .main
  · obtain ⟨hrun, hst⟩ := recoveryOk_iff.mp hs
    rw [mainPhase_eq_phase hmain] at hst
    exact recoveryOk_respond hmain (AgentFrame.refl s []) hrun (hst.trans (by rw [State.phase_none hfl]; rfl))
  · have hfr := State.respond_frame s .badRequest 0
    exact recoveryOk_congr hs (Frame.port hfr (Ne.symm hmain)) (by simp) (by simp)

/-- No agent but a port and reset touches the recovery machine or the decoder. -/
theorem agentParts_apart {m : Move} (h : agentParts m = some c) : .brc ∉ c ∧ .pins ∉ c ∧ .cd ∉ c := by
  cases m <;> cases h <;> simp

theorem recoveryOk_resetWith (c : Params) (n : Nat) : recoveryOk (State.resetWith c n) = true := rfl

theorem recoveryOk_resetStep (x y : Bool) (acc : List Byte) (s : State) : recoveryOk (resetStep x y acc s) = true :=
  recoveryOk_resetWith s.cfg s.nRb

end

theorem recoveryOk_kept : KeptBySteps fun s => flightsOk s = true ∧ recoveryOk s = true where
  env _ _ hs := hs
  exec _ _ _ hs hp hreq h :=
    ⟨execStep_flightsOk hs.1 hp hreq h, execStep_recoveryOk hs.1 hs.2 hp hreq h⟩
  badWord s hs hp hfl := ⟨flightsOk_kept.badWord s hs.1 hp hfl, recoveryOk_of_badWord hs.2 hfl⟩
  agent _ _ _ _ hs hc h :=
    have hfr := moveStep_agentFrame h hc
    have ⟨hbrc, hpins, _⟩ := agentParts_apart hc
    ⟨flightsOk_of_agentFrame hfr hs.1,
      recoveryOk_congr hs.2 (AgentFrame.port hfr .main) (AgentFrame.part hfr hbrc) (AgentFrame.part hfr hpins)⟩
  reset x y acc s hs := ⟨flightsOk_kept.reset x y acc s hs.1, recoveryOk_resetStep x y acc s⟩

/-- Settles O31: the requests in flight being in order, the steps V1 to V4 alone move the machine between its states,
and each leaves its registers and pins in order for the step that follows. -/
theorem recoveryInvariantIsKept : Obligations.RecoveryInvariantIsKept :=
  fun _ _ hfl hs h => (recoveryOk_kept.step ⟨hfl, hs⟩ h).2

end Sys2Proof.Proofs
end

section
/-! PROOFS. Family 10_state.md: the ranges of the bridge's cursors (O41) and of the decoder's index (O45). -/

namespace Sys2Proof.Proofs

open Sys2Proof.Machine Sys2Proof.Safety

/-! ## Addresses in the bridge's buffer (00_scope.md R9, 20_memory.md R63) -/

section
variable {c : Params}

theorem Params.wellFormed_iff : c.wellFormed = true ↔
    (2 ≤ c.dibCap ∧ c.dibCap ≤ 2 ^ 32 ∧ 2 ^ c.dibCap.log2 = c.dibCap) ∧ c.dibBase.toNat % c.dibCap = 0 ∧
      5 ≤ c.cdCap ∧ c.cdCap ≤ 2 ^ 32 := by
  simp only [Params.wellFormed, Params.dibCapOk, Params.dibBaseOk, Params.cdCapOk, Bool.and_eq_true,
    decide_eq_true_eq, and_assoc]

theorem dibRegion_contains_iff {a : Nat} :
    (dibRegion c).contains a = true ↔ c.dibBase.toNat ≤ a ∧ a < c.dibBase.toNat + c.dibCap := by
  simp only [Region.contains, Bool.and_eq_true, decide_eq_true_eq]
  rfl

/-- The buffer does not cross the top of the address space: its capacity divides both its base and `2^32`. -/
theorem dibRegion_fits (h : c.wellFormed = true) : c.dibBase.toNat + c.dibCap ≤ 2 ^ 32 := by
  obtain ⟨⟨-, hle, hpow⟩, hbase, -⟩ := Params.wellFormed_iff.mp h
  have hlog : c.dibCap.log2 ≤ 32 := (Nat.pow_le_pow_iff_right (by decide)).mp (hpow.symm ▸ hle)
  have hdvd : c.dibCap ∣ 2 ^ 32 - c.dibBase.toNat :=
    Nat.dvd_sub (hpow ▸ Nat.pow_dvd_pow 2 hlog) (Nat.dvd_of_mod_eq_zero hbase)
  have hlt := c.dibBase.isLt
  have := Nat.le_of_dvd (by omega) hdvd
  omega

theorem and_dibMask_lt (h : c.wellFormed = true) (x : Word) : (x &&& dibMask c).toNat < c.dibCap := by
  obtain ⟨⟨hpos, hle, -⟩, -⟩ := Params.wellFormed_iff.mp h
  have hmask : (dibMask c).toNat = c.dibCap - 1 := by
    rw [dibMask, BitVec.toNat_ofNat, Nat.mod_eq_of_lt (by omega)]
  have hand : (x &&& dibMask c).toNat ≤ (dibMask c).toNat := BitVec.toNat_and x _ ▸ Nat.and_le_right
  omega

theorem dibRegion_contains_add (h : c.wellFormed = true) {x : Word} (hx : x.toNat < c.dibCap) :
    (dibRegion c).contains (c.dibBase + x).toNat = true := by
  have hfits := dibRegion_fits h
  have hadd : (c.dibBase + x).toNat = c.dibBase.toNat + x.toNat := BitVec.toNat_add_of_lt (by omega)
  rw [dibRegion_contains_iff]
  omega

theorem dibRegion_contains_base (h : c.wellFormed = true) : (dibRegion c).contains c.dibBase.toNat = true := by
  obtain ⟨⟨hpos, -⟩, -⟩ := Params.wellFormed_iff.mp h
  rw [dibRegion_contains_iff]
  omega

end

/-! ## The cursors of the bridge -/

/-- The ranges of the cursors: `dibOk` as a statement about the bridge alone. -/
structure CursorsOk (c : Params) (d : Dib) : Prop where
  hw : (dibRegion c).contains d.hw.toNat = true
  hwSeen : (dibRegion c).contains d.hwSeen.toNat = true
  rd : d.rd.toNat < c.dibCap

theorem dibOk_iff {s : State} : dibOk s = true ↔ CursorsOk s.cfg s.dib := by
  simp only [dibOk, Bool.and_eq_true, decide_eq_true_eq]
  exact ⟨fun ⟨⟨hhw, hseen⟩, hrd⟩ => ⟨hhw, hseen, hrd⟩, fun ⟨hhw, hseen, hrd⟩ => ⟨⟨hhw, hseen⟩, hrd⟩⟩

section
variable {c : Params} {d : Dib}

theorem CursorsOk.reset (h : c.wellFormed = true) : CursorsOk c (Dib.reset c.dibBase) := by
  obtain ⟨⟨hpos, -⟩, -⟩ := Params.wellFormed_iff.mp h
  have hrd : (0 : Word).toNat < c.dibCap := Nat.lt_of_lt_of_le (by decide) hpos
  exact ⟨dibRegion_contains_base h, dibRegion_contains_base h, hrd⟩

theorem CursorsOk.started (h : c.wellFormed = true) (hd : CursorsOk c d) : CursorsOk c (d.started c) := by
  obtain ⟨⟨hpos, -⟩, -⟩ := Params.wellFormed_iff.mp h
  have hrd : (0 : Word).toNat < c.dibCap := Nat.lt_of_lt_of_le (by decide) hpos
  unfold Dib.started
  split
  · exact ⟨dibRegion_contains_base h, hd.hwSeen, hrd⟩
  · exact ⟨dibRegion_contains_base h, dibRegion_contains_base h, hrd⟩

theorem CursorsOk.advanceRd (h : c.wellFormed = true) (hd : CursorsOk c d) :
    CursorsOk c { d with rd := (d.rd + 1) &&& dibMask c } := ⟨hd.hw, hd.hwSeen, and_dibMask_lt h _⟩

theorem CursorsOk.advanceHw (h : c.wellFormed = true) (hd : CursorsOk c d) :
    CursorsOk c { d with hw := c.dibBase + ((d.hw - c.dibBase + 1) &&& dibMask c) } :=
  ⟨dibRegion_contains_add h (and_dibMask_lt h _), hd.hwSeen, hd.rd⟩

/-- The outbound side is apart from the cursors. -/
theorem CursorsOk.setTx (hd : CursorsOk c d) (busy : Bool) (src rem : Word) :
    CursorsOk c { d with txBusy := busy, txSrc := src, txRem := rem } := ⟨hd.hw, hd.hwSeen, hd.rd⟩

theorem CursorsOk.sync (hd : CursorsOk c d) : CursorsOk c { d with hwSeen := d.hw } := ⟨hd.hw, hd.hw, hd.rd⟩

end

/-- Of the steps of the requests N1, S1 and D2 touch the bridge. -/
theorem execStep_cursorsOk {i : Instr} {s t : State} (hcfg : s.cfg.wellFormed = true) (hs : CursorsOk s.cfg s.dib)
    (hp : s.hasPort s.env.acting = true) (h : ExecStep i s t) : CursorsOk s.cfg t.dib := by
  have hfr := (execStep_effect h hp).frame
  have hkept (hdib : .dib ∉ mayChange i s.phase) : CursorsOk s.cfg t.dib :=
    (show t.dib = s.dib from Frame.part hfr hdib).symm ▸ hs
  cases h with
  | noStep => exact hs
  | n1 _ _ _ h =>
    unfold dibInitN1 at h
    split_ifs at h
    cases h
    simpa using CursorsOk.started hcfg hs
  | s1 _ _ _ _ _ h =>
    unfold dibSendS1 at h
    split_ifs at h <;> cases h
    · exact hs
    · simpa using hs.setTx _ _ _
  | d2 output maxLen => simpa [dibReadD2] using hs.advanceRd hcfg
  | _ => exact hkept (by simp [mayChange, Instr.instanceOf, *])

/-- Of the other agents the two engines and `SYNC.D` touch the bridge. -/
theorem agentStep_cursorsOk {m : Move} {c : List Part} {s t : State} (hcfg : s.cfg.wellFormed = true)
    (hs : CursorsOk s.cfg s.dib) (hc : agentParts m = some c) (h : MoveStep m s t) : CursorsOk s.cfg t.dib := by
  have hfr := moveStep_agentFrame h hc
  have hkept (hdib : .dib ∉ c) : CursorsOk s.cfg t.dib :=
    (show t.dib = s.dib from AgentFrame.part hfr hdib).symm ▸ hs
  cases h with
  | hwWrite =>
    unfold hwWriteStep
    split
    · exact hs.advanceHw hcfg
    · exact hs
  | txByte =>
    unfold txByteStep
    split
    · exact hs.setTx _ _ _
    · exact hs
  | txDone =>
    unfold txDoneStep
    split
    · exact hs.setTx _ _ _
    · exact hs
  | syncD =>
    unfold syncDStep
    split
    · exact hs
    · exact hs.sync
  | syncH | syncT | envWrite | envRead => cases hc; exact hkept (by simp)
  | _ => cases hc

theorem dibOk_kept : KeptBySteps fun s => s.cfg.wellFormed = true ∧ CursorsOk s.cfg s.dib where
  env _ _ hs := hs
  exec _ s t hs hp _ h := by
    rw [Frame.cfg (execStep_effect h hp).frame]
    exact ⟨hs.1, execStep_cursorsOk hs.1 hs.2 hp h⟩
  badWord s hs _ _ := by simpa using hs
  agent m c s t hs hc h := by
    rw [AgentFrame.cfg (moveStep_agentFrame h hc)]
    exact ⟨hs.1, agentStep_cursorsOk hs.1 hs.2 hc h⟩
  reset _ _ _ _ hs := ⟨hs.1, CursorsOk.reset hs.1⟩

/-- Settles O41: every cursor that moves is the base plus a masked index, or a masked index. -/
theorem bridgeCursorsStayInRange : Obligations.BridgeCursorsStayInRange :=
  fun _ _ hcfg hs h => dibOk_iff.mpr (dibOk_kept.step ⟨hcfg, dibOk_iff.mp hs⟩ h).2

/-! ## The decoder -/

/-- The buffer's length and the index's range: `cdOk` as a statement about the decoder alone. -/
def CdOk (c : Params) (d : Cd) : Prop := d.acc.length = c.cdCap ∧ d.idx ≤ c.cdCap - 1

theorem cdOk_iff {s : State} : cdOk s = true ↔ CdOk s.cfg s.cd := by
  simp [cdOk, CdOk]

theorem CdOk.feed {c : Params} {d : Cd} (h : CdOk c d) (byte : Byte) : CdOk c (d.feed c byte).1 := by
  obtain ⟨hlen, hidx⟩ := h
  unfold Cd.feed
  split_ifs with hterm hroom
  · exact ⟨by simpa using hlen, Nat.zero_le _⟩
  · exact ⟨by simpa using hlen, hroom⟩
  · exact ⟨hlen, hidx⟩

theorem fitBytes_length (n : Nat) (bytes : List Byte) : (fitBytes n bytes).length = n := by
  simp [fitBytes]

/-- Of all steps K1 alone touches the decoder, but for reset. -/
theorem execStep_cdOk {i : Instr} {s t : State} (hs : CdOk s.cfg s.cd) (hp : s.hasPort s.env.acting = true)
    (h : ExecStep i s t) : CdOk s.cfg t.cd := by
  have hfr := (execStep_effect h hp).frame
  have hkept (hcd : .cd ∉ mayChange i s.phase) : CdOk s.cfg t.cd :=
    (show t.cd = s.cd from Frame.part hfr hcd).symm ▸ hs
  cases h with
  | noStep => exact hs
  | k1 byte => simpa [cdFeedK1] using hs.feed byte
  | _ => exact hkept (by simp [mayChange, Instr.instanceOf, *])

theorem cdOk_kept : KeptBySteps fun s => CdOk s.cfg s.cd where
  env _ _ hs := hs
  exec _ s t hs hp _ h := by
    rw [Frame.cfg (execStep_effect h hp).frame]
    exact execStep_cdOk hs hp h
  badWord s hs _ _ := by simpa using hs
  agent m c s t hs hc h := by
    have hfr := moveStep_agentFrame h hc
    obtain ⟨-, -, hcd⟩ := agentParts_apart hc
    rwa [AgentFrame.cfg hfr, show t.cd = s.cd from AgentFrame.part hfr hcd]
  reset _ _ acc s _ := ⟨fitBytes_length s.cfg.cdCap acc, Nat.zero_le _⟩

/-- Settles O45: step K1 appends only below the last slot, and a write into the buffer keeps its length. -/
theorem decoderIndexStaysInRange : Obligations.DecoderIndexStaysInRange :=
  fun _ _ _ hs h => cdOk_iff.mpr (cdOk_kept.step (cdOk_iff.mp hs) h)

end Sys2Proof.Proofs
end

section
/-! PROOFS. Family 10_state.md: the reset table (O59), the command table (O43), the map of control and status registers
(O47), how a move reaches a request (O5, O6), and a ring as reset leaves it (O18). -/

namespace Sys2Proof.Proofs

open Sys2Proof.Machine Sys2Proof.Safety

/-! ## The reset state (10_state.md R44) -/

section
variable (c : Params) (n : Nat)

theorem State.resetWith_nRb : (State.resetWith c n).nRb = n := List.length_replicate

/-- What holds of a ring after reset holds of every ring. -/
theorem State.resetWith_rb_all {p : Rb → Bool} (h : p Rb.reset = true) : (State.resetWith c n).rb.all p = true := by
  simp [State.resetWith, h]

/-- A ring after reset has no store. -/
theorem Region.disjoint_reset_store (g : Region) : g.disjoint Rb.reset.store = true := by
  simp [Region.disjoint, Rb.store, Rb.reset]

theorem storesApart_replicate_reset : storesApart (List.replicate n Rb.reset) = true := by
  induction n with
  | zero => rfl
  | succ n ih => simp [List.replicate_succ, storesApart, ih, Region.disjoint_reset_store]

theorem State.resetWith_flight (p : Port) : ((State.resetWith c n).port p).flight = none := by
  rw [State.resetWith_port]; rfl

theorem resetWith_quiescent : Quiescent (State.resetWith c n) :=
  ⟨fun p => by simp [State.busy, State.resetWith_flight], rfl, rfl⟩

/-- The empty program has ended before the first step. -/
theorem ended_empty {moves : Nat → Move} {e : Nat → State} (h : Quiescent (e 0)) :
    Ended (fun _ => []) moves e 0 :=
  ⟨fun _ => ⟨rfl, rfl⟩, h⟩

theorem resetWith_ringsOk : ringsOk (State.resetWith c n) = true := by
  refine State.resetWith_rb_all c n ?_
  generalize (State.resetWith c n).cfg.rbSync = mode
  cases mode <;> decide

theorem resetWith_regionsOk : regionsOk (State.resetWith c n) = true := by
  simp only [regionsOk, Bool.and_eq_true]
  exact ⟨storesApart_replicate_reset n, State.resetWith_rb_all c n (Region.disjoint_reset_store _)⟩

variable {c n}

theorem resetWith_machineOk (hc : c.wellFormed = true) (hn : nRbOk n = true) :
    machineOk (State.resetWith c n) = true := by
  have hnRb : nRbOk (State.resetWith c n).nRb = true := (State.resetWith_nRb c n).symm ▸ hn
  have hdib : dibOk (State.resetWith c n) = true := dibOk_iff.mpr (CursorsOk.reset hc)
  have hcd : cdOk (State.resetWith c n) = true := cdOk_iff.mpr ⟨List.length_replicate, Nat.zero_le _⟩
  simp only [machineOk, Bool.and_eq_true]
  exact ⟨⟨⟨⟨⟨⟨⟨⟨hc, hnRb⟩, State.resetWith_mem_wf c n⟩, flightsOk_of_idle (State.resetWith_flight c n)⟩,
    resetWith_ringsOk c n⟩, resetWith_regionsOk c n⟩, hdib⟩, hcd⟩, recoveryOk_resetWith c n⟩

theorem resetWith_queueOk (hc : c.wellFormed = true) (hn : nRbOk n = true) :
    queueOk (State.resetWith c n) = true := by
  have hviews (mode : SyncMode) : viewsOk mode Rb.reset = true := by cases mode <;> decide
  simp only [queueOk, Bool.and_eq_true]
  exact ⟨⟨⟨⟨resetWith_machineOk hc hn, State.resetWith_rb_all c n (hviews _)⟩, State.resetWith_rb_all c n rfl⟩, rfl⟩,
    rfl⟩

end

/-- Settles O59: the registers are those of `State.resetWith`, and the invariants hold of idle ports and absent
stores. -/
theorem resetLeavesTheTable : Obligations.ResetLeavesTheTable := by
  intro c n hc hn
  have hquiet := resetWith_quiescent c n
  refine ⟨resetWith_queueOk hc hn, hquiet, fun moves e he => ended_empty (he ▸ hquiet), State.resetWith_nRb c n, ?_,
    rfl, rfl, rfl, rfl, rfl, rfl, rfl, rfl, rfl, rfl⟩
  intro i _
  rw [State.resetWith_rbAt]
  exact sameRegs_refl _

/-! ## The command table (R33) -/

theorem lookup_eq (line : List Byte) : lookup line =
    if [0x49#8, 0x4E#8, 0x56#8] = line then 1 else if [0x4E#8, 0x4F#8, 0x52#8, 0x4D#8] = line then 2
    else if [0x50#8, 0x49#8, 0x4E#8, 0x47#8] = line then 3 else 0 := rfl

/-- Settles O43: the three rows in turn, and a line equal to none of them. -/
theorem lookupIsExact : Obligations.LookupIsExact := by
  intro line
  rw [lookup_eq]
  split_ifs with hinv hnorm hping
  · subst hinv; decide
  · subst hnorm; decide
  · subst hping; decide
  · simp [Ne.symm hinv, Ne.symm hnorm, Ne.symm hping]

/-! ## The map of control and status registers (R38) -/

theorem Dib.status_eq (d : Dib) :
    d.status = (if d.run then 1#32 else 0#32) + (if d.txBusy then 2#32 else 0#32) := by
  unfold Dib.status
  cases d.run <;> cases d.txBusy <;> rfl

section
variable (s : State)

/-- Past the registers named one by one there are those of the instances, four each. -/
theorem State.csrRead_of_unnamed {csr : BitVec 12}
    (h : csr.toNat ∉ [0x000, 0x001, 0x002, 0x003, 0x010, 0x020, 0x021, 0x022]) :
    s.csrRead csr =
      if 0x100 ≤ csr.toNat && (csr.toNat - 0x100) / 4 < s.nRb then
        some ((s.rbAt ((csr.toNat - 0x100) / 4)).csr s.cfg.rbSync ((csr.toNat - 0x100) % 4))
      else none := by
  unfold State.csrRead
  split
  case h_9 => rfl
  all_goals simp_all

theorem State.csrRead_ring {i k : Nat} (hn : s.nRb ≤ 256) (hi : i < s.nRb) (hk : k < 4) :
    s.csrRead (BitVec.ofNat 12 (0x100 + k + 4 * i)) = some ((s.rbAt i).csr s.cfg.rbSync k) := by
  have hcsr : (BitVec.ofNat 12 (0x100 + k + 4 * i)).toNat = 0x100 + k + 4 * i := by
    rw [BitVec.toNat_ofNat, Nat.mod_eq_of_lt (by omega)]
  rw [State.csrRead_of_unnamed s (by simp only [hcsr, List.mem_cons, List.not_mem_nil, or_false]; omega), hcsr,
    show (0x100 + k + 4 * i - 0x100) / 4 = i by omega, show (0x100 + k + 4 * i - 0x100) % 4 = k by omega]
  exact if_pos (by simp only [Bool.and_eq_true, decide_eq_true_eq]; omega)

end

/-- Settles O47: eight registers by their index, four per ring by the rest of the index, and none outside. -/
theorem csrMapIsTheTable : Obligations.CsrMapIsTheTable := by
  intro s hn
  refine ⟨rfl, rfl, rfl, rfl, rfl, congrArg some (Dib.status_eq s.dib), rfl, rfl, ?_, ?_⟩
  · intro i hi
    exact ⟨State.csrRead_ring s (k := 0) hn hi (by decide), State.csrRead_ring s (k := 1) hn hi (by decide),
      State.csrRead_ring s (k := 2) hn hi (by decide), State.csrRead_ring s (k := 3) hn hi (by decide)⟩
  · intro csr hnamed hout
    rw [State.csrRead_of_unnamed s hnamed, if_neg]
    simp only [Bool.and_eq_true, decide_eq_true_eq]
    omega

/-! ## How a move reaches a request (R22, R36) -/

section
variable {s : State} {p : Port}

theorem apply_request_instr {r : Request} {i : Instr} (hp : s.hasPort p = true) (hb : s.busy p = false)
    (hd : decodeWords r = .instr i) : apply (.request p r) s = exec i (s.actingAs p) := by
  simp [apply, route, routeRequest, hp, hb, hd]

theorem apply_request_busy {r : Request} (hb : s.busy p = true) : apply (.request p r) s = .next s := by
  simp [apply, route, routeRequest, hb]

theorem apply_port_flight {d : Draw} {f : Flight} (hf : (s.port p).flight = some f) :
    apply (.port p d) s = exec f.instr (s.drawing p d) := by
  simp [apply, route, routePort, hf]

theorem apply_port_idle {d : Draw} (hf : (s.port p).flight = none) : apply (.port p d) s = .next s := by
  simp [apply, route, routePort, hf]

theorem step_of_script {m : Move} {rest : List Move} (h : s.env.script = m :: rest) :
    step s = apply m { s with env := { s.env with script := rest } } := by
  simp [step, State.nextMove, State.popMove, h]

theorem step_of_no_script (h : s.env.script = []) :
    step s = apply (Config.freeMove s.env.tick) { s with env := { s.env with tick := s.env.tick + 1 } } := by
  simp [step, State.nextMove, State.popMove, h]

theorem State.hasPort_setEnv (s : State) (e : Env) (p : Port) : State.hasPort { s with env := e } p = s.hasPort p := by
  cases p <;> rfl

theorem State.port_setEnv (s : State) (e : Env) (p : Port) : State.port { s with env := e } p = s.port p := by
  cases p <;> rfl

end

/-- Settles O5: the move is taken from the script, and reaches `exec` through its route. -/
theorem stepRunsTheDecodedRequest : Obligations.StepRunsTheDecodedRequest := by
  refine ⟨?_, ?_, fun s h => step_of_no_script h⟩
  · intro s p r rest i h hp hb hd
    rw [step_of_script h]
    refine apply_request_instr ?_ ?_ hd
    · rwa [State.hasPort_setEnv]
    · rwa [State.busy, State.port_setEnv]
  · intro s p d rest f h hf
    rw [step_of_script h]
    refine apply_port_flight ?_
    rwa [State.port_setEnv]

/-- Settles O6: a busy port is routed to no acceptance, an idle one to no step. -/
theorem busyPortAcceptsNothing : Obligations.BusyPortAcceptsNothing :=
  fun s p => ⟨fun hb _ => apply_request_busy hb, fun hb _ => apply_port_idle (by simpa [State.busy] using hb)⟩

/-! ## A ring as reset leaves it (R45) -/

section
variable {s : State} {sel : BitVec 8} {r : Rb}

/-- Such a ring shows both cursors 0 to either port. -/
theorem cursorsFrom_of_reset (h : sameRegs r Rb.reset) : s.cursorsFrom r = (0, 0) := by
  obtain ⟨-, -, hhead, htail, hheadSeen, htailSeen⟩ := h
  unfold State.cursorsFrom Rb.viewHead Rb.viewTail
  split <;> split <;> simp [hhead, htail, hheadSeen, htailSeen, Rb.reset]

theorem viewTail_of_reset (h : sameRegs r Rb.reset) (mode : SyncMode) : r.viewTail mode = 0 := by
  obtain ⟨-, -, -, htail, -, htailSeen⟩ := h
  cases mode
  · exact htail
  · exact htailSeen

theorem viewHead_of_reset (h : sameRegs r Rb.reset) (mode : SyncMode) : r.viewHead mode = 0 := by
  obtain ⟨-, -, hhead, -, hheadSeen, -⟩ := h
  cases mode
  · exact hhead
  · exact hheadSeen

end

/-- Settles O18: with `mask` 0 the cursor after 0 is 0, so the ring is full and empty at once. -/
theorem uninitialisedRingIsHarmless : Obligations.UninitialisedRingIsHarmless := by
  intro s sel byte h _
  have hcur := cursorsFrom_of_reset (s := s) h
  have hvt := viewTail_of_reset h s.cfg.rbSync
  have hvh := viewHead_of_reset h s.cfg.rbSync
  obtain ⟨-, hmask, hhead, htail, -, -⟩ := h
  refine ⟨fun hph => ?_, fun hph => ?_, fun hph => ?_, fun hph => ?_⟩
  all_goals refine ⟨_, ?_, State.respond_spec (State.hasPort_of_phase hph)⟩
  · simp [exec, execRbPush, hph, rbPushP1, nextCursor, hmask, hvt, Rb.reset, State.fail]
  · simp [exec, execRbPop, hph, rbPopC1, cursorsEmpty, htail, hvh, Rb.reset, State.fail]
  · simp [exec, execRbIsEmpty, hph, rbIsEmptyE1, hcur, cursorsEmpty, flagWord]
  · simp [exec, execRbIsFull, hph, rbIsFullF1, hcur, cursorsFull, nextCursor, hmask, Rb.reset, flagWord]

end Sys2Proof.Proofs
end

section
/-! PROOFS. Family 20_memory.md: the arithmetic of a ring's cursors (40_ringbuffer.md R121, R126), and the Gray code
(O52). -/

namespace Sys2Proof.Proofs

open Sys2Proof.Machine Sys2Proof.Safety

/-! ## Masks -/

section
variable {mask head tail c : Word}

/-- The capacity of a ring is a power of two below `2^32` (10_state.md R23). -/
theorem maskOk_two_pow (hm : maskOk mask = true) : ∃ k < 32, mask.toNat + 1 = 2 ^ k := by
  simp only [maskOk, Bool.and_eq_true, decide_eq_true_eq] at hm
  obtain ⟨hand, hne⟩ := hm
  have hlt : mask.toNat + 1 < 2 ^ 32 := by
    have hall : mask.toNat ≠ (BitVec.allOnes 32).toNat := fun h => hne (BitVec.eq_of_toNat_eq h)
    have hmask := mask.isLt
    simp only [BitVec.toNat_allOnes] at hall
    omega
  have hzero : (mask.toNat + 1) &&& (mask.toNat + 1 - 1) = 0 := by
    have h := congrArg BitVec.toNat hand
    rw [BitVec.toNat_and, BitVec.toNat_add_of_lt hlt] at h
    rwa [Nat.and_comm] at h
  obtain ⟨k, hk⟩ := (Nat.and_sub_one_eq_zero_iff_isPowerOfTwo (by omega)).mp hzero
  exact ⟨k, (Nat.pow_lt_pow_iff_right (by decide)).mp (hk ▸ hlt), hk⟩

theorem toNat_and_mask (hm : maskOk mask = true) (x : Word) : (x &&& mask).toNat = x.toNat % (mask.toNat + 1) := by
  obtain ⟨k, -, hk⟩ := maskOk_two_pow hm
  rw [BitVec.toNat_and, hk, ← Nat.and_two_pow_sub_one_eq_mod, ← hk, Nat.add_sub_cancel]

theorem and_mask_le (x : Word) : x &&& mask ≤ mask := by
  rw [BitVec.le_def, BitVec.toNat_and]
  exact Nat.and_le_right

/-! ## The next cursor and the occupancy -/

theorem nextCursor_le (c mask : Word) : nextCursor c mask ≤ mask := and_mask_le _

theorem nextCursor_toNat (hm : maskOk mask = true) (hc : c ≤ mask) :
    (nextCursor c mask).toNat = if c.toNat = mask.toNat then 0 else c.toNat + 1 := by
  obtain ⟨k, hk32, hk⟩ := maskOk_two_pow hm
  have hlt : 2 ^ k < 2 ^ 32 := Nat.pow_lt_pow_right (by decide) hk32
  rw [BitVec.le_def] at hc
  have hadd : (c + 1).toNat = c.toNat + 1 := BitVec.toNat_add_of_lt (y := 1#32) (by simp; omega)
  rw [nextCursor, toNat_and_mask hm, hadd]
  split
  · simp [*]
  · exact Nat.mod_eq_of_lt (by omega)

theorem occupancy_toNat (hm : maskOk mask = true) (hh : head ≤ mask) (ht : tail ≤ mask) :
    (occupancy head tail mask).toNat =
      if tail.toNat ≤ head.toNat then head.toNat - tail.toNat else head.toNat + (mask.toNat + 1) - tail.toNat := by
  obtain ⟨k, hk32, hk⟩ := maskOk_two_pow hm
  obtain ⟨q, hq⟩ : mask.toNat + 1 ∣ 2 ^ 32 := hk ▸ Nat.pow_dvd_pow 2 hk32.le
  rw [BitVec.le_def] at hh ht
  rw [occupancy, toNat_and_mask hm, BitVec.toNat_sub, Nat.mod_mod_of_dvd _ ⟨q, hq⟩]
  split
  · rw [show 2 ^ 32 - tail.toNat + head.toNat = head.toNat - tail.toNat + 2 ^ 32 by omega, hq,
      Nat.add_mul_mod_self_left, Nat.mod_eq_of_lt (by omega)]
  · obtain ⟨p, rfl⟩ : ∃ p, q = p + 1 := ⟨q - 1, by rcases q with _ | q <;> omega⟩
    rw [show 2 ^ 32 - tail.toNat + head.toNat = head.toNat + (mask.toNat + 1) - tail.toNat + (mask.toNat + 1) * p by
      rw [hq, Nat.mul_add_one]; omega, Nat.add_mul_mod_self_left, Nat.mod_eq_of_lt (by omega)]

/-- The ring is empty when nothing is in it. -/
theorem occupancy_eq_zero_iff (hm : maskOk mask = true) (hh : head ≤ mask) (ht : tail ≤ mask) :
    (occupancy head tail mask).toNat = 0 ↔ head = tail := by
  rw [occupancy_toNat hm hh ht, BitVec.toNat_inj.symm]
  rw [BitVec.le_def] at hh ht
  split <;> omega

/-- There is room for a byte unless the cursor after `head` is `tail`. -/
theorem occupancy_lt_iff (hm : maskOk mask = true) (hh : head ≤ mask) (ht : tail ≤ mask) :
    occupancy head tail mask < mask ↔ nextCursor head mask ≠ tail := by
  rw [ne_eq, BitVec.toNat_inj.symm, BitVec.lt_def, nextCursor_toNat hm hh, occupancy_toNat hm hh ht]
  rw [BitVec.le_def] at hh ht
  split <;> split <;> omega

/-- Moving `head` where there is room puts one more byte in the ring. -/
theorem occupancy_nextCursor_head (hm : maskOk mask = true) (hh : head ≤ mask) (ht : tail ≤ mask)
    (hroom : occupancy head tail mask < mask) :
    (occupancy (nextCursor head mask) tail mask).toNat = (occupancy head tail mask).toNat + 1 := by
  rw [BitVec.lt_def, occupancy_toNat hm hh ht] at hroom
  rw [occupancy_toNat hm (nextCursor_le _ _) ht, occupancy_toNat hm hh ht, nextCursor_toNat hm hh]
  rw [BitVec.le_def] at hh ht
  split at hroom <;> split <;> split <;> omega

/-- Moving `tail` where there is a byte takes one out of the ring. -/
theorem occupancy_nextCursor_tail (hm : maskOk mask = true) (hh : head ≤ mask) (ht : tail ≤ mask)
    (hne : head ≠ tail) :
    (occupancy head (nextCursor tail mask) mask).toNat + 1 = (occupancy head tail mask).toNat := by
  rw [ne_eq, BitVec.toNat_inj.symm] at hne
  rw [occupancy_toNat hm hh (nextCursor_le _ _), occupancy_toNat hm hh ht, nextCursor_toNat hm ht]
  rw [BitVec.le_def] at hh ht
  split <;> split <;> split <;> omega

end

/-! ## The Gray code (20_memory.md R72) -/

theorem getLsbD_gray (b : Word) (i : Nat) : (gray b).getLsbD i = (b.getLsbD i ^^ b.getLsbD (i + 1)) := by
  simp [gray, Nat.add_comm]

/-- The Gray code is linear. -/
theorem gray_xor (a b : Word) : gray a ^^^ gray b = gray (a ^^^ b) := by
  apply BitVec.eq_of_getLsbD_eq
  intro i _
  simp only [BitVec.getLsbD_xor, getLsbD_gray]
  simp [Bool.xor_left_comm]

/-- After `n` rounds of the decoder the top `n` bits are those of the index. -/
theorem getLsbD_ungrayTop_gray (b : Word) (n : Nat) :
    ∀ i, 32 ≤ i + n → (ungrayTop (gray b) n).getLsbD i = b.getLsbD i := by
  induction n with
  | zero => intro i hi; rw [BitVec.getLsbD_of_ge _ i hi, BitVec.getLsbD_of_ge _ i hi]
  | succ n ih =>
    intro i hi
    rw [ungrayTop, BitVec.getLsbD_xor, getLsbD_gray, BitVec.getLsbD_ushiftRight, Nat.add_comm 1 i,
      ih (i + 1) (by omega), Bool.xor_assoc, Bool.xor_self, Bool.xor_false]

theorem ungray_gray (b : Word) : ungray (gray b) = b :=
  BitVec.eq_of_getLsbD_eq fun i _ => getLsbD_ungrayTop_gray b 32 i (Nat.le_add_left 32 i)

/-- Counting up flips the trailing ones and the bit above them. -/
theorem exists_xor_succ (n : Nat) : ∃ j, n ^^^ (n + 1) = 2 ^ (j + 1) - 1 := by
  induction n using Nat.strongRecOn with
  | ind n ih =>
    rcases Nat.even_or_odd' n with ⟨m, rfl | rfl⟩
    · refine ⟨0, ?_⟩
      rw [← Nat.xor_one_of_even (even_two_mul m), ← Nat.xor_assoc, Nat.xor_self]
      rfl
    · obtain ⟨j, hj⟩ := ih m (by omega)
      refine ⟨j + 1, ?_⟩
      have hpos := Nat.two_pow_pos (j + 1)
      have hbits : (2 * m + 1) ^^^ (2 * (m + 1)) = 2 * (m ^^^ (m + 1)) + 1 := by
        simpa [Nat.bit_val] using Nat.xor_bit true m false (m + 1)
      rw [show 2 * m + 1 + 1 = 2 * (m + 1) by omega, hbits, hj, Nat.pow_succ 2 (j + 1)]
      omega

/-- An index and the next one, the wrap to 0 included, differ in a run of ones from bit 0 up. -/
theorem exists_xor_nextCursor {mask b : Word} (hm : maskOk mask = true) (hne : mask ≠ 0) (hb : b ≤ mask) :
    ∃ j < 32, b ^^^ nextCursor b mask = BitVec.ofNat 32 (2 ^ (j + 1) - 1) := by
  obtain ⟨k, hk32, hk⟩ := maskOk_two_pow hm
  have hnext := nextCursor_toNat hm hb
  have hb' := BitVec.le_def.mp hb
  have hword {j : Nat} (h : b.toNat ^^^ (nextCursor b mask).toNat = 2 ^ (j + 1) - 1) :
      b ^^^ nextCursor b mask = BitVec.ofNat 32 (2 ^ (j + 1) - 1) :=
    BitVec.eq_of_toNat_eq (by
      rw [BitVec.toNat_xor, BitVec.toNat_ofNat, h, Nat.mod_eq_of_lt]
      rw [← h, ← BitVec.toNat_xor]
      exact BitVec.isLt _)
  split at hnext
  · next heq =>
    obtain ⟨j, rfl⟩ : ∃ j, k = j + 1 := by
      refine ⟨k - 1, ?_⟩
      rcases k with _ | k
      · exact absurd (BitVec.eq_of_toNat_eq (by simpa using hk)) hne
      · rfl
    exact ⟨j, by omega, hword (by rw [hnext, Nat.xor_zero, heq]; omega)⟩
  · obtain ⟨j, hj⟩ := exists_xor_succ b.toNat
    have hlt : 2 ^ (j + 1) - 1 < 2 ^ k := hj ▸ Nat.xor_lt_two_pow (by omega) (by omega)
    have hjk : j < k := by
      have := (Nat.pow_le_pow_iff_right (a := 2) (by decide)).mp (show 2 ^ (j + 1) ≤ 2 ^ k by omega)
      omega
    exact ⟨j, by omega, hword (by rw [hnext, hj])⟩

/-- The Gray code of a run of ones is its top bit. -/
theorem gray_ones : ∀ j < 32, gray (BitVec.ofNat 32 (2 ^ (j + 1) - 1)) = BitVec.ofNat 32 (2 ^ j) := by decide

/-- Settles O52: the code is linear, so the codes differ by the code of the run of ones in which the indices differ. -/
theorem grayCodeChangesOneBit : Obligations.GrayCodeChangesOneBit := by
  refine ⟨ungray_gray, fun mask b hm hne hb => ?_⟩
  obtain ⟨j, hj, hxor⟩ := exists_xor_nextCursor hm hne hb
  exact ⟨j, hj, by rw [gray_xor, hxor, gray_ones j hj]⟩

end Sys2Proof.Proofs
end

section
/-! PROOFS. Family 20_memory.md, what its invariants need of the steps: what one step may do to the registers of a ring
and to memory, said once for the requests and once for the other agents; and what it leaves in flight. -/

namespace Sys2Proof.Proofs

open Sys2Proof.Machine Sys2Proof.Safety

/-! ## The registers of a ring -/

/-- The conditions under which step I1 of an `RB.INIT k` initialises ring `k` (R64, R120, R291, R294). -/
structure InitAllowed (s : State) (k : Nat) (base size : Word) : Prop where
  idle : s.busy (.prod k) = false
  accepted : initRejected s.cfg base size = false
  fits : (operandRegion base size).fits = true
  clearOfDib : s.clearOfDib (operandRegion base size) = true
  clearOfOthers : s.clearOfOtherStores k (operandRegion base size) = true

/-- What one step of any agent but reset does to the registers of ring `j`. -/
inductive RingStep (s t : State) (j : Nat) : Prop where
  | kept : sameRegs (s.rbAt j) (t.rbAt j) → RingStep s t j
  /-- step I1 -/
  | initialised (f : Flight) (sel : BitVec 8) (base size : Word) : s.flight = some f → f.instr = .rbInit sel base size →
      sel.toNat = j → InitAllowed s j base size → Answered s t .ok 0 →
      sameRegs ((s.rbAt j).initialised s.cfg.rbSync base size) (t.rbAt j) → RingStep s t j
  /-- step P3 -/
  | pushed (f : Flight) (sel : BitVec 8) (byte : Byte) : s.flight = some f → f.instr = .rbPush sel byte →
      sel.toNat = j → f.phase = .p3 → Answered s t .ok 0 →
      sameRegs { s.rbAt j with head := f.temps.next } (t.rbAt j) → RingStep s t j
  /-- step C3 -/
  | popped (f : Flight) (sel : BitVec 8) : s.flight = some f → f.instr = .rbPop sel → sel.toNat = j → f.phase = .c3 →
      Answered s t .ok (f.temps.byte.setWidth 32) →
      sameRegs { s.rbAt j with tail := nextCursor (s.rbAt j).tail (s.rbAt j).mask } (t.rbAt j) → RingStep s t j
  /-- `SYNC.H` -/
  | syncedHead : s.cfg.rbSync = .gray → sameRegs { s.rbAt j with headSeen := (s.rbAt j).head } (t.rbAt j) →
      RingStep s t j
  /-- `SYNC.T` -/
  | syncedTail : s.cfg.rbSync = .gray → sameRegs { s.rbAt j with tailSeen := (s.rbAt j).tail } (t.rbAt j) →
      RingStep s t j

/-- Writing a ring leaves the registers of ring `j` as they were, unless it is the one written. -/
theorem setRb_regs (s : State) (k : Nat) (r : Rb) (j : Nat) :
    sameRegs (s.rbAt j) ((s.setRb k r).rbAt j) ∨ k = j ∧ sameRegs r ((s.setRb k r).rbAt j) := by
  by_cases hkj : k = j
  · subst hkj
    by_cases h : k < s.nRb
    · exact .inr ⟨rfl, by rw [State.rbAt_setRb_self h]; exact sameRegs_refl _⟩
    · exact .inl (by rw [State.setRb_of_ge (Nat.not_lt.mp h)]; exact sameRegs_refl _)
  · exact .inl (by rw [State.rbAt_setRb_ne (Ne.symm hkj)]; exact sameRegs_refl _)

/-- As `setRb_regs`, when the step then answers. -/
theorem setRb_respond_regs (s : State) (k : Nat) (r : Rb) (st : Status) (v : Word) (j : Nat) :
    sameRegs (s.rbAt j) (((s.setRb k r).respond st v).rbAt j) ∨
      k = j ∧ sameRegs r (((s.setRb k r).respond st v).rbAt j) :=
  have hport := State.sameRegs_setPort (s.setRb k r) _ _ j
  (setRb_regs s k r j).imp (sameRegs_trans · hport) fun ⟨hkj, h⟩ => ⟨hkj, sameRegs_trans h hport⟩

theorem answered_setRb {s : State} {k : Nat} {r : Rb} {st : Status} {v : Word} (hport : r.port = (s.rbAt k).port)
    (hp : s.hasPort s.env.acting = true) : Answered s ((s.setRb k r).respond st v) st v :=
  (respond_after st v (AgentFrame.setRb hport) hp).1

/-- Everything step I1 can do when it answers a next state. -/
theorem rbInitI1_cases {sel : BitVec 8} {base size : Word} {s t : State} (h : rbInitI1 sel base size s = .next t) :
    t = s.fail .configError ∨ InitAllowed s sel.toNat base size ∧
      t = (s.setRb sel.toNat ((s.rbAt sel.toNat).initialised s.cfg.rbSync base size)).respond .ok 0 := by
  unfold rbInitI1 at h
  split_ifs at h with hbusy hrej hfits hclear <;> cases h
  · exact .inl rfl
  · simp only [Bool.not_eq_true', Bool.not_eq_false, Bool.and_eq_true] at hfits hclear
    exact .inr ⟨⟨by simpa using hbusy, by simpa using hrej, hfits, hclear.1, hclear.2⟩, rfl⟩

theorem execStep_ring {i : Instr} {s t : State} (h : ExecStep i s t) (hp : s.hasPort s.env.acting = true)
    (hreq : ∀ f, s.flight = some f → f.instr = i) (j : Nat) : RingStep s t j := by
  have hfr := (execStep_effect h hp).frame
  have hkept (hring : .ring j ∉ mayChange i s.phase) : RingStep s t j := .kept (Frame.part (part := .ring j) hfr hring)
  cases h with
  | noStep => exact .kept (sameRegs_refl _)
  | i1 sel base size _ _ hph h =>
    obtain ⟨f, hf, -⟩ := State.flight_of_phase hph
    obtain rfl | ⟨hallowed, rfl⟩ := rbInitI1_cases h
    · exact .kept (Frame.part (part := .ring j) (State.respond_frame s _ _) (by simp))
    · obtain h | ⟨rfl, h⟩ := setRb_respond_regs s sel.toNat _ _ _ j
      · exact .kept h
      · exact .initialised f sel base size hf (hreq f hf) rfl hallowed
          (answered_setRb (Rb.initialised_port _ _ _ _) hp) h
  | p3 sel byte _ hph =>
    obtain ⟨f, hf, hphase⟩ := State.flight_of_phase hph
    obtain h | ⟨rfl, h⟩ := setRb_respond_regs s sel.toNat _ _ _ j
    · exact .kept h
    · exact .pushed f sel byte hf (hreq f hf) rfl hphase (answered_setRb rfl hp)
        (State.temps_of_flight hf ▸ h)
  | c3 sel _ hph =>
    obtain ⟨f, hf, hphase⟩ := State.flight_of_phase hph
    obtain h | ⟨rfl, h⟩ := setRb_respond_regs s sel.toNat _ _ _ j
    · exact .kept h
    · exact .popped f sel hf (hreq f hf) rfl hphase
        (State.temps_of_flight hf ▸ answered_setRb rfl hp) h
  | _ => exact hkept (by simp [mayChange, *])

theorem agentStep_ring {m : Move} {c : List Part} {s t : State} (hc : agentParts m = some c) (h : MoveStep m s t)
    (j : Nat) : RingStep s t j := by
  have hfr := moveStep_agentFrame h hc
  have hkept (hring : .ring j ∉ c) : RingStep s t j := .kept (AgentFrame.part (part := .ring j) hfr hring)
  cases h with
  | syncH i =>
    unfold syncHStep
    split
    · exact .kept (sameRegs_refl _)
    · next hmode =>
      obtain h | ⟨rfl, h⟩ := setRb_regs s i _ j
      · exact .kept h
      · exact .syncedHead hmode h
  | syncT i =>
    unfold syncTStep
    split
    · exact .kept (sameRegs_refl _)
    · next hmode =>
      obtain h | ⟨rfl, h⟩ := setRb_regs s i _ j
      · exact .kept h
      · exact .syncedTail hmode h
  | hwWrite | txByte | txDone | syncD | envWrite | envRead => cases hc; exact hkept (by simp)
  | _ => cases hc

/-! ## Memory -/

/-- What one step of request `i` does to memory (20_memory.md R60). -/
inductive MemStep (i : Instr) (s t : State) : Prop where
  | kept : (∀ a, t.load a = s.load a) → MemStep i s t
  /-- step P2 -/
  | pushed (sel : BitVec 8) (byte : Byte) : i = .rbPush sel byte → s.phase = some .p2 →
      t.mem = (s.store ((s.rbAt sel.toNat).base + (s.rbAt sel.toNat).head) byte).mem → MemStep i s t
  /-- step D2 -/
  | copied (output maxLen : Word) (v : Byte) : i = .dibRead output maxLen → s.phase = some .d2 →
      t.mem = (s.store (output + s.temps.cnt) v).mem → MemStep i s t

theorem execStep_mem {i : Instr} {s t : State} (h : ExecStep i s t) (hp : s.hasPort s.env.acting = true) :
    MemStep i s t := by
  have hfr := (execStep_effect h hp).frame
  have hkept (hmem : .mem ∉ mayChange i s.phase) : MemStep i s t := .kept (Frame.part (part := .mem) hfr hmem)
  cases h with
  | noStep => exact .kept fun _ => rfl
  | p2 sel byte _ hph => exact .pushed sel byte rfl hph (State.goto_mem _ _)
  | d2 output maxLen _ hph => exact .copied output maxLen _ rfl hph (State.advance_mem _ _ _)
  | _ => exact hkept (by simp [mayChange, Instr.instanceOf, *])

/-- A byte that a store changes is the one stored to. -/
theorem eq_of_load_ne {s t : State} {a b : Word} {v : Byte} (h : t.mem = (s.store b v).mem)
    (hne : t.load a ≠ s.load a) : a = b := by
  by_contra hab
  exact hne ((State.load_congr h a).trans (State.load_store_ne hab))

/-- The byte an agent's step changes: the ingest engine's slot, or the address of software's own store. -/
theorem agentStep_load {m : Move} {c : List Part} {s t : State} {a : Word} (hc : agentParts m = some c)
    (h : MoveStep m s t) (hne : t.load a ≠ s.load a) :
    (∃ b, m = .hwWrite b ∧ s.dib.run = true ∧ a = s.dib.hw) ∨ ∃ v, m = .envWrite a v ∧ s.envForbidden a = false := by
  have hfr := moveStep_agentFrame h hc
  have hkept (hmem : .mem ∉ c) : t.load a = s.load a := AgentFrame.part (part := .mem) hfr hmem a
  cases h with
  | hwWrite b =>
    unfold hwWriteStep at hne
    split at hne
    · next hrun => exact .inl ⟨b, rfl, hrun, eq_of_load_ne (v := b) rfl hne⟩
    · exact absurd rfl hne
  | envWrite b v _ hallowed =>
    obtain rfl : a = b := eq_of_load_ne (v := v) rfl hne
    exact .inr ⟨v, rfl, hallowed⟩
  | txByte | txDone | syncD | syncH | syncT | envRead => cases hc; exact absurd (hkept (by simp)) hne
  | _ => cases hc

/-! ## The request in flight after a step -/

section
variable {i : Instr} {c : List Part} {s t u : State} {g : Flight} {ph ph' : Phase} {sel : BitVec 8} {byte : Byte}

theorem flight_of_frame (hfr : Frame c s t) : t.flight = (t.port s.env.acting).flight := by
  obtain ⟨-, -, henv, -⟩ := hfr
  rw [State.flight, henv]

/-- A step that answers leaves nothing in flight. -/
theorem not_flight_respond {st : Status} {v : Word} (hg : (u.respond st v).flight = some g) (hfr : AgentFrame c s u)
    (hp : s.hasPort s.env.acting = true) : False := by
  obtain ⟨hans, hfr⟩ := respond_after st v hfr hp
  rw [flight_of_frame hfr, hans] at hg
  cases hg

theorem flight_advance (hfr : AgentFrame c s u) (hph : s.phase = some ph') {tmp : Temps}
    (hg : (u.advance ph tmp).flight = some g) : g.phase = ph ∧ g.temps = tmp := by
  obtain ⟨⟨f, -, hgo⟩, hfr⟩ := advance_after ph tmp hfr hph
  rw [flight_of_frame hfr, hgo] at hg
  cases hg
  exact ⟨rfl, rfl⟩

theorem flight_begin (hp : s.hasPort s.env.acting = true) (hg : (s.begin i ph).flight = some g) : g.phase = ph := by
  rw [flight_of_frame (State.begin_frame s i ph), State.begin, State.port_setPort_self hp] at hg
  cases hg
  rfl

/-- What a step of a request leaves in flight on its port is that request. -/
theorem instr_of_flight (h : ExecStep i s t) (hp : s.hasPort s.env.acting = true)
    (hreq : ∀ f, s.flight = some f → f.instr = i) (hg : t.flight = some g) : g.instr = i := by
  obtain ⟨hport, hfr⟩ := execStep_effect h hp
  rw [flight_of_frame hfr] at hg
  cases hport with
  | stays hsame => exact hreq g (by rwa [hsame] at hg)
  | answers st v hans => rw [hans] at hg; cases hg
  | begins _ _ hbegun => rw [hbegun] at hg; cases hg; rfl
  | goesOn ph tmp _ hgo =>
    obtain ⟨f, hf, hnext⟩ := hgo
    rw [hnext] at hg
    cases hg
    exact hreq f hf

/-- How a step of a push leaves it in flight: just accepted, as it was, or at P2 or P3. -/
theorem push_flight (h : ExecStep (.rbPush sel byte) s t) (hp : s.hasPort s.env.acting = true)
    (hg : t.flight = some g) :
    g.phase = .p1 ∨ t = s ∨
    (s.phase = some .p1 ∧ g.phase = .p2 ∧
      g.temps.next = nextCursor (s.rbAt sel.toNat).head (s.rbAt sel.toNat).mask ∧
      g.temps.next ≠ (s.rbAt sel.toNat).viewTail s.cfg.rbSync) ∨
    (s.phase = some .p2 ∧ g.phase = .p3 ∧ g.temps = s.temps ∧
      t.mem = (s.store ((s.rbAt sel.toNat).base + (s.rbAt sel.toNat).head) byte).mem) := by
  have hs := AgentFrame.refl s []
  cases h with
  | accepted => exact .inl (flight_begin hp hg)
  | turnedAway => exact (not_flight_respond hg hs hp).elim
  | noStep => exact .inr (.inl rfl)
  | p1 _ _ _ hph =>
    simp only [rbPushP1] at hg
    split at hg
    · exact (not_flight_respond hg hs hp).elim
    · next hroom =>
      obtain ⟨hphase, htemps⟩ := flight_advance hs hph hg
      exact .inr (.inr (.inl ⟨hph, hphase, by rw [htemps], by rw [htemps]; exact hroom⟩))
  | p2 _ _ _ hph =>
    obtain ⟨hphase, htemps⟩ := flight_advance (AgentFrame.store s _ _) hph hg
    exact .inr (.inr (.inr ⟨hph, hphase, htemps, State.goto_mem _ _⟩))
  | p3 => exact (not_flight_respond hg (AgentFrame.setRb rfl) hp).elim
  | v1 _ _ _ hdone | v2 _ _ _ hdone | v3 _ _ _ hdone | v4 _ _ _ hdone => cases hdone

/-- How a step of a pop leaves it in flight: just accepted, as it was, or at C2 or C3. -/
theorem pop_flight (h : ExecStep (.rbPop sel) s t) (hp : s.hasPort s.env.acting = true) (hg : t.flight = some g) :
    g.phase = .c1 ∨ t = s ∨
    (s.phase = some .c1 ∧ g.phase = .c2 ∧
      (s.rbAt sel.toNat).viewHead s.cfg.rbSync ≠ (s.rbAt sel.toNat).tail) ∨
    (s.phase = some .c2 ∧ g.temps.byte = s.load ((s.rbAt sel.toNat).base + (s.rbAt sel.toNat).tail)) := by
  have hs := AgentFrame.refl s []
  cases h with
  | accepted => exact .inl (flight_begin hp hg)
  | turnedAway => exact (not_flight_respond hg hs hp).elim
  | noStep => exact .inr (.inl rfl)
  | c1 _ _ hph =>
    simp only [rbPopC1, cursorsEmpty, decide_eq_true_eq] at hg
    split at hg
    · exact (not_flight_respond hg hs hp).elim
    · next hbyte => exact .inr (.inr (.inl ⟨hph, (flight_advance hs hph hg).1, hbyte⟩))
  | c2 _ _ hph => exact .inr (.inr (.inr ⟨hph, by rw [(flight_advance hs hph hg).2]⟩))
  | c3 => exact (not_flight_respond hg (AgentFrame.setRb rfl) hp).elim
  | v1 _ _ _ hdone | v2 _ _ _ hdone | v3 _ _ _ hdone | v4 _ _ _ hdone => cases hdone

theorem storeDib_frame (s : State) (a : Word) (v : Byte) (d : Dib) :
    AgentFrame [.mem, .dib] s { s.store a v with dib := d } :=
  AgentFrame.trans (AgentFrame.weaken (AgentFrame.store s a v) (by simp))
    (AgentFrame.weaken (AgentFrame.setDib _ d) (by simp))

/-- The loop of `DIB.READ` makes another pass only while there is room in the output. -/
theorem cnt_lt_of_dibReadNext {rd prod cnt maxLen : Word} (h : dibReadNext rd prod cnt maxLen = .d2) :
    cnt < maxLen := by
  unfold dibReadNext at h
  split at h
  · next hmore => simp only [Bool.and_eq_true, decide_eq_true_eq] at hmore; exact hmore.2
  · cases h

/-- Everything step D1 can do when it answers a next state: the output region is a good one, and the loop begins. -/
theorem dibReadD1_next {output maxLen : Word} (h : dibReadD1 output maxLen s = .next t) :
    (operandRegion output maxLen).fits = true ∧ s.clearOfDib (operandRegion output maxLen) = true ∧
      s.clearOfStores (operandRegion output maxLen) = true ∧
      t = s.advance (dibReadNext s.dib.rd (dibIndex s.cfg s.viewHw) 0 maxLen)
        { s.temps with prod := dibIndex s.cfg s.viewHw, cnt := 0 } := by
  unfold dibReadD1 at h
  split_ifs at h with hfits hclear
  cases h
  simp only [Bool.not_eq_true', Bool.not_eq_false, Bool.and_eq_true] at hfits hclear
  exact ⟨hfits, hclear.1, hclear.2, rfl⟩

/-- How a step of a read leaves it in flight: just accepted, as it was, or in the loop. -/
theorem read_flight {output maxLen : Word} (h : ExecStep (.dibRead output maxLen) s t)
    (hp : s.hasPort s.env.acting = true) (hg : t.flight = some g) :
    g.phase = .d1 ∨ t = s ∨
    (s.phase = some .d1 ∧ (operandRegion output maxLen).fits = true ∧
      s.clearOfDib (operandRegion output maxLen) = true ∧ s.clearOfStores (operandRegion output maxLen) = true ∧
      (g.phase = .d2 → g.temps.cnt < maxLen)) ∨
    (s.phase = some .d2 ∧ (g.phase = .d2 → g.temps.cnt < maxLen)) := by
  have hs := AgentFrame.refl s []
  cases h with
  | accepted => exact .inl (flight_begin hp hg)
  | turnedAway => exact (not_flight_respond hg hs hp).elim
  | noStep => exact .inr (.inl rfl)
  | d1 _ _ _ _ hph h =>
    obtain ⟨hfits, hdib, hstores, rfl⟩ := dibReadD1_next h
    obtain ⟨hphase, htemps⟩ := flight_advance hs hph hg
    refine .inr (.inr (.inl ⟨hph, hfits, hdib, hstores, fun hd2 => ?_⟩))
    rw [htemps]
    exact cnt_lt_of_dibReadNext (hphase.symm.trans hd2)
  | d2 _ _ _ hph =>
    obtain ⟨hphase, htemps⟩ := flight_advance (storeDib_frame s _ _ _) hph hg
    refine .inr (.inr (.inr ⟨hph, fun hd2 => ?_⟩))
    rw [htemps]
    exact cnt_lt_of_dibReadNext (hphase.symm.trans hd2)
  | d3 => exact (not_flight_respond hg hs hp).elim
  | v1 _ _ _ hdone | v2 _ _ _ hdone | v3 _ _ _ hdone | v4 _ _ _ hdone => cases hdone

end

end Sys2Proof.Proofs
end

section
/-! PROOFS. Family 20_memory.md: every step keeps the rings in range (40_ringbuffer.md R127) and the stores apart
(70_reset_and_hazards.md R294). -/

namespace Sys2Proof.Proofs

open Sys2Proof.Machine Sys2Proof.Safety

/-- What holds of a ring as reset leaves it holds of all rings in the list when it holds of every `rbAt`. -/
theorem rb_all_iff {s : State} {p : Rb → Bool} (hreset : p Rb.reset = true) :
    s.rb.all p = true ↔ ∀ j, p (s.rbAt j) = true := by
  rw [List.all_eq_true]
  constructor
  · intro h j
    by_cases hj : j < s.nRb
    · exact h _ (State.rbAt_mem hj)
    · rwa [State.rbAt_of_ge (Nat.not_lt.mp hj)]
  · intro h r hr
    obtain ⟨j, hj, rfl⟩ := List.getElem_of_mem hr
    simpa [State.rbAt, hj] using h j

/-! ## The registers of a ring in range -/

/-- The registers of a ring are in range: `ringOk` but for the push in flight. -/
structure RegsOk (mode : SyncMode) (r : Rb) : Prop where
  mask : maskOk r.mask = true
  head : r.head ≤ r.mask
  tail : r.tail ≤ r.mask
  headSeen : r.headSeen ≤ r.mask
  tailSeen : r.tailSeen ≤ r.mask
  fits : r.store.fits = true
  based : r.base ≠ 0 ∨ r.mask = 0
  unread : mode = .gray ∨ r.headSeen = 0 ∧ r.tailSeen = 0

theorem ringOk_iff {mode : SyncMode} {r : Rb} : ringOk mode r = true ↔ RegsOk mode r ∧ pendingOk r = true := by
  simp only [ringOk, Bool.and_eq_true, Bool.or_eq_true, decide_eq_true_eq]
  constructor
  · rintro ⟨⟨⟨⟨⟨⟨⟨⟨hmask, hhead⟩, htail⟩, hhs⟩, hts⟩, hpend⟩, hfits⟩, hbase⟩, hmode⟩
    exact ⟨⟨hmask, hhead, htail, hhs, hts, hfits, hbase, hmode⟩, hpend⟩
  · rintro ⟨⟨hmask, hhead, htail, hhs, hts, hfits, hbase, hmode⟩, hpend⟩
    exact ⟨⟨⟨⟨⟨⟨⟨⟨hmask, hhead⟩, htail⟩, hhs⟩, hts⟩, hpend⟩, hfits⟩, hbase⟩, hmode⟩

theorem ringOk_reset (mode : SyncMode) : ringOk mode Rb.reset = true := by cases mode <;> decide

theorem ringsOk_iff {s : State} :
    ringsOk s = true ↔ ∀ j, RegsOk s.cfg.rbSync (s.rbAt j) ∧ pendingOk (s.rbAt j) = true := by
  simp only [ringsOk, rb_all_iff (ringOk_reset _), ringOk_iff]

theorem pendingOk_iff {r : Rb} : pendingOk r = true ↔
    ∀ f, r.port.flight = some f → f.phase = .p2 ∨ f.phase = .p3 → f.temps.next ≤ r.mask := by
  unfold pendingOk
  cases r.port.flight with
  | none => simp
  | some f =>
    simp only [Option.some.injEq, forall_eq', Bool.or_eq_true, Bool.and_eq_true, decide_eq_true_eq, ne_eq, ← not_or,
      ← imp_iff_not_or]

theorem store_of_sameRegs {r r' : Rb} (h : sameRegs r r') : r'.store = r.store := by
  obtain ⟨hbase, hmask, -⟩ := h
  simp only [Rb.store, hbase, hmask]

/-! ## RB.INIT -/

section
variable {c : Params} {mode : SyncMode} {r : Rb} {base size : Word}

theorem initRejected_eq_false (h : initRejected c base size = false) : sizeOk size = true ∧ base ≠ 0 := by
  simp only [initRejected, Bool.or_eq_false_iff, Bool.not_eq_false', decide_eq_false_iff_not] at h
  exact h.1

/-- A size that is a power of two gives a mask of ones. -/
theorem maskOk_of_sizeOk (h : sizeOk size = true) : maskOk (size - 1) = true := by
  simp only [sizeOk, Bool.and_eq_true, decide_eq_true_eq] at h
  obtain ⟨hne, hand⟩ := h
  have hone : size - 1 ≠ BitVec.allOnes 32 := by
    simp only [ne_eq, ← BitVec.toNat_inj, BitVec.toNat_allOnes]
    bv_omega
  simp only [maskOk, Bool.and_eq_true, decide_eq_true_eq, BitVec.sub_add_cancel]
  exact ⟨BitVec.and_comm size _ ▸ hand, hone⟩

theorem initialised_base (mode : SyncMode) (r : Rb) (base size : Word) :
    (r.initialised mode base size).base = base := by
  cases mode <;> rfl

theorem initialised_mask (mode : SyncMode) (r : Rb) (base size : Word) :
    (r.initialised mode base size).mask = size - 1 := by
  cases mode <;> rfl

/-- The store of a ring just initialised is the region the request names. -/
theorem initialised_store (h : initRejected c base size = false) :
    (r.initialised mode base size).store = operandRegion base size := by
  obtain ⟨hsize, hbase⟩ := initRejected_eq_false h
  simp only [sizeOk, Bool.and_eq_true, decide_eq_true_eq] at hsize
  have hlen : (size - 1).toNat + 1 = size.toNat := by
    have hne := hsize.1
    bv_omega
  simp only [Rb.store, initialised_base, initialised_mask, operandRegion, if_neg hbase, hlen]

theorem RegsOk.initialised (hr : RegsOk mode r) (h : initRejected c base size = false)
    (hfits : (operandRegion base size).fits = true) : RegsOk mode (r.initialised mode base size) := by
  obtain ⟨hsize, hbase⟩ := initRejected_eq_false h
  have hstore : (r.initialised mode base size).store.fits = true := by rwa [initialised_store h]
  have hzero (x : Word) : 0 ≤ x := BitVec.le_def.mpr (Nat.zero_le _)
  cases mode with
  | direct =>
    obtain ⟨hhs, hts⟩ := hr.unread.resolve_left nofun
    exact ⟨maskOk_of_sizeOk hsize, hzero _, hzero _, hhs ▸ hzero _, hts ▸ hzero _, hstore, .inl hbase, .inr ⟨hhs, hts⟩⟩
  | gray =>
    exact ⟨maskOk_of_sizeOk hsize, hzero _, hzero _, hzero _, hzero _, hstore, .inl hbase, .inl rfl⟩

end

/-! ## The registers after a step -/

section
variable {s t : State} {j : Nat}

theorem RegsOk.congr {mode : SyncMode} {r r' : Rb} (h : RegsOk mode r) (hsame : sameRegs r r') : RegsOk mode r' := by
  have hstore := store_of_sameRegs hsame
  obtain ⟨hbase, hmask, hhead, htail, hheadSeen, htailSeen⟩ := hsame
  obtain ⟨h1, h2, h3, h4, h5, h6, h7, h8⟩ := h
  exact ⟨hmask ▸ h1, hmask ▸ hhead ▸ h2, hmask ▸ htail ▸ h3, hmask ▸ hheadSeen ▸ h4, hmask ▸ htailSeen ▸ h5,
    hstore ▸ h6, hbase ▸ hmask ▸ h7, hheadSeen ▸ htailSeen ▸ h8⟩

section
variable {mode : SyncMode} {r : Rb} {x : Word}

theorem RegsOk.setHead (h : RegsOk mode r) (hx : x ≤ r.mask) : RegsOk mode { r with head := x } :=
  ⟨h.mask, hx, h.tail, h.headSeen, h.tailSeen, h.fits, h.based, h.unread⟩

theorem RegsOk.setTail (h : RegsOk mode r) (hx : x ≤ r.mask) : RegsOk mode { r with tail := x } :=
  ⟨h.mask, h.head, hx, h.headSeen, h.tailSeen, h.fits, h.based, h.unread⟩

theorem RegsOk.setHeadSeen (h : RegsOk mode r) (hx : x ≤ r.mask) (hmode : mode = .gray) :
    RegsOk mode { r with headSeen := x } :=
  ⟨h.mask, h.head, h.tail, hx, h.tailSeen, h.fits, h.based, .inl hmode⟩

theorem RegsOk.setTailSeen (h : RegsOk mode r) (hx : x ≤ r.mask) (hmode : mode = .gray) :
    RegsOk mode { r with tailSeen := x } :=
  ⟨h.mask, h.head, h.tail, h.headSeen, hx, h.fits, h.based, .inl hmode⟩

end

/-- A step keeps the place and the size of a ring, unless it initialises it. -/
theorem RingStep.base_mask (h : RingStep s t j) :
    (t.rbAt j).base = (s.rbAt j).base ∧ (t.rbAt j).mask = (s.rbAt j).mask ∨
    ∃ f sel base size, s.flight = some f ∧ f.instr = .rbInit sel base size ∧ sel.toNat = j ∧
      InitAllowed s j base size ∧ (t.rbAt j).store = operandRegion base size := by
  cases h with
  | kept h | pushed _ _ _ _ _ _ _ _ h | popped _ _ _ _ _ _ _ h | syncedHead _ h | syncedTail _ h =>
    obtain ⟨hbase, hmask, -⟩ := h
    exact .inl ⟨hbase.symm, hmask.symm⟩
  | initialised f sel base size hf hi hsel hallowed _ h =>
    exact .inr ⟨f, sel, base, size, hf, hi, hsel, hallowed,
      (store_of_sameRegs h).trans (initialised_store hallowed.accepted)⟩

/-- While a request is in flight on the producer port of a ring no step initialises the ring. -/
theorem RingStep.base_mask_of_busy (h : RingStep s t j) (hbusy : s.busy (.prod j) = true) :
    (t.rbAt j).base = (s.rbAt j).base ∧ (t.rbAt j).mask = (s.rbAt j).mask := by
  obtain hkept | ⟨_, _, _, _, _, _, _, hallowed, _⟩ := h.base_mask
  · exact hkept
  · exact absurd hbusy (by simp [hallowed.idle])

theorem busy_of_flight {p : Port} {f : Flight} (hf : (s.port p).flight = some f) : s.busy p = true :=
  Option.isSome_iff_exists.mpr ⟨f, hf⟩

theorem RingStep.pendingOk_of_port (h : RingStep s t j) (hport : (t.rbAt j).port = (s.rbAt j).port)
    (hs : pendingOk (s.rbAt j) = true) : pendingOk (t.rbAt j) = true := by
  rw [pendingOk_iff, hport] at *
  intro f hf hph
  rw [(h.base_mask_of_busy (busy_of_flight (p := .prod j) hf)).2]
  exact hs f hf hph

end

/-! ## The range of every ring -/

section
variable {i : Instr} {s t : State}

/-- Only a push is at P2 or P3, and it is on the producer port of its ring. -/
theorem push_of_phase {p : Port} {f : Flight} (hfl : flightsOk s = true) (hf : (s.port p).flight = some f)
    (hph : f.phase = .p2 ∨ f.phase = .p3) : ∃ sel byte, f.instr = .rbPush sel byte ∧ p = .prod sel.toNat := by
  obtain ⟨hadm, -, hmem⟩ := (flightOk_iff hf).mp (flightsOk_iff.mp hfl p)
  obtain ⟨instr, phase, temps⟩ := f
  cases instr <;> obtain rfl | rfl := hph <;> simp [stepsOf] at hmem
  all_goals exact ⟨_, _, rfl, by simpa [admits] using hadm⟩

/-- A push takes its steps on the producer port of its ring. -/
theorem acting_of_push {f : Flight} {sel : BitVec 8} {byte : Byte} (hfl : flightsOk s = true)
    (hf : s.flight = some f) (hi : f.instr = .rbPush sel byte) : s.env.acting = .prod sel.toNat := by
  obtain ⟨hadm, -⟩ := flightsOk_acting hfl hf
  simpa [hi, admits] using hadm

/-- A request that port M alone admits takes its steps there. -/
theorem acting_eq_main {f : Flight} (hfl : flightsOk s = true) (hf : s.flight = some f) (hi : f.instr = i)
    (hmain : ∀ p, admits p i = decide (p = .main)) : s.env.acting = .main := by
  obtain ⟨hadm, -⟩ := flightsOk_acting hfl hf
  rw [hi, hmain] at hadm
  exact of_decide_eq_true hadm

/-- A step keeps the registers of a ring in range; the cursor a push publishes is the one it has found. -/
theorem RingStep.regsOk {j : Nat} (h : RingStep s t j) (hfl : flightsOk s = true) (hs : ringsOk s = true) :
    RegsOk s.cfg.rbSync (t.rbAt j) := by
  obtain ⟨hr, hpend⟩ := ringsOk_iff.mp hs j
  cases h with
  | kept h => exact hr.congr h
  | initialised _ _ _ _ _ _ _ hallowed _ h => exact (hr.initialised hallowed.accepted hallowed.fits).congr h
  | pushed f sel byte hf hi hsel hph _ h =>
    rw [State.flight, acting_of_push hfl hf hi, hsel] at hf
    exact (hr.setHead (pendingOk_iff.mp hpend f hf (.inr hph))).congr h
  | popped _ _ _ _ _ _ _ h => exact (hr.setTail (nextCursor_le _ _)).congr h
  | syncedHead hmode h => exact (hr.setHeadSeen hr.head hmode).congr h
  | syncedTail hmode h => exact (hr.setTailSeen hr.tail hmode).congr h

theorem execStep_pendingOk (hfl : flightsOk s = true) (hs : ringsOk s = true) (hp : s.hasPort s.env.acting = true)
    (hreq : ∀ f, s.flight = some f → f.instr = i) (h : ExecStep i s t) (j : Nat) : pendingOk (t.rbAt j) = true := by
  have hring := execStep_ring h hp hreq j
  have hfr := (execStep_effect h hp).frame
  have hpend := (ringsOk_iff.mp hs j).2
  by_cases hact : .prod j = s.env.acting
  · rw [pendingOk_iff] at hpend ⊢
    intro g hg hph
    have hg' : t.flight = some g := by rw [flight_of_frame hfr, ← hact]; exact hg
    obtain ⟨sel, byte, hi, hsel⟩ := push_of_phase (p := .prod j) (execStep_flightsOk hfl hp hreq h) hg hph
    obtain rfl : j = sel.toNat := by simpa using hsel
    obtain rfl : i = .rbPush sel byte := (instr_of_flight h hp hreq hg').symm.trans hi
    have hmask {f : Flight} (hf : s.flight = some f) : (t.rbAt sel.toNat).mask = (s.rbAt sel.toNat).mask :=
      (hring.base_mask_of_busy (hact ▸ busy_of_flight hf)).2
    obtain hp1 | rfl | ⟨hsph, -, hnext, -⟩ | ⟨hsph, -, htemps, -⟩ := push_flight h hp hg'
    · simp [hp1] at hph
    · exact hpend g hg hph
    · obtain ⟨f, hf, -⟩ := State.flight_of_phase hsph
      rw [hnext, hmask hf]
      exact nextCursor_le _ _
    · obtain ⟨f, hf, hfph⟩ := State.flight_of_phase hsph
      rw [htemps, hmask hf, State.temps_of_flight hf]
      rw [State.flight, ← hact] at hf
      exact hpend f hf (.inl hfph)
  · exact hring.pendingOk_of_port (Frame.port hfr hact) hpend

end

/-- The answer to a word that matches no row is the one to a request that the port does not admit. -/
theorem execStep_badWord {s : State} (hfl : s.flight = none) : ∃ i, ExecStep i s (s.fail .badRequest) := by
  obtain ⟨i, hi⟩ : ∃ i, admits s.env.acting i = false := by
    cases s.env.acting with
    | main => exact ⟨.rbPush 0 0, rfl⟩
    | prod k => exact ⟨.brcRecover, rfl⟩
  exact ⟨i, .turnedAway i s (State.phase_none hfl) (by simp [hi])⟩

/-- An invariant that every step of a request keeps is kept by the answer to a word that matches no row. -/
theorem KeptBySteps.of_exec {Inv : State → Prop} (henv : ∀ (s : State) (e : Env), Inv s → Inv { s with env := e })
    (hexec : ∀ (i : Instr) (s t : State), Inv s → s.hasPort s.env.acting = true →
      (∀ f, s.flight = some f → f.instr = i) → ExecStep i s t → Inv t)
    (hagent : ∀ (m : Move) (c : List Part) (s t : State), Inv s → agentParts m = some c → MoveStep m s t → Inv t)
    (hreset : ∀ (x y : Bool) (acc : List Byte) (s : State), Inv s → Inv (resetStep x y acc s)) : KeptBySteps Inv where
  env := henv
  exec := hexec
  agent := hagent
  reset := hreset
  badWord s hs hp hfl :=
    have ⟨i, h⟩ := execStep_badWord hfl
    hexec i s _ hs hp (by simp [hfl]) h

theorem execStep_ringsOk {i : Instr} {s t : State} (hfl : flightsOk s = true) (hs : ringsOk s = true)
    (hp : s.hasPort s.env.acting = true) (hreq : ∀ f, s.flight = some f → f.instr = i) (h : ExecStep i s t) :
    ringsOk t = true := by
  refine ringsOk_iff.mpr fun j => ⟨?_, execStep_pendingOk hfl hs hp hreq h j⟩
  rw [Frame.cfg (execStep_effect h hp).frame]
  exact (execStep_ring h hp hreq j).regsOk hfl hs

theorem ringsOk_kept : KeptBySteps fun s => flightsOk s = true ∧ ringsOk s = true := by
  refine .of_exec (fun _ _ hs => hs) ?_ ?_ ?_
  · intro i s t hs hp hreq h
    exact ⟨execStep_flightsOk hs.1 hp hreq h, execStep_ringsOk hs.1 hs.2 hp hreq h⟩
  · intro m c s t hs hc h
    have hfr := moveStep_agentFrame h hc
    refine ⟨flightsOk_of_agentFrame hfr hs.1, ringsOk_iff.mpr fun j => ?_⟩
    have hring := agentStep_ring hc h j
    rw [AgentFrame.cfg hfr]
    exact ⟨hring.regsOk hs.1 hs.2, hring.pendingOk_of_port (AgentFrame.port hfr (.prod j)) (ringsOk_iff.mp hs.2 j).2⟩
  · intro x y acc s hs
    exact ⟨flightsOk_kept.reset x y acc s hs.1, resetWith_ringsOk s.cfg s.nRb⟩

/-! ## Stores apart -/

theorem Region.disjoint_comm (a b : Region) : a.disjoint b = b.disjoint a := by
  rw [Bool.eq_iff_iff]
  simp only [Region.disjoint, Bool.or_eq_true, decide_eq_true_eq]
  tauto

/-- No address lies in two disjoint regions. -/
theorem Region.not_contains_both {g q : Region} {a : Nat} (h : g.disjoint q = true) (hg : g.contains a = true)
    (hq : q.contains a = true) : False := by
  simp only [Region.disjoint, Region.contains, Bool.or_eq_true, Bool.and_eq_true, decide_eq_true_eq] at h hg hq
  omega

/-- An offset below the length of a region that does not wrap leads into the region. -/
theorem Region.contains_add {g : Region} {a x : Word} (hlo : g.lo = a.toNat) (hfits : g.fits = true)
    (hx : x.toNat < g.len) : g.contains (a + x).toNat = true := by
  rw [Region.fits, decide_eq_true_eq] at hfits
  have hadd : (a + x).toNat = a.toNat + x.toNat := BitVec.toNat_add_of_lt (by omega)
  simp only [Region.contains, Bool.and_eq_true, decide_eq_true_eq, hadd]
  omega

theorem storesApart_iff_pairwise {rs : List Rb} :
    storesApart rs = true ↔ rs.Pairwise fun r q => r.store.disjoint q.store = true := by
  induction rs with
  | nil => simp [storesApart]
  | cons r rest ih => simp [storesApart, List.pairwise_cons, ih]

theorem storesApart_iff {s : State} :
    storesApart s.rb = true ↔ ∀ i j, i ≠ j → (s.rbAt i).store.disjoint (s.rbAt j).store = true := by
  rw [storesApart_iff_pairwise, List.pairwise_iff_getElem]
  have hget {i : Nat} (hi : i < s.rb.length) : s.rbAt i = s.rb[i] := by simp [State.rbAt, hi]
  constructor
  · intro h
    have hlt (i j : Nat) (hij : i < j) : (s.rbAt i).store.disjoint (s.rbAt j).store = true := by
      by_cases hj : j < s.rb.length
      · rw [hget (hij.trans hj), hget hj]
        exact h i j _ hj hij
      · rw [State.rbAt_of_ge (i := j) (Nat.not_lt.mp hj)]
        exact Region.disjoint_reset_store _
    intro i j hij
    obtain hij | hij := Nat.lt_or_gt_of_ne hij
    · exact hlt i j hij
    · rw [Region.disjoint_comm]
      exact hlt j i hij
  · intro h i j hi hj hij
    rw [← hget hi, ← hget hj]
    exact h i j (Nat.ne_of_lt hij)

theorem clearOfStores_iff {s : State} {g : Region} :
    s.clearOfStores g = true ↔ ∀ j, g.disjoint (s.rbAt j).store = true :=
  rb_all_iff (Region.disjoint_reset_store g)

/-- The stores, and the DIB buffer, share no byte: `regionsOk` of `rbAt`. -/
structure StoresApart (s : State) : Prop where
  pairwise : ∀ i j, i ≠ j → (s.rbAt i).store.disjoint (s.rbAt j).store = true
  dib : ∀ j, (dibRegion s.cfg).disjoint (s.rbAt j).store = true

theorem regionsOk_iff {s : State} : regionsOk s = true ↔ StoresApart s := by
  rw [regionsOk, Bool.and_eq_true, storesApart_iff, clearOfStores_iff]
  exact ⟨fun ⟨hpair, hdib⟩ => ⟨hpair, hdib⟩, fun ⟨hpair, hdib⟩ => ⟨hpair, hdib⟩⟩

/-- A store that an `RB.INIT` may take shares no byte with the others. -/
theorem InitAllowed.disjoint {s : State} {k j : Nat} {base size : Word} (h : InitAllowed s k base size) (hj : j ≠ k) :
    (operandRegion base size).disjoint (s.rbAt j).store = true := by
  have hall := h.clearOfOthers
  have := (rb_all_iff (s := s.setRb k Rb.reset) (Region.disjoint_reset_store _)).mp hall j
  rwa [State.rbAt_setRb_ne hj] at this

section
variable {s t : State} {j : Nat}

theorem RingStep.store_cases (h : RingStep s t j) : (t.rbAt j).store = (s.rbAt j).store ∨
    ∃ f sel base size, s.flight = some f ∧ f.instr = .rbInit sel base size ∧ sel.toNat = j ∧
      InitAllowed s j base size ∧ (t.rbAt j).store = operandRegion base size :=
  h.base_mask.imp_left fun ⟨hbase, hmask⟩ => by simp only [Rb.store, hbase, hmask]

/-- A step that initialises at most one ring, and in a free region, keeps the stores apart. -/
theorem StoresApart.step (hs : StoresApart s) (hcfg : t.cfg = s.cfg) (h : ∀ j, RingStep s t j) : StoresApart t := by
  obtain ⟨hpair, hdib⟩ := hs
  constructor
  · intro i j hij
    obtain hi | ⟨f, sel, base, size, hf, hinstr, hsel, hallowed, hi⟩ := (h i).store_cases <;>
      obtain hj | ⟨f', sel', base', size', hf', hinstr', hsel', hallowed', hj⟩ := (h j).store_cases <;>
      rw [hi, hj]
    · exact hpair i j hij
    · rw [Region.disjoint_comm]
      exact hallowed'.disjoint hij
    · exact hallowed.disjoint hij.symm
    · cases hf.symm.trans hf'
      cases hinstr.symm.trans hinstr'
      exact absurd (hsel.symm.trans hsel') hij
  · intro j
    rw [hcfg]
    obtain hj | ⟨_, _, _, _, _, _, _, hallowed, hj⟩ := (h j).store_cases <;> rw [hj]
    · exact hdib j
    · rw [Region.disjoint_comm]
      exact hallowed.clearOfDib

end

theorem regionsOk_kept : KeptBySteps fun s => regionsOk s = true := by
  refine .of_exec (fun _ _ hs => hs) ?_ ?_ (fun _ _ _ s _ => resetWith_regionsOk s.cfg s.nRb)
  · intro i s t hs hp hreq h
    exact regionsOk_iff.mpr ((regionsOk_iff.mp hs).step (Frame.cfg (execStep_effect h hp).frame)
      (execStep_ring h hp hreq))
  · intro m c s t hs hc h
    exact regionsOk_iff.mpr ((regionsOk_iff.mp hs).step (AgentFrame.cfg (moveStep_agentFrame h hc))
      (agentStep_ring hc h))

end Sys2Proof.Proofs
end

section
/-! PROOFS. Family 20_memory.md: the invariant under which a ring is a queue (O22) as a statement about what each request
in flight has found. A step of one port leaves what the others have found as it is, because their regions are disjoint
and a stale view errs on the safe side (20_memory.md R73). -/

namespace Sys2Proof.Proofs

open Sys2Proof.Machine Sys2Proof.Safety

/-! ## The machine's invariants together -/

theorem KeptBySteps.and {P Q : State → Prop} (hP : KeptBySteps P) (hQ : KeptBySteps Q) :
    KeptBySteps fun s => P s ∧ Q s where
  env s e hs := ⟨hP.env s e hs.1, hQ.env s e hs.2⟩
  exec i s t hs hp hreq h := ⟨hP.exec i s t hs.1 hp hreq h, hQ.exec i s t hs.2 hp hreq h⟩
  badWord s hs hp hfl := ⟨hP.badWord s hs.1 hp hfl, hQ.badWord s hs.2 hp hfl⟩
  agent m c s t hs hc h := ⟨hP.agent m c s t hs.1 hc h, hQ.agent m c s t hs.2 hc h⟩
  reset x y acc s hs := ⟨hP.reset x y acc s hs.1, hQ.reset x y acc s hs.2⟩

/-- What the form of the machine says is kept because the form is. -/
theorem form_kept : KeptBySteps fun s => nRbOk s.nRb = true ∧ s.mem.wf = true := by
  have hkeeps {s t : State} (h : KeepsForm s t) (hs : nRbOk s.nRb = true ∧ s.mem.wf = true) :
      nRbOk t.nRb = true ∧ t.mem.wf = true := ⟨h.nRb ▸ hs.1, h.mem hs.2⟩
  exact .of_exec (fun _ _ hs => hs) (fun _ _ _ hs _ _ h => hkeeps (execStep_keepsForm h) hs)
    (fun _ _ _ _ hs _ h => hkeeps (moveStep_keepsForm h) hs)
    (fun x y acc s hs => hkeeps (resetStep_keepsForm x y acc s) hs)

/-- The machine's invariants, one by one. -/
structure MachineInv (s : State) : Prop where
  cfg : s.cfg.wellFormed = true
  nRb : nRbOk s.nRb = true
  mem : s.mem.wf = true
  flights : flightsOk s = true
  rings : ringsOk s = true
  regions : regionsOk s = true
  dib : CursorsOk s.cfg s.dib
  cd : CdOk s.cfg s.cd
  recovery : recoveryOk s = true

theorem machineOk_iff {s : State} : machineOk s = true ↔ MachineInv s := by
  simp only [machineOk, Bool.and_eq_true, dibOk_iff, cdOk_iff]
  constructor
  · rintro ⟨⟨⟨⟨⟨⟨⟨⟨hcfg, hn⟩, hmem⟩, hfl⟩, hrings⟩, hregions⟩, hdib⟩, hcd⟩, hrec⟩
    exact ⟨hcfg, hn, hmem, hfl, hrings, hregions, hdib, hcd, hrec⟩
  · rintro ⟨hcfg, hn, hmem, hfl, hrings, hregions, hdib, hcd, hrec⟩
    exact ⟨⟨⟨⟨⟨⟨⟨⟨hcfg, hn⟩, hmem⟩, hfl⟩, hrings⟩, hregions⟩, hdib⟩, hcd⟩, hrec⟩

theorem machineOk_iff_parts (s : State) : machineOk s = true ↔
    (s.cfg.wellFormed = true ∧ CursorsOk s.cfg s.dib) ∧ (nRbOk s.nRb = true ∧ s.mem.wf = true) ∧
      (flightsOk s = true ∧ ringsOk s = true) ∧ regionsOk s = true ∧ CdOk s.cfg s.cd ∧
      flightsOk s = true ∧ recoveryOk s = true := by
  simp only [machineOk, Bool.and_eq_true, dibOk_iff, cdOk_iff]
  tauto

theorem machineOk_kept : KeptBySteps fun s => machineOk s = true := by
  simp only [machineOk_iff_parts]
  exact dibOk_kept.and (form_kept.and (ringsOk_kept.and (regionsOk_kept.and (cdOk_kept.and recoveryOk_kept))))

/-! ## What a request in flight has found -/

/-- A push past P1 on ring `r`, memory being read by `load`. -/
structure PushFound (mode : SyncMode) (load : Word → Byte) (r : Rb) (f : Flight) (byte : Byte) : Prop where
  next : f.temps.next = nextCursor r.head r.mask
  room : occupancy r.head (r.viewTail mode) r.mask < r.mask
  stored : f.phase ≠ .p2 → load (r.base + r.head) = byte

/-- A pop past C1 from ring `r`. -/
structure PopFound (mode : SyncMode) (load : Word → Byte) (r : Rb) (f : Flight) : Prop where
  seen : r.viewHead mode ≠ r.tail
  read : f.phase ≠ .c2 → f.temps.byte = load (r.base + r.tail)

/-- A `DIB.READ` past D1. -/
structure ReadFound (s : State) (output maxLen : Word) (f : Flight) : Prop where
  fits : (operandRegion output maxLen).fits = true
  clearOfStores : s.clearOfStores (operandRegion output maxLen) = true
  clearOfDib : s.clearOfDib (operandRegion output maxLen) = true
  room : f.phase = .d2 → f.temps.cnt < maxLen

theorem pushFound_iff {mode : SyncMode} {load : Word → Byte} {r : Rb} {f : Flight} {byte : Byte} :
    PushFound mode load r f byte ↔ f.temps.next = nextCursor r.head r.mask ∧
      occupancy r.head (r.viewTail mode) r.mask < r.mask ∧ (f.phase = .p2 ∨ load (r.base + r.head) = byte) :=
  ⟨fun ⟨hnext, hroom, hstored⟩ => ⟨hnext, hroom, or_iff_not_imp_left.mpr hstored⟩,
    fun ⟨hnext, hroom, hstored⟩ => ⟨hnext, hroom, hstored.resolve_left⟩⟩

theorem popFound_iff {mode : SyncMode} {load : Word → Byte} {r : Rb} {f : Flight} :
    PopFound mode load r f ↔ r.viewHead mode ≠ r.tail ∧ (f.phase = .c2 ∨ f.temps.byte = load (r.base + r.tail)) :=
  ⟨fun ⟨hseen, hread⟩ => ⟨hseen, or_iff_not_imp_left.mpr hread⟩,
    fun ⟨hseen, hread⟩ => ⟨hseen, hread.resolve_left⟩⟩

theorem readFound_iff {s : State} {output maxLen : Word} {f : Flight} : ReadFound s output maxLen f ↔
    (operandRegion output maxLen).fits = true ∧ s.clearOfStores (operandRegion output maxLen) = true ∧
      s.clearOfDib (operandRegion output maxLen) = true ∧ (f.phase ≠ .d2 ∨ f.temps.cnt < maxLen) :=
  ⟨fun ⟨hfits, hstores, hdib, hroom⟩ => ⟨hfits, hstores, hdib, Decidable.not_or_of_imp hroom⟩,
    fun ⟨hfits, hstores, hdib, hroom⟩ => ⟨hfits, hstores, hdib, hroom.resolve_left ∘ not_not_intro⟩⟩

/-- What a request in flight has found still stands. -/
structure FlightFound (s : State) (f : Flight) : Prop where
  push : ∀ sel byte, f.instr = .rbPush sel byte → f.phase ≠ .p1 →
    PushFound s.cfg.rbSync s.load (s.rbAt sel.toNat) f byte
  pop : ∀ sel, f.instr = .rbPop sel → f.phase ≠ .c1 → PopFound s.cfg.rbSync s.load (s.rbAt sel.toNat) f
  read : ∀ output maxLen, f.instr = .dibRead output maxLen → f.phase ≠ .d1 → ReadFound s output maxLen f

/-- `queueOk`, one by one. -/
structure QueueInv (s : State) : Prop where
  machine : machineOk s = true
  views : ∀ j, viewsOk s.cfg.rbSync (s.rbAt j) = true
  found : ∀ p f, (s.port p).flight = some f → FlightFound s f

theorem viewsOk_reset (mode : SyncMode) : viewsOk mode Rb.reset = true := by cases mode <;> decide

section
variable {s : State}

theorem pushOk_iff {r : Rb} : pushOk s r = true ↔ ∀ f, r.port.flight = some f →
    ∀ sel byte, f.instr = .rbPush sel byte → f.phase ≠ .p1 → PushFound s.cfg.rbSync s.load r f byte := by
  unfold pushOk
  cases r.port.flight with
  | none => simp
  | some f => cases hi : f.instr <;> simp [hi, pushFound_iff, or_iff_not_imp_left (a := f.phase = .p1), and_assoc]

theorem popOk_iff : popOk s = true ↔ ∀ f, s.main.flight = some f →
    ∀ sel, f.instr = .rbPop sel → f.phase ≠ .c1 → PopFound s.cfg.rbSync s.load (s.rbAt sel.toNat) f := by
  unfold popOk
  cases s.main.flight with
  | none => simp
  | some f => cases hi : f.instr <;> simp [hi, popFound_iff, or_iff_not_imp_left (a := f.phase = .c1)]

theorem readOk_iff : readOk s = true ↔ ∀ f, s.main.flight = some f →
    ∀ output maxLen, f.instr = .dibRead output maxLen → f.phase ≠ .d1 → ReadFound s output maxLen f := by
  unfold readOk
  cases s.main.flight with
  | none => simp
  | some f =>
    cases hi : f.instr <;> simp [hi, readFound_iff, or_iff_not_imp_left (a := f.phase = .d1), and_assoc]

/-- Each port admits but its own requests, so `pushOk`, `popOk` and `readOk` speak of every request in flight. -/
theorem queueOk_iff : queueOk s = true ↔ QueueInv s := by
  simp only [queueOk, Bool.and_eq_true, rb_all_iff (viewsOk_reset _), rb_all_iff (p := pushOk s) rfl, pushOk_iff,
    popOk_iff, readOk_iff]
  constructor
  · rintro ⟨⟨⟨⟨hmachine, hviews⟩, hpush⟩, hpop⟩, hread⟩
    refine ⟨hmachine, hviews, fun p f hf => ?_⟩
    obtain ⟨hadm, -⟩ := (flightOk_iff hf).mp (flightsOk_iff.mp (machineOk_iff.mp hmachine).flights p)
    constructor
    · intro sel byte hi
      obtain rfl : p = .prod sel.toNat := by simpa [hi, admits] using hadm
      exact hpush _ f hf sel byte hi
    · intro sel hi
      obtain rfl : p = .main := by simpa [hi, admits] using hadm
      exact hpop f hf sel hi
    · intro output maxLen hi
      obtain rfl : p = .main := by simpa [hi, admits] using hadm
      exact hread f hf output maxLen hi
  · rintro ⟨hmachine, hviews, hfound⟩
    refine ⟨⟨⟨⟨hmachine, hviews⟩, fun j f hf sel byte hi => ?_⟩, fun f hf => (hfound .main f hf).pop⟩,
      fun f hf => (hfound .main f hf).read⟩
    obtain ⟨hadm, -⟩ :=
      (flightOk_iff (p := .prod j) hf).mp (flightsOk_iff.mp (machineOk_iff.mp hmachine).flights (.prod j))
    obtain rfl : j = sel.toNat := by simpa [hi, admits] using hadm
    exact (hfound (.prod sel.toNat) f hf).push sel byte hi

end

end Sys2Proof.Proofs
end

section
/-! PROOFS. Family 20_memory.md: every step keeps the queue invariant (O22), and every byte that changes lies in its
writer's region (O54). -/

namespace Sys2Proof.Proofs

open Sys2Proof.Machine Sys2Proof.Safety

/-! ## Views of a ring (20_memory.md R69, R73) -/

section
variable {mode : SyncMode} {r r' : Rb}

theorem viewsOk_iff : viewsOk mode r = true ↔
    occupancy r.head r.tail r.mask ≤ occupancy r.head (r.viewTail mode) r.mask ∧
      occupancy (r.viewHead mode) r.tail r.mask ≤ occupancy r.head r.tail r.mask := by
  simp [viewsOk]

theorem RegsOk.viewTail (h : RegsOk mode r) : r.viewTail mode ≤ r.mask := by
  cases mode
  · exact h.tail
  · exact h.tailSeen

theorem RegsOk.viewHead (h : RegsOk mode r) : r.viewHead mode ≤ r.mask := by
  cases mode
  · exact h.head
  · exact h.headSeen

/-- In `DIRECT` mode the views are the cursors. -/
theorem viewsOk_direct (r : Rb) : viewsOk .direct r = true :=
  viewsOk_iff.mpr ⟨BitVec.le_refl _, BitVec.le_refl _⟩

theorem viewsOk_congr (h : sameRegs r r') (hv : viewsOk mode r = true) : viewsOk mode r' = true := by
  obtain ⟨-, hmask, hhead, htail, hheadSeen, htailSeen⟩ := h
  rw [viewsOk_iff] at hv ⊢
  cases mode <;> simpa only [Rb.viewTail, Rb.viewHead, hmask, hhead, htail, hheadSeen, htailSeen] using hv

/-- Where the producer sees room there is room. -/
theorem room_of_view (hv : viewsOk mode r = true) (hroom : occupancy r.head (r.viewTail mode) r.mask < r.mask) :
    occupancy r.head r.tail r.mask < r.mask :=
  Nat.lt_of_le_of_lt (viewsOk_iff.mp hv).1 hroom

/-- Where the consumer sees a byte there is one. -/
theorem byte_of_view (hr : RegsOk mode r) (hv : viewsOk mode r = true) (hseen : r.viewHead mode ≠ r.tail) :
    r.head ≠ r.tail := by
  have hle := BitVec.le_def.mp (viewsOk_iff.mp hv).2
  rw [ne_eq, ← occupancy_eq_zero_iff hr.mask hr.viewHead hr.tail] at hseen
  rw [ne_eq, ← occupancy_eq_zero_iff hr.mask hr.head hr.tail]
  omega

theorem viewsOk_initialised (r : Rb) (base size : Word) : viewsOk mode (r.initialised mode base size) = true := by
  cases mode
  · exact viewsOk_direct _
  · exact viewsOk_iff.mpr ⟨BitVec.le_refl _, BitVec.le_refl _⟩

/-- Publishing a byte raises what the ring holds and what the producer thinks it holds by one. -/
theorem viewsOk_push (hr : RegsOk mode r) (hv : viewsOk mode r = true)
    (hroom : occupancy r.head (r.viewTail mode) r.mask < r.mask) :
    viewsOk mode { r with head := nextCursor r.head r.mask } = true := by
  cases mode with
  | direct => exact viewsOk_direct _
  | gray =>
    have hocc := occupancy_nextCursor_head hr.mask hr.head hr.tail (room_of_view hv hroom)
    have hseen := occupancy_nextCursor_head hr.mask hr.head hr.tailSeen hroom
    simp only [viewsOk_iff, Rb.viewTail, Rb.viewHead, BitVec.le_def] at hv ⊢
    omega

/-- Giving a slot back lowers what the ring holds and what the consumer thinks it holds by one. -/
theorem viewsOk_pop (hr : RegsOk mode r) (hv : viewsOk mode r = true) (hseen : r.viewHead mode ≠ r.tail) :
    viewsOk mode { r with tail := nextCursor r.tail r.mask } = true := by
  cases mode with
  | direct => exact viewsOk_direct _
  | gray =>
    have hocc := occupancy_nextCursor_tail hr.mask hr.head hr.tail (byte_of_view hr hv hseen)
    have hview := occupancy_nextCursor_tail hr.mask hr.headSeen hr.tail hseen
    simp only [viewsOk_iff, Rb.viewTail, Rb.viewHead, BitVec.le_def] at hv ⊢
    omega

theorem viewsOk_syncHead (hmode : mode = .gray) (hv : viewsOk mode r = true) :
    viewsOk mode { r with headSeen := r.head } = true := by
  subst hmode
  exact viewsOk_iff.mpr ⟨(viewsOk_iff.mp hv).1, BitVec.le_refl _⟩

theorem viewsOk_syncTail (hmode : mode = .gray) (hv : viewsOk mode r = true) :
    viewsOk mode { r with tailSeen := r.tail } = true := by
  subst hmode
  exact viewsOk_iff.mpr ⟨BitVec.le_refl _, (viewsOk_iff.mp hv).2⟩

end

/-! ## What the invariant says of a ring and of the request that moves it -/

namespace QueueInv

variable {s : State} (hq : QueueInv s)
include hq

theorem flights : flightsOk s = true := (machineOk_iff.mp hq.machine).flights

theorem rings : ringsOk s = true := (machineOk_iff.mp hq.machine).rings

theorem regs (j : Nat) : RegsOk s.cfg.rbSync (s.rbAt j) := (ringsOk_iff.mp hq.rings j).1

theorem apart : StoresApart s := regionsOk_iff.mp (machineOk_iff.mp hq.machine).regions

theorem acting {f : Flight} (hf : s.flight = some f) : FlightFound s f := hq.found _ f hf

end QueueInv

section
variable {s t : State} {j : Nat}

/-- A step keeps the views of a ring in order. -/
theorem RingStep.viewsOk (h : RingStep s t j) (hq : QueueInv s) : viewsOk s.cfg.rbSync (t.rbAt j) = true := by
  have hr := hq.regs j
  have hv := hq.views j
  cases h with
  | kept h => exact viewsOk_congr h hv
  | initialised _ _ _ _ _ _ _ _ _ h => exact viewsOk_congr h (viewsOk_initialised _ _ _)
  | pushed f sel byte hf hi hsel hph _ h =>
    subst hsel
    obtain ⟨hnext, hroom, -⟩ := (hq.acting hf).push sel byte hi (by simp [hph])
    rw [hnext] at h
    exact viewsOk_congr h (viewsOk_push hr hv hroom)
  | popped f sel hf hi hsel hph _ h =>
    subst hsel
    exact viewsOk_congr h (viewsOk_pop hr hv ((hq.acting hf).pop sel hi (by simp [hph])).seen)
  | syncedHead hmode h => exact viewsOk_congr h (viewsOk_syncHead hmode hv)
  | syncedTail hmode h => exact viewsOk_congr h (viewsOk_syncTail hmode hv)

/-! ## What a step leaves as it was found -/

/-- As the producer sees it: the ring is where it was, and where there was room there is room. -/
structure ProducerSees (mode : SyncMode) (r r' : Rb) : Prop where
  base : r'.base = r.base
  mask : r'.mask = r.mask
  head : r'.head = r.head
  room : occupancy r.head (r.viewTail mode) r.mask < r.mask → occupancy r.head (r'.viewTail mode) r.mask < r.mask

/-- As the consumer sees it: the ring is where it was, and where there was a byte there is a byte. -/
structure ConsumerSees (mode : SyncMode) (r r' : Rb) : Prop where
  base : r'.base = r.base
  mask : r'.mask = r.mask
  tail : r'.tail = r.tail
  seen : r.viewHead mode ≠ r.tail → r'.viewHead mode ≠ r.tail

theorem ProducerSees.of_eq {mode : SyncMode} {r r' : Rb} (hbase : r.base = r'.base) (hmask : r.mask = r'.mask)
    (hhead : r.head = r'.head) (htail : r.tail = r'.tail) (htailSeen : r.tailSeen = r'.tailSeen) :
    ProducerSees mode r r' := by
  refine ⟨hbase.symm, hmask.symm, hhead.symm, ?_⟩
  cases mode <;> simp [Rb.viewTail, htail, htailSeen]

theorem ConsumerSees.of_eq {mode : SyncMode} {r r' : Rb} (hbase : r.base = r'.base) (hmask : r.mask = r'.mask)
    (hhead : r.head = r'.head) (htail : r.tail = r'.tail) (hheadSeen : r.headSeen = r'.headSeen) :
    ConsumerSees mode r r' := by
  refine ⟨hbase.symm, hmask.symm, htail.symm, ?_⟩
  cases mode <;> simp [Rb.viewHead, hhead, hheadSeen]

/-- A step that leaves the producer port busy leaves what a push on it has found: a pop and a synchroniser only add to
the room the producer sees. -/
theorem RingStep.producerSees (h : RingStep s t j) (hq : QueueInv s) (hbusy : s.busy (.prod j) = true)
    (hbusy' : t.busy (.prod j) = true) : ProducerSees s.cfg.rbSync (s.rbAt j) (t.rbAt j) := by
  have hr := hq.regs j
  have hv := hq.views j
  cases h with
  | kept h =>
    obtain ⟨hbase, hmask, hhead, htail, -, htailSeen⟩ := h
    exact .of_eq hbase hmask hhead htail htailSeen
  | initialised _ _ _ _ _ _ _ hallowed _ _ => exact absurd hbusy (by simp [hallowed.idle])
  | pushed f sel byte hf hi hsel _ hans _ =>
    rw [Answered, acting_of_push hq.flights hf hi, hsel] at hans
    exact absurd hbusy' (by simp [State.busy, hans])
  | popped f sel hf hi hsel hph _ h =>
    subst hsel
    have hne := byte_of_view hr hv ((hq.acting hf).pop sel hi (by simp [hph])).seen
    obtain ⟨hbase, hmask, hhead, htail, -, htailSeen⟩ := h
    refine ⟨hbase.symm, hmask.symm, hhead.symm, ?_⟩
    cases s.cfg.rbSync with
    | direct =>
      have hocc := occupancy_nextCursor_tail hr.mask hr.head hr.tail hne
      simp only [Rb.viewTail, ← htail, BitVec.lt_def]
      omega
    | gray => simp [Rb.viewTail, ← htailSeen]
  | syncedHead _ h =>
    obtain ⟨hbase, hmask, hhead, htail, -, htailSeen⟩ := h
    exact .of_eq hbase hmask hhead htail htailSeen
  | syncedTail hmode h =>
    obtain ⟨hbase, hmask, hhead, -, -, htailSeen⟩ := h
    refine ⟨hbase.symm, hmask.symm, hhead.symm, fun hroom => ?_⟩
    simpa [hmode, Rb.viewTail, ← htailSeen] using room_of_view hv hroom

/-- A step that leaves a pop in flight leaves what the pop has found: a push and a synchroniser only add to the bytes
the consumer sees. -/
theorem RingStep.consumerSees {f : Flight} {sel : BitVec 8} (h : RingStep s t j) (hq : QueueInv s)
    (hf : s.main.flight = some f) (hi : f.instr = .rbPop sel) (hbusy' : t.busy .main = true) :
    ConsumerSees s.cfg.rbSync (s.rbAt j) (t.rbAt j) := by
  have hr := hq.regs j
  have hv := hq.views j
  cases h with
  | kept h =>
    obtain ⟨hbase, hmask, hhead, htail, hheadSeen, -⟩ := h
    exact .of_eq hbase hmask hhead htail hheadSeen
  | initialised f' sel' base size hf' hi' _ _ _ _ =>
    rw [State.flight, acting_eq_main hq.flights hf' hi' fun _ => rfl] at hf'
    cases hf.symm.trans hf'
    cases hi.symm.trans hi'
  | pushed f' sel' byte hf' hi' hsel hph _ h =>
    subst hsel
    obtain ⟨hnext, hroom, -⟩ := (hq.acting hf').push sel' byte hi' (by simp [hph])
    obtain ⟨hbase, hmask, hhead, htail, hheadSeen, -⟩ := h
    refine ⟨hbase.symm, hmask.symm, htail.symm, ?_⟩
    cases s.cfg.rbSync with
    | direct =>
      have hne := (occupancy_lt_iff hr.mask hr.head hr.tail).mp (room_of_view hv hroom)
      simpa [Rb.viewHead, ← hhead, hnext] using fun _ => hne
    | gray => simp [Rb.viewHead, ← hheadSeen]
  | popped f' sel' hf' hi' _ _ hans _ =>
    rw [Answered, acting_eq_main hq.flights hf' hi' fun _ => rfl] at hans
    exact absurd hbusy' (by simp [State.busy, hans])
  | syncedHead hmode h =>
    obtain ⟨hbase, hmask, -, htail, hheadSeen, -⟩ := h
    refine ⟨hbase.symm, hmask.symm, htail.symm, fun hseen => ?_⟩
    simpa [hmode, Rb.viewHead, ← hheadSeen] using byte_of_view hr hv hseen
  | syncedTail _ h =>
    obtain ⟨hbase, hmask, hhead, htail, hheadSeen, -⟩ := h
    exact .of_eq hbase hmask hhead htail hheadSeen

theorem PushFound.stable {mode : SyncMode} {load load' : Word → Byte} {r r' : Rb} {f : Flight} {byte : Byte}
    (h : PushFound mode load r f byte) (hsees : ProducerSees mode r r')
    (hload : load' (r.base + r.head) = load (r.base + r.head)) : PushFound mode load' r' f byte := by
  obtain ⟨hbase, hmask, hhead, hroom⟩ := hsees
  refine ⟨?_, ?_, ?_⟩ <;> rw [hhead]
  · exact hmask ▸ h.next
  · exact hmask ▸ hroom h.room
  · exact hbase ▸ hload ▸ h.stored

theorem PopFound.stable {mode : SyncMode} {load load' : Word → Byte} {r r' : Rb} {f : Flight}
    (h : PopFound mode load r f) (hsees : ConsumerSees mode r r')
    (hload : load' (r.base + r.tail) = load (r.base + r.tail)) : PopFound mode load' r' f := by
  obtain ⟨hbase, -, htail, hseen⟩ := hsees
  refine ⟨?_, ?_⟩ <;> rw [htail]
  · exact hseen h.seen
  · exact hbase ▸ hload ▸ h.read

/-! ## The bytes a step changes -/

/-- A slot of a ring with more than one lies in its store. -/
theorem RegsOk.slot_mem {mode : SyncMode} {r : Rb} {c : Word} (h : RegsOk mode r) (hc : c ≤ r.mask)
    (hmask : r.mask ≠ 0) : r.store.contains (r.base + c).toNat = true := by
  refine Region.contains_add rfl h.fits ?_
  rw [Rb.store, if_neg (h.based.resolve_right hmask)]
  exact Nat.lt_succ_of_le hc

theorem PushFound.mask_ne_zero {mode : SyncMode} {load : Word → Byte} {r : Rb} {f : Flight} {byte : Byte}
    (h : PushFound mode load r f byte) : r.mask ≠ 0 := by
  intro hzero
  have hroom := h.room
  rw [hzero] at hroom
  exact absurd hroom (by simp)

theorem PopFound.mask_ne_zero {mode : SyncMode} {load : Word → Byte} {r : Rb} {f : Flight}
    (h : PopFound mode load r f) (hr : RegsOk mode r) : r.mask ≠ 0 := by
  intro hzero
  have hview := hr.viewHead
  have htail := hr.tail
  rw [hzero] at hview htail
  exact h.seen (by bv_omega)

/-- A byte that a step of a request changes: the slot a push stores to, or one in the output of a read. -/
theorem execStep_load {i : Instr} {a : Word} (hq : QueueInv s) (hp : s.hasPort s.env.acting = true)
    (hreq : ∀ f, s.flight = some f → f.instr = i) (h : ExecStep i s t) (hne : t.load a ≠ s.load a) :
    (∃ k, s.env.acting = .prod k ∧ a = (s.rbAt k).base + (s.rbAt k).head ∧
      (s.rbAt k).store.contains a.toNat = true) ∨
    ∃ f output maxLen, s.env.acting = .main ∧ s.flight = some f ∧ f.instr = .dibRead output maxLen ∧
      (operandRegion output maxLen).contains a.toNat = true ∧ s.clearOfStores (operandRegion output maxLen) = true := by
  cases execStep_mem h hp with
  | kept hkept => exact absurd (hkept a) hne
  | pushed sel byte hi hph hmem =>
    obtain rfl := eq_of_load_ne hmem hne
    obtain ⟨f, hf, hfph⟩ := State.flight_of_phase hph
    have hfi := (hreq f hf).trans hi
    have hmask := ((hq.acting hf).push sel byte hfi (by simp [hfph])).mask_ne_zero
    exact .inl ⟨sel.toNat, acting_of_push hq.flights hf hfi, rfl, (hq.regs _).slot_mem (hq.regs _).head hmask⟩
  | copied output maxLen v hi hph hmem =>
    obtain rfl := eq_of_load_ne hmem hne
    obtain ⟨f, hf, hfph⟩ := State.flight_of_phase hph
    have hfi := (hreq f hf).trans hi
    obtain ⟨hfits, hstores, -, hroom⟩ := (hq.acting hf).read output maxLen hfi (by simp [hfph])
    have hcnt : (output + s.temps.cnt).toNat = (output + f.temps.cnt).toNat := by rw [State.temps_of_flight hf]
    exact .inr ⟨f, output, maxLen, acting_eq_main hq.flights hf hfi fun _ => rfl, hf, hfi,
      hcnt ▸ Region.contains_add rfl hfits (hroom hfph), hstores⟩

/-- Every byte of a store that a step changes is the slot at `head` of a ring, and `p` is not its producer port. -/
def StoresKeptFor (p : Port) (s t : State) : Prop :=
  ∀ j a, (s.rbAt j).store.contains a.toNat = true → t.load a ≠ s.load a →
    p ≠ .prod j ∧ a = (s.rbAt j).base + (s.rbAt j).head

theorem execStep_storesKept {i : Instr} {p : Port} (hq : QueueInv s) (hp : s.hasPort s.env.acting = true)
    (hreq : ∀ f, s.flight = some f → f.instr = i) (h : ExecStep i s t) (hother : p ≠ s.env.acting) :
    StoresKeptFor p s t := by
  intro j a ha hne
  obtain ⟨k, hact, rfl, hk⟩ | ⟨f, output, maxLen, -, -, -, hout, hclear⟩ := execStep_load hq hp hreq h hne
  · obtain rfl : k = j := by
      by_contra hkj
      exact Region.not_contains_both (hq.apart.pairwise k j hkj) hk ha
    exact ⟨hact ▸ hother, rfl⟩
  · exact (Region.not_contains_both (clearOfStores_iff.mp hclear j) hout ha).elim

/-- What lies in a store is live (R292). -/
theorem liveAddress_of_store {a : Word} (ha : (s.rbAt j).store.contains a.toNat = true) : s.liveAddress a = true := by
  have hj : j < s.nRb := by
    by_contra hge
    rw [State.rbAt_of_ge (Nat.not_lt.mp hge)] at ha
    simp [Rb.store, Rb.reset, Region.contains] at ha
  simp only [State.liveAddress, Bool.or_eq_true, List.any_eq_true]
  exact .inl ⟨_, State.rbAt_mem hj, ha⟩

/-- No other agent changes a byte of a store. -/
theorem agentStep_storesKept {m : Move} {c : List Part} (p : Port) (hq : QueueInv s) (hc : agentParts m = some c)
    (h : MoveStep m s t) : StoresKeptFor p s t := by
  intro j a ha hne
  obtain ⟨b, -, -, rfl⟩ | ⟨v, -, hallowed⟩ := agentStep_load hc h hne
  · exact (Region.not_contains_both (hq.apart.dib j) (machineOk_iff.mp hq.machine).dib.hw ha).elim
  · simp [State.envForbidden, liveAddress_of_store ha] at hallowed

/-! ## The requests in flight after a step -/

theorem ReadFound.stable {output maxLen : Word} {f : Flight} (h : ReadFound s output maxLen f) (hcfg : t.cfg = s.cfg)
    (hstore : ∀ j, (t.rbAt j).store = (s.rbAt j).store) : ReadFound t output maxLen f := by
  obtain ⟨hfits, hstores, hdib, hroom⟩ := h
  refine ⟨hfits, ?_, by rwa [State.clearOfDib, hcfg], hroom⟩
  rw [clearOfStores_iff] at hstores ⊢
  exact fun j => hstore j ▸ hstores j

/-- A request that a step leaves in flight as it was has still found what it had found. -/
theorem QueueInv.found_of_same {p : Port} {f : Flight} (hq : QueueInv s) (hcfg : t.cfg = s.cfg)
    (hring : ∀ j, RingStep s t j) (hstore : StoresKeptFor p s t) (hf : (s.port p).flight = some f)
    (hf' : (t.port p).flight = some f) : FlightFound t f := by
  have hfound := hq.found p f hf
  obtain ⟨hadm, -⟩ := (flightOk_iff hf).mp (flightsOk_iff.mp hq.flights p)
  have hbusy := busy_of_flight hf
  have hbusy' := busy_of_flight hf'
  constructor
  · intro sel byte hi hph
    obtain rfl : p = .prod sel.toNat := by simpa [hi, admits] using hadm
    have hpush := hfound.push sel byte hi hph
    have hr := hq.regs sel.toNat
    rw [hcfg]
    refine hpush.stable ((hring _).producerSees hq hbusy hbusy') ?_
    by_contra hne
    exact (hstore _ _ (hr.slot_mem hr.head hpush.mask_ne_zero) hne).1 rfl
  · intro sel hi hph
    obtain rfl : p = .main := by simpa [hi, admits] using hadm
    have hpop := hfound.pop sel hi hph
    have hr := hq.regs sel.toNat
    rw [hcfg]
    refine hpop.stable ((hring _).consumerSees hq hf hi hbusy') ?_
    by_contra hne
    obtain ⟨-, heq⟩ := hstore _ _ (hr.slot_mem hr.tail (hpop.mask_ne_zero hr)) hne
    exact byte_of_view hr (hq.views _) hpop.seen (add_left_cancel heq).symm
  · intro output maxLen hi hph
    obtain rfl : p = .main := by simpa [hi, admits] using hadm
    refine (hfound.read output maxLen hi hph).stable hcfg fun j => ?_
    obtain hsame | ⟨f', _, _, _, hf', hi', -⟩ := (hring j).store_cases
    · exact hsame
    · rw [State.flight, acting_eq_main hq.flights hf' hi' fun _ => rfl] at hf'
      cases hf.symm.trans hf'
      cases hi.symm.trans hi'

section
variable {g : Flight} {sel : BitVec 8} {byte : Byte} {output maxLen : Word}

theorem push_found (hq : QueueInv s) (hp : s.hasPort s.env.acting = true)
    (hreq : ∀ f, s.flight = some f → f.instr = .rbPush sel byte) (h : ExecStep (.rbPush sel byte) s t)
    (hg : t.flight = some g) (hph : g.phase ≠ .p1) :
    PushFound t.cfg.rbSync t.load (t.rbAt sel.toNat) g byte := by
  have hfr := (execStep_effect h hp).frame
  have hr := hq.regs sel.toNat
  have hregs (hkept : .ring sel.toNat ∉ mayChange (.rbPush sel byte) s.phase) :
      ProducerSees s.cfg.rbSync (s.rbAt sel.toNat) (t.rbAt sel.toNat) := by
    obtain ⟨hbase, hmask, hhead, htail, -, htailSeen⟩ := Frame.part (part := .ring sel.toNat) hfr hkept
    exact .of_eq hbase hmask hhead htail htailSeen
  obtain hp1 | rfl | ⟨hsph, hp2, hnext, hroom⟩ | ⟨hsph, -, htemps, hmem⟩ := push_flight h hp hg
  · exact absurd hp1 hph
  · exact (hq.acting hg).push sel byte (hreq g hg) hph
  · rw [Frame.cfg hfr]
    refine PushFound.stable (load := t.load) ?_ (hregs (by simp [hsph, mayChange])) rfl
    exact ⟨hnext, (occupancy_lt_iff hr.mask hr.head hr.viewTail).mpr (hnext ▸ hroom), absurd hp2⟩
  · obtain ⟨f, hf, hfph⟩ := State.flight_of_phase hsph
    obtain ⟨hnext, hroom, -⟩ := (hq.acting hf).push sel byte (hreq f hf) (by simp [hfph])
    rw [Frame.cfg hfr]
    refine PushFound.stable (load := t.load) ?_ (hregs (by simp [hsph, mayChange])) rfl
    rw [State.temps_of_flight hf] at htemps
    refine ⟨htemps ▸ hnext, hroom, fun _ => ?_⟩
    rw [State.load_congr hmem, State.load_store_self (machineOk_iff.mp hq.machine).mem]

theorem pop_found (hq : QueueInv s) (hp : s.hasPort s.env.acting = true)
    (hreq : ∀ f, s.flight = some f → f.instr = .rbPop sel) (h : ExecStep (.rbPop sel) s t) (hg : t.flight = some g)
    (hph : g.phase ≠ .c1) : PopFound t.cfg.rbSync t.load (t.rbAt sel.toNat) g := by
  have hfr := (execStep_effect h hp).frame
  have hkept (hmay : mayChange (.rbPop sel) s.phase = []) (hfound : PopFound s.cfg.rbSync s.load (s.rbAt sel.toNat) g) :
      PopFound t.cfg.rbSync t.load (t.rbAt sel.toNat) g := by
    rw [hmay] at hfr
    obtain ⟨hbase, hmask, hhead, htail, hheadSeen, -⟩ := Frame.part (part := .ring sel.toNat) hfr (by simp)
    rw [Frame.cfg hfr]
    exact hfound.stable (.of_eq hbase hmask hhead htail hheadSeen) (Frame.part (part := .mem) hfr (by simp) _)
  obtain hc1 | rfl | ⟨hsph, hc2, hseen⟩ | ⟨hsph, hread⟩ := pop_flight h hp hg
  · exact absurd hc1 hph
  · exact (hq.acting hg).pop sel (hreq g hg) hph
  · exact hkept (by rw [hsph]; rfl) ⟨hseen, absurd hc2⟩
  · obtain ⟨f, hf, hfph⟩ := State.flight_of_phase hsph
    exact hkept (by rw [hsph]; rfl) ⟨((hq.acting hf).pop sel (hreq f hf) (by simp [hfph])).seen, fun _ => hread⟩

theorem read_found (hq : QueueInv s) (hp : s.hasPort s.env.acting = true)
    (hreq : ∀ f, s.flight = some f → f.instr = .dibRead output maxLen) (h : ExecStep (.dibRead output maxLen) s t)
    (hg : t.flight = some g) (hph : g.phase ≠ .d1) : ReadFound t output maxLen g := by
  have hfr := (execStep_effect h hp).frame
  have hkept (hmay : ∀ j, .ring j ∉ mayChange (.dibRead output maxLen) s.phase) (hfound : ReadFound s output maxLen g) :
      ReadFound t output maxLen g :=
    hfound.stable (Frame.cfg hfr) fun j => store_of_sameRegs (Frame.part (part := .ring j) hfr (hmay j))
  obtain hd1 | rfl | ⟨hsph, hfits, hdib, hstores, hroom⟩ | ⟨hsph, hroom⟩ := read_flight h hp hg
  · exact absurd hd1 hph
  · exact (hq.acting hg).read output maxLen (hreq g hg) hph
  · exact hkept (by simp [hsph, mayChange]) ⟨hfits, hstores, hdib, hroom⟩
  · obtain ⟨f, hf, hfph⟩ := State.flight_of_phase hsph
    obtain ⟨hfits, hstores, hdib, -⟩ := (hq.acting hf).read output maxLen (hreq f hf) (by simp [hfph])
    exact hkept (by simp [hsph, mayChange]) ⟨hfits, hstores, hdib, hroom⟩

/-- What the request that takes a step has found after it. -/
theorem execStep_found {i : Instr} (hq : QueueInv s) (hp : s.hasPort s.env.acting = true)
    (hreq : ∀ f, s.flight = some f → f.instr = i) (h : ExecStep i s t) (hg : t.flight = some g) : FlightFound t g := by
  obtain rfl := instr_of_flight h hp hreq hg
  constructor
  · intro sel byte hi
    rw [hi] at h hreq
    exact push_found hq hp hreq h hg
  · intro sel hi
    rw [hi] at h hreq
    exact pop_found hq hp hreq h hg
  · intro output maxLen hi
    rw [hi] at h hreq
    exact read_found hq hp hreq h hg

end

theorem QueueInv.step (hq : QueueInv s) (hmachine : machineOk t = true) (hcfg : t.cfg = s.cfg)
    (hring : ∀ j, RingStep s t j) (hfound : ∀ p f, (t.port p).flight = some f → FlightFound t f) : QueueInv t :=
  ⟨hmachine, fun j => hcfg ▸ (hring j).viewsOk hq, hfound⟩

end

theorem queueOk_kept : KeptBySteps fun s => queueOk s = true := by
  refine .of_exec (fun _ _ hs => hs) ?_ ?_ ?_
  · intro i s t hs hp hreq h
    have hq := queueOk_iff.mp hs
    have hfr := (execStep_effect h hp).frame
    have hring := execStep_ring h hp hreq
    refine queueOk_iff.mpr (hq.step (machineOk_kept.exec i s t hq.machine hp hreq h) (Frame.cfg hfr) hring ?_)
    intro p f hf
    by_cases hact : p = s.env.acting
    · subst hact
      exact execStep_found hq hp hreq h ((flight_of_frame hfr).trans hf)
    · exact hq.found_of_same (Frame.cfg hfr) hring (execStep_storesKept hq hp hreq h hact)
        (Frame.port hfr hact ▸ hf) hf
  · intro m c s t hs hc h
    have hq := queueOk_iff.mp hs
    have hfr := moveStep_agentFrame h hc
    have hring := agentStep_ring hc h
    refine queueOk_iff.mpr (hq.step (machineOk_kept.agent m c s t hq.machine hc h) (AgentFrame.cfg hfr) hring ?_)
    intro p f hf
    exact hq.found_of_same (AgentFrame.cfg hfr) hring (agentStep_storesKept p hq hc h) (AgentFrame.port hfr p ▸ hf) hf
  · intro x y acc s hs
    refine queueOk_iff.mpr ⟨machineOk_kept.reset x y acc s (queueOk_iff.mp hs).machine, fun j => ?_, fun p f hf => ?_⟩
    · rw [show (resetStep x y acc s).rbAt j = Rb.reset from State.resetWith_rbAt s.cfg s.nRb j]
      exact viewsOk_reset _
    · rw [resetStep_port, State.resetWith_flight] at hf
      cases hf

/-- Settles O22: what the acting port's request finds is what its step tests, and what the others have found stands,
because their slots are apart and the views err on the safe side. -/
theorem queueInvariantIsKept : Obligations.QueueInvariantIsKept :=
  fun _ _ hs h => queueOk_kept.step hs h

/-! ## Memory -/

/-- Settles O54: a byte that a move changes is one the step of a port or of an agent stores to. -/
theorem onlyOwnRegionsAreWritten : Obligations.OnlyOwnRegionsAreWritten := by
  intro s t m a hs h hne
  have hm := apply_cases h
  have hagent {c : List Part} (hc : agentParts m = some c) :
      (∃ b, m = .hwWrite b ∧ s.dib.run = true ∧ (dibRegion s.cfg).contains a.toNat = true) ∨
        ∃ v, m = .envWrite a v := by
    obtain ⟨b, hb, hrun, rfl⟩ | ⟨v, hv, -⟩ := agentStep_load hc hm hne
    · exact .inl ⟨b, hb, hrun, (machineOk_iff.mp (queueOk_iff.mp hs).machine).dib.hw⟩
    · exact .inr ⟨v, hv⟩
  cases hm with
  | ignored | idle | reset => exact absurd rfl hne
  | undecoded p => exact absurd (State.load_congr (s := s.actingAs p) (State.fail_mem _ _) a) hne
  | presented p _ _ _ _ _ _ _ h =>
    obtain ⟨-, -, -, rfl⟩ | ⟨-, rfl⟩ := accept_cases h
    · exact absurd (State.load_congr (s := s.actingAs p) (State.begin_mem _ _ _) a) hne
    · exact absurd (State.load_congr (s := s.actingAs p) (State.fail_mem _ _) a) hne
  | served p d f _ _ hf h =>
    have hq : QueueInv (s.drawing p d) := queueOk_iff.mp hs
    have hreq : (s.drawing p d).flight = some f := by simpa [State.flight] using hf
    have hp : (s.drawing p d).hasPort p = true := State.hasPort_drawing s p p d ▸ State.hasPort_of_flight hf
    obtain ⟨k, hact, -, hk⟩ | ⟨f', output, maxLen, hact, hf', hi, hout, -⟩ :=
      execStep_load hq hp (by simp [hreq]) h hne
    · exact .inl ⟨k, d, congrArg (Move.port · d) hact, hk⟩
    · obtain rfl : p = .main := hact
      cases hreq.symm.trans hf'
      exact .inr (.inl ⟨d, f, output, maxLen, rfl, hf, hi, hout⟩)
  | _ => exact .inr (.inr (hagent rfl))

end Sys2Proof.Proofs
end

section
/-! PROOFS. Family 20_memory.md: regions that are refused (O11), the synchronisers (O49) and the views that catch up in
a fair run (O50), and software's own accesses (O53). -/

namespace Sys2Proof.Proofs

open Sys2Proof.Machine Sys2Proof.Safety

/-! ## Regions that wrap or overlap (20_memory.md R64, 70_reset_and_hazards.md R294) -/

theorem operandRegion_fits_eq_false {a len : Word} :
    (operandRegion a len).fits = false ↔ 2 ^ 32 < a.toNat + len.toNat := by
  rw [Region.fits, decide_eq_false_iff_not, not_le]
  rfl

theorem operandRegion_fits {a len : Word} : (operandRegion a len).fits = true ↔ a.toNat + len.toNat ≤ 2 ^ 32 := by
  rw [Region.fits, decide_eq_true_eq]
  rfl

/-- Settles O11: each of the first steps tests its region before it changes anything. -/
theorem badRegionIsRefused : Obligations.BadRegionIsRefused := by
  refine ⟨fun s a len hwrap => ?_, fun s a len hfits => ?_, fun s hph hover => ?_⟩
  · rw [← operandRegion_fits_eq_false] at hwrap
    refine ⟨fun addr hph => ?_, fun hph => ?_, fun hph => ?_, fun sel hph hidle hok => ?_⟩
    · simp [exec, execBrcSafeWrite, hph, brcSafeWriteW1, hwrap]
    · simp [exec, execDibSend, hph, dibSendS1, hwrap]
    · simp [exec, execDibRead, hph, dibReadD1, hwrap]
    · simp [exec, execRbInit, hph, rbInitI1, hidle, hok, hwrap]
  · rw [← operandRegion_fits] at hfits
    refine ⟨fun sel hph hidle hok hover => ?_, fun hph hover => ?_⟩
    · obtain hover | hover := hover <;> simp [exec, execRbInit, hph, rbInitI1, hidle, hok, hfits, hover]
    · obtain hover | hover := hover <;> simp [exec, execDibRead, hph, dibReadD1, hfits, hover]
  · simp [exec, execDibInit, hph, dibInitN1, hover]

/-! ## The synchronisers (20_memory.md R70, R71) -/

section
variable {s : State} {i : Nat}

theorem syncHStep_rbAt (hmode : s.cfg.rbSync = .gray) (hi : i < s.nRb) :
    (syncHStep i s).rbAt i = { s.rbAt i with headSeen := (s.rbAt i).head } := by
  rw [syncHStep, hmode]
  exact State.rbAt_setRb_self hi

theorem syncTStep_rbAt (hmode : s.cfg.rbSync = .gray) (hi : i < s.nRb) :
    (syncTStep i s).rbAt i = { s.rbAt i with tailSeen := (s.rbAt i).tail } := by
  rw [syncTStep, hmode]
  exact State.rbAt_setRb_self hi

theorem syncDStep_dib (hmode : s.cfg.dibSync = .gray) : (syncDStep s).dib = { s.dib with hwSeen := s.dib.hw } := by
  rw [syncDStep, hmode]

end

/-- Settles O49: the frames of the three steps, and the cursor each copies. -/
theorem synchronisersCopy : Obligations.SynchronisersCopy := by
  intro s i
  refine ⟨fun hmode hi => ⟨_, rfl, syncHStep_frame i s, ?_⟩, fun hmode hi => ⟨_, rfl, syncTStep_frame i s, ?_⟩,
    fun hmode => ⟨_, rfl, syncDStep_frame s, syncDStep_dib hmode⟩, fun hmode => ?_, fun hmode => ?_⟩
  · rw [syncHStep_rbAt hmode hi]
    exact sameRegs_refl _
  · rw [syncTStep_rbAt hmode hi]
    exact sameRegs_refl _
  · simp [apply, route, syncHStep, syncTStep, hmode]
  · simp [apply, route, syncDStep, hmode]

/-! ## A shadow stays as it is or becomes its cursor (20_memory.md R69, R71) -/

section
variable {s t : State} {j : Nat}

theorem RingStep.shadows (h : RingStep s t j) (hmode : s.cfg.rbSync = .gray) :
    ((t.rbAt j).headSeen = (s.rbAt j).headSeen ∨ (t.rbAt j).headSeen = (t.rbAt j).head) ∧
      ((t.rbAt j).tailSeen = (s.rbAt j).tailSeen ∨ (t.rbAt j).tailSeen = (t.rbAt j).tail) := by
  cases h with
  | kept h | pushed _ _ _ _ _ _ _ _ h | popped _ _ _ _ _ _ _ h =>
    obtain ⟨-, -, -, -, hheadSeen, htailSeen⟩ := h
    exact ⟨.inl hheadSeen.symm, .inl htailSeen.symm⟩
  | initialised _ _ _ _ _ _ _ _ _ h =>
    rw [hmode] at h
    obtain ⟨-, -, hhead, htail, hheadSeen, htailSeen⟩ := h
    exact ⟨.inr (hheadSeen.symm.trans hhead), .inr (htailSeen.symm.trans htail)⟩
  | syncedHead _ h =>
    obtain ⟨-, -, hhead, -, hheadSeen, htailSeen⟩ := h
    exact ⟨.inr (hheadSeen.symm.trans hhead), .inl htailSeen.symm⟩
  | syncedTail _ h =>
    obtain ⟨-, -, -, htail, hheadSeen, htailSeen⟩ := h
    exact ⟨.inl hheadSeen.symm, .inr (htailSeen.symm.trans htail)⟩

/-- A move is a step of a request on a port that exists, the step of another agent, no step, or reset. -/
theorem moveStep_cases {m : Move} (h : MoveStep m s t) : t = s ∨ (∃ c, agentParts m = some c) ∨
    (∃ x y acc, t = resetStep x y acc s) ∨
    ∃ i s', (∃ e, s' = { s with env := e }) ∧ s'.hasPort s'.env.acting = true ∧
      (∀ f, s'.flight = some f → f.instr = i) ∧ ExecStep i s' t := by
  cases h with
  | ignored | idle => exact .inl rfl
  | undecoded p _ _ _ hp hb =>
    have hfl := State.flight_actingAs_of_idle hb
    obtain ⟨i, h⟩ := execStep_badWord hfl
    exact .inr (.inr (.inr ⟨i, s.actingAs p, ⟨_, rfl⟩, State.hasPort_actingAs s p p ▸ hp, by simp [hfl],
      h⟩))
  | presented p _ i _ _ hp hb _ h =>
    have hfl := State.flight_actingAs_of_idle hb
    exact .inr (.inr (.inr ⟨i, s.actingAs p, ⟨_, rfl⟩, State.hasPort_actingAs s p p ▸ hp, by simp [hfl],
      .of_accept (State.phase_none hfl) h⟩))
  | served p d f _ _ hf h =>
    have hreq : (s.drawing p d).flight = some f := by simpa [State.flight] using hf
    exact .inr (.inr (.inr ⟨_, s.drawing p d, ⟨_, rfl⟩,
      State.hasPort_drawing s p p d ▸ State.hasPort_of_flight hf, by simp [hreq], h⟩))
  | reset => exact .inr (.inr (.inl ⟨_, _, _, rfl⟩))
  | _ => exact .inr (.inl ⟨_, rfl⟩)

theorem moveStep_shadows {m : Move} (h : MoveStep m s t) (hmode : s.cfg.rbSync = .gray) (j : Nat) :
    ((t.rbAt j).headSeen = (s.rbAt j).headSeen ∨ (t.rbAt j).headSeen = (t.rbAt j).head) ∧
      ((t.rbAt j).tailSeen = (s.rbAt j).tailSeen ∨ (t.rbAt j).tailSeen = (t.rbAt j).tail) := by
  obtain rfl | ⟨c, hc⟩ | ⟨x, y, acc, rfl⟩ | ⟨i, _, ⟨e, rfl⟩, hp, hreq, h⟩ := moveStep_cases h
  · exact ⟨.inl rfl, .inl rfl⟩
  · exact (agentStep_ring hc h j).shadows hmode
  · rw [show (resetStep x y acc s).rbAt j = Rb.reset from State.resetWith_rbAt s.cfg s.nRb j]
    exact ⟨.inr rfl, .inr rfl⟩
  · exact (execStep_ring h hp hreq j).shadows hmode

theorem execStep_hwSeen {i : Instr} (h : ExecStep i s t) (hp : s.hasPort s.env.acting = true)
    (hmode : s.cfg.dibSync = .gray) : t.dib.hwSeen = s.dib.hwSeen ∨ t.dib.hwSeen = t.dib.hw := by
  have hfr := (execStep_effect h hp).frame
  have hkept (hdib : .dib ∉ mayChange i s.phase) : t.dib.hwSeen = s.dib.hwSeen :=
    congrArg Dib.hwSeen (Frame.part (part := .dib) hfr hdib)
  cases h with
  | noStep => exact .inl rfl
  | n1 _ _ _ h =>
    unfold dibInitN1 at h
    split_ifs at h
    cases h
    exact .inr (by simp [Dib.started, hmode])
  | s1 _ _ _ _ _ h =>
    unfold dibSendS1 at h
    split_ifs at h <;> cases h
    · exact .inl rfl
    · exact .inl (by simp)
  | d2 => exact .inl (by simp [dibReadD2])
  | _ => exact .inl (hkept (by simp [mayChange, Instr.instanceOf, *]))

theorem agentStep_hwSeen {m : Move} {c : List Part} (hc : agentParts m = some c) (h : MoveStep m s t)
    (hmode : s.cfg.dibSync = .gray) : t.dib.hwSeen = s.dib.hwSeen ∨ t.dib.hwSeen = t.dib.hw := by
  have hfr := moveStep_agentFrame h hc
  have hkept (hdib : .dib ∉ c) : t.dib.hwSeen = s.dib.hwSeen :=
    congrArg Dib.hwSeen (AgentFrame.part (part := .dib) hfr hdib)
  cases h with
  | hwWrite => unfold hwWriteStep; split <;> exact .inl rfl
  | txByte => unfold txByteStep; split <;> exact .inl rfl
  | txDone => unfold txDoneStep; split <;> exact .inl rfl
  | syncD => exact .inr (by rw [syncDStep_dib hmode])
  | syncH | syncT | envWrite | envRead => cases hc; exact .inl (hkept (by simp))
  | _ => cases hc

theorem moveStep_hwSeen {m : Move} (h : MoveStep m s t) (hmode : s.cfg.dibSync = .gray) :
    t.dib.hwSeen = s.dib.hwSeen ∨ t.dib.hwSeen = t.dib.hw := by
  obtain rfl | ⟨c, hc⟩ | ⟨x, y, acc, rfl⟩ | ⟨i, _, ⟨e, rfl⟩, hp, -, h⟩ := moveStep_cases h
  · exact .inl rfl
  · exact agentStep_hwSeen hc h hmode
  · exact .inr rfl
  · exact execStep_hwSeen (s := { s with env := e }) h hp hmode

end

/-! ## Fair runs (70_reset_and_hazards.md R297) -/

section
variable {moves : Nat → Move} {e : Nat → State} {n : Nat}

/-- What a move that comes infinitely often brings about, and every step keeps, holds from some step on. -/
theorem eventually_always {m : Move} {P : Nat → Prop} (hoften : InfinitelyOften m moves)
    (hmade : ∀ k, n ≤ k → moves k = m → P (k + 1)) (hkept : ∀ k, n ≤ k → P k → P (k + 1)) :
    ∃ k, n ≤ k ∧ ∀ l, k ≤ l → P l := by
  obtain ⟨k, hk, hm⟩ := hoften n
  refine ⟨k + 1, by omega, fun l hl => ?_⟩
  induction l, hl using Nat.le_induction with
  | base => exact hmade k hk hm
  | succ l hl ih => exact hkept l (by omega) ih

/-- The parameters and the number of instances stay along a run. -/
theorem run_keepsForm (hrun : Runs moves e) {k : Nat} (hk : n ≤ k) : KeepsForm (e n) (e k) := by
  induction k, hk using Nat.le_induction with
  | base => exact KeepsForm.refl _
  | succ k _ ih => exact ih.trans (moveStep_keepsForm (apply_cases (hrun k)))

/-- A shadow that a synchroniser sets to its cursor, which rests at `c`, and that no move takes away from it, comes to
`c` and stays there. -/
theorem shadow_catches_up {m : Move} {cursor shadow : State → Word} {c : Word} (hoften : InfinitelyOften m moves)
    (hcursor : ∀ k, n ≤ k → cursor (e k) = c)
    (hsync : ∀ k, n ≤ k → moves k = m → shadow (e (k + 1)) = cursor (e k))
    (hstep : ∀ k, n ≤ k → shadow (e (k + 1)) = shadow (e k) ∨ shadow (e (k + 1)) = cursor (e (k + 1))) :
    ∃ k, n ≤ k ∧ ∀ l, k ≤ l → shadow (e l) = c := by
  refine eventually_always hoften (fun k hk hm => (hsync k hk hm).trans (hcursor k hk)) fun k hk hs => ?_
  obtain h | h := hstep k hk
  · exact h.trans hs
  · exact h.trans (hcursor (k + 1) (by omega))

theorem run_next {k : Nat} {m : Move} (hrun : Runs moves e) (hm : moves k = m) : apply m (e k) = .next (e (k + 1)) :=
  hm ▸ hrun k

end

/-- Settles O50: each synchroniser brings its shadow to the resting cursor, and no other move takes it away. -/
theorem viewsCatchUp : Obligations.ViewsCatchUp := by
  intro moves e n hrun
  refine ⟨fun i h t hfair hmode hi hrest => ?_, fun hw hfair hmode hrest => ?_⟩
  · obtain ⟨hfairH, hfairT⟩ := hfair
    have hgray {k : Nat} (hk : n ≤ k) : (e k).cfg.rbSync = .gray := (run_keepsForm hrun hk).cfg ▸ hmode
    have hin {k : Nat} (hk : n ≤ k) : i < (e k).nRb := (run_keepsForm hrun hk).nRb ▸ hi
    obtain ⟨kh, hkh, hhead⟩ := shadow_catches_up (e := e) (cursor := fun s => (s.rbAt i).head)
      (shadow := fun s => (s.rbAt i).headSeen) hfairH (fun k hk => (hrest k hk).1)
      (fun k hk hm => by
        have hnext : syncHStep i (e k) = e (k + 1) := by simpa [apply, route] using run_next hrun hm
        rw [← hnext, syncHStep_rbAt (hgray hk) (hin hk)])
      (fun k hk => (moveStep_shadows (apply_cases (hrun k)) (hgray hk) i).1)
    obtain ⟨kt, hkt, htail⟩ := shadow_catches_up (e := e) (cursor := fun s => (s.rbAt i).tail)
      (shadow := fun s => (s.rbAt i).tailSeen) hfairT (fun k hk => (hrest k hk).2)
      (fun k hk hm => by
        have hnext : syncTStep i (e k) = e (k + 1) := by simpa [apply, route] using run_next hrun hm
        rw [← hnext, syncTStep_rbAt (hgray hk) (hin hk)])
      (fun k hk => (moveStep_shadows (apply_cases (hrun k)) (hgray hk) i).2)
    refine ⟨max kh kt, by omega, fun k hk => ?_⟩
    rw [hgray (by omega)]
    exact ⟨hhead k (by omega), htail k (by omega)⟩
  · have hgray {k : Nat} (hk : n ≤ k) : (e k).cfg.dibSync = .gray := (run_keepsForm hrun hk).cfg ▸ hmode
    obtain ⟨m, hm, hseen⟩ := shadow_catches_up (e := e) (cursor := fun s => s.dib.hw)
      (shadow := fun s => s.dib.hwSeen) hfair hrest
      (fun k hk hm => by
        have hnext : syncDStep (e k) = e (k + 1) := by simpa [apply, route] using run_next hrun hm
        rw [← hnext, syncDStep_dib (hgray hk)])
      (fun k hk => moveStep_hwSeen (apply_cases (hrun k)) (hgray hk))
    refine ⟨m, hm, fun k hk => ?_⟩
    rw [State.viewHw, hgray (by omega)]
    exact hseen k hk

/-! ## Software's own accesses (20_memory.md R79) -/

section
variable {s : State} {a : Word} {v : Byte}

theorem apply_envWrite_allowed (h : s.envForbidden a = false) : apply (.envWrite a v) s = .next (s.store a v) := by
  simp [apply, route, envWriteStep, h]

theorem apply_envWrite_forbidden (h : s.envForbidden a = true) :
    apply (.envWrite a v) s = .refused .envContract := by
  simp [apply, route, envWriteStep, h]

end

/-- Settles O53: the contract forbids a live address and a payload in flight, and nothing else. -/
theorem environmentAccesses : Obligations.EnvironmentAccesses := by
  intro s a v
  refine ⟨fun hlive hpayload hwf => ?_, fun hlive => ?_, fun f addr data length hf hi hin => ?_, rfl⟩
  · have hstill : s.payloadRegion.contains a.toNat = false := by
      rw [Bool.eq_false_iff, ne_eq, State.payloadRegion_contains]
      rintro ⟨f, addr, data, length, hf, hi, hin⟩
      simp [hpayload f addr data length hf hi] at hin
    exact ⟨_, apply_envWrite_allowed (by simp [State.envForbidden, hlive, hstill]), AgentFrame.store s a v,
      State.load_store_self hwf, fun _ => State.load_store_ne⟩
  · exact apply_envWrite_forbidden (by simp [State.envForbidden, hlive])
  · have hmoving := State.payloadRegion_contains.mpr ⟨f, addr, data, length, hf, hi, hin⟩
    exact apply_envWrite_forbidden (by simp [State.envForbidden, hmoving])

end Sys2Proof.Proofs
end

section
/-! PROOFS. Family 30_encoding.md: the decoder is the inverse of the encoder (O1), follows the rows (O2) and takes the
operands as they stand (O3); words written out by hand (O4); acceptance (O7), refusal (O8) and admission (O9) at
step D0. -/

namespace Sys2Proof.Proofs

open Sys2Proof.Machine Sys2Proof.Safety Sys2Proof.Laws

/-! ## The low and the high part of a word -/

section
variable {m n : Nat} (x : BitVec (m + n))

theorem setWidth_low : (x.extractLsb' 0 n).setWidth (m + n) = 0#m ++ x.extractLsb' 0 n := by
  simp [BitVec.setWidth_eq_append (Nat.le_add_left n m)]

theorem and_low_mask : x &&& (0#m ++ BitVec.allOnes n) = (x.extractLsb' 0 n).setWidth (m + n) :=
  calc x &&& (0#m ++ BitVec.allOnes n)
    _ = (x.extractLsb' n m ++ x.extractLsb' 0 n) &&& (0#m ++ BitVec.allOnes n) := by
      rw [BitVec.extractLsb'_append_extractLsb']
    _ = 0#m ++ x.extractLsb' 0 n := by rw [BitVec.and_append, BitVec.and_zero, BitVec.and_allOnes]
    _ = (x.extractLsb' 0 n).setWidth (m + n) := (setWidth_low x).symm

theorem and_high_mask : x &&& (BitVec.allOnes m ++ 0#n) = x.extractLsb' n m ++ 0#n :=
  calc x &&& (BitVec.allOnes m ++ 0#n)
    _ = (x.extractLsb' n m ++ x.extractLsb' 0 n) &&& (BitVec.allOnes m ++ 0#n) := by
      rw [BitVec.extractLsb'_append_extractLsb']
    _ = x.extractLsb' n m ++ 0#n := by rw [BitVec.and_append, BitVec.and_zero, BitVec.and_allOnes]

theorem and_high_mask_eq_zero : x &&& (BitVec.allOnes m ++ 0#n) = 0#(m + n) ↔ x.extractLsb' n m = 0#m := by
  rw [and_high_mask, ← BitVec.zero_append_zero, BitVec.append_left_inj]

theorem setWidth_low_of_high_eq_zero (h : x.extractLsb' n m = 0#m) : (x.extractLsb' 0 n).setWidth (m + n) = x := by
  rw [setWidth_low, ← h, BitVec.extractLsb'_append_extractLsb']

end

/-! ## The masks of the rows (R95) and of the operands (R92) -/

@[simp] theorem and_maskCsr_eq_zero (x : BitVec 16) : x &&& 0xF000#16 = 0#16 ↔ x.extractLsb' 12 4 = 0#4 :=
  and_high_mask_eq_zero (m := 4) (n := 12) x

@[simp] theorem and_maskAddr_eq_zero (x : BitVec 16) : x &&& 0xFF00#16 = 0#16 ↔ x.extractLsb' 8 8 = 0#8 :=
  and_high_mask_eq_zero (m := 8) (n := 8) x

@[simp] theorem and_maskByte (a : Word) : a &&& 0xFF#32 = (byteOf a).setWidth 32 := and_low_mask (m := 24) (n := 8) a

@[simp] theorem and_all8 (x : BitVec 8) : x &&& 0xFF#8 = x := BitVec.and_allOnes
@[simp] theorem and_all16 (x : BitVec 16) : x &&& 0xFFFF#16 = x := BitVec.and_allOnes
@[simp] theorem and_all32 (x : Word) : x &&& 0xFFFFFFFF#32 = x := BitVec.and_allOnes

@[simp] theorem byteOf_setWidth (b : Byte) : byteOf (b.setWidth 32) = b := by
  simp [byteOf, BitVec.extractLsb'_setWidth_of_le]

/-! ## A header and its fields (R91) -/

theorem header_fields (w : Word) : header (opcOf w) (selOf w) (immOf w) = w := by
  unfold header opcOf selOf immOf
  rw [BitVec.extractLsb'_append_extractLsb'_eq_extractLsb' (by decide),
    BitVec.extractLsb'_append_extractLsb'_eq_extractLsb' (by decide)]
  exact BitVec.extractLsb'_eq_self

@[simp] theorem opcOf_ofNat (n : Nat) : opcOf (BitVec.ofNat 32 n) = BitVec.ofNat 8 (n / 2 ^ 24 % 2 ^ 8) := by
  apply BitVec.eq_of_toNat_eq
  simp only [opcOf, BitVec.extractLsb'_toNat, BitVec.toNat_ofNat, Nat.shiftRight_eq_div_pow]
  omega

@[simp] theorem selOf_ofNat (n : Nat) : selOf (BitVec.ofNat 32 n) = BitVec.ofNat 8 (n / 2 ^ 16 % 2 ^ 8) := by
  apply BitVec.eq_of_toNat_eq
  simp only [selOf, BitVec.extractLsb'_toNat, BitVec.toNat_ofNat, Nat.shiftRight_eq_div_pow]
  omega

@[simp] theorem immOf_ofNat (n : Nat) : immOf (BitVec.ofNat 32 n) = BitVec.ofNat 16 (n % 2 ^ 16) := by
  apply BitVec.eq_of_toNat_eq
  simp only [immOf, BitVec.extractLsb'_toNat, BitVec.toNat_ofNat, Nat.shiftRight_eq_div_pow]
  omega

/-- A word has a row's pattern when each of its three fields has the pattern's, under the mask's. -/
theorem matchesWord_iff {row : Row} {w : Word} : row.matchesWord w = true ↔
    opcOf w &&& opcOf row.mask = opcOf row.pattern ∧ selOf w &&& selOf row.mask = selOf row.pattern ∧
      immOf w &&& immOf row.mask = immOf row.pattern := by
  rw [Row.matchesWord, decide_eq_true_eq]
  refine ⟨fun h => ?_, fun ⟨hopc, hsel, himm⟩ => ?_⟩
  · rw [← h]
    exact ⟨BitVec.extractLsb'_and.symm, BitVec.extractLsb'_and.symm, BitVec.extractLsb'_and.symm⟩
  · rw [← header_fields row.pattern, ← hopc, ← hsel, ← himm, ← header_fields (w &&& row.mask)]
    simp only [opcOf, selOf, immOf, BitVec.extractLsb'_and]

/-! ## A request as bytes (R62) -/

theorem wordOfBytes_extract (w : Word) :
    wordOfBytes (w.extractLsb' 0 8) (w.extractLsb' 8 8) (w.extractLsb' 16 8) (w.extractLsb' 24 8) = w := by
  unfold wordOfBytes
  rw [BitVec.extractLsb'_append_extractLsb'_eq_extractLsb' (by decide),
    BitVec.extractLsb'_append_extractLsb'_eq_extractLsb' (by decide),
    BitVec.extractLsb'_append_extractLsb'_eq_extractLsb' (by decide)]
  exact BitVec.extractLsb'_eq_self

theorem decodeBytes_bytes (r : Request) (rest : List Byte) : decodeBytes (r.bytes ++ rest) = (decodeWords r, rest) := by
  simp [Request.bytes, bytesOfWord, decodeBytes, wordOfBytes_extract]

/-! ## The decoder row by row (R94, R95) -/

/-- The bits of `sel` and `imm16` that the row of an operation fixes are 0 (R95). -/
def fixedBitsZero (w : Word) : Instr → Prop
  | .sysCsrr _ | .sysCsrw _ _ => selOf w = 0 ∧ (immOf w).extractLsb' 12 4 = 0
  | .rbInit _ _ _ | .rbPush _ _ | .rbPop _ | .rbIsEmpty _ | .rbIsFull _ => immOf w = 0
  | .brcSafeWrite _ _ _ => selOf w = 0 ∧ (immOf w).extractLsb' 8 8 = 0
  | .brcRecover | .dibInit | .dibSend _ _ | .dibRead _ _ | .cdFeed _ => selOf w = 0 ∧ immOf w = 0

/-- The instruction of the same row with the operands that stand in `r` (R92). -/
def readOperands (r : Request) : Instr → Instr
  | .sysCsrr _ => .sysCsrr ((immOf r.w0).extractLsb' 0 12)
  | .sysCsrw _ _ => .sysCsrw ((immOf r.w0).extractLsb' 0 12) r.a
  | .rbInit _ _ _ => .rbInit (selOf r.w0) r.a r.b
  | .rbPush _ _ => .rbPush (selOf r.w0) (byteOf r.a)
  | .rbPop _ => .rbPop (selOf r.w0)
  | .rbIsEmpty _ => .rbIsEmpty (selOf r.w0)
  | .rbIsFull _ => .rbIsFull (selOf r.w0)
  | .brcSafeWrite _ _ _ => .brcSafeWrite ((immOf r.w0).extractLsb' 0 8) r.a r.b
  | .brcRecover => .brcRecover
  | .dibInit => .dibInit
  | .dibSend _ _ => .dibSend r.a r.b
  | .dibRead _ _ => .dibRead r.a r.b
  | .cdFeed _ => .cdFeed (byteOf r.a)

section
variable {r : Request} {i j : Instr} {d : Decoded}

theorem ite_bad_eq_instr {p : Prop} [Decidable p] {e : DecodeError} :
    (if p then d else .bad e) = .instr i ↔ p ∧ d = .instr i := by
  split <;> simp [*]

@[simp] theorem whenSel0_eq_instr : whenSel0 r d = .instr i ↔ selOf r.w0 = 0#8 ∧ d = .instr i := ite_bad_eq_instr

@[simp] theorem whenImm0_eq_instr : whenImm0 r d = .instr i ↔ immOf r.w0 = 0#16 ∧ d = .instr i := ite_bad_eq_instr

@[simp] theorem whenImm8_eq_instr :
    whenImm8 r d = .instr i ↔ (immOf r.w0).extractLsb' 8 8 = 0#8 ∧ d = .instr i := ite_bad_eq_instr

@[simp] theorem whenImm12_eq_instr :
    whenImm12 r d = .instr i ↔ (immOf r.w0).extractLsb' 12 4 = 0#4 ∧ d = .instr i := ite_bad_eq_instr

@[simp] theorem row_readOperands (r : Request) (i : Instr) : (readOperands r i).row = i.row := by cases i <;> rfl

theorem row_matches_iff {w : Word} :
    i.row.matchesWord w = true ↔ opcOf w = opcOf i.row.pattern ∧ fixedBitsZero w i := by
  rw [matchesWord_iff]
  cases i <;> simp [Instr.row, fixedBitsZero]

/-- Among the words with the opcode of a row, those decode whose fixed bits are 0. -/
theorem decodeWords_of_opc (h : opcOf r.w0 = opcOf i.row.pattern) :
    decodeWords r = .instr j ↔ fixedBitsZero r.w0 i ∧ readOperands r i = j := by
  cases i <;> simp [decodeWords, h, Instr.row, fixedBitsZero, readOperands, and_assoc]

theorem opcOf_of_decodes (h : decodeWords r = .instr i) : opcOf r.w0 = opcOf i.row.pattern := by
  unfold decodeWords at h
  split at h
  case h_14 => cases h  -- an opcode of no row
  all_goals
    rename_i hopc
    simp only [whenSel0_eq_instr, whenImm0_eq_instr, whenImm8_eq_instr, whenImm12_eq_instr, Decoded.instr.injEq,
      ← and_assoc] at h
    obtain ⟨-, rfl⟩ := h
    exact BitVec.eq_of_toNat_eq (by simp [hopc, Instr.row])

theorem decodeWords_eq_instr_iff :
    decodeWords r = .instr i ↔ i.row.matchesWord r.w0 = true ∧ readOperands r i = i := by
  rw [row_matches_iff, and_assoc]
  exact ⟨fun h => ⟨opcOf_of_decodes h, (decodeWords_of_opc (opcOf_of_decodes h)).mp h⟩,
    fun ⟨hopc, hrest⟩ => (decodeWords_of_opc hopc).mpr hrest⟩

theorem decodeWords_of_row (h : i.row.matchesWord r.w0 = true) : decodeWords r = .instr (readOperands r i) := by
  obtain ⟨hopc, hfixed⟩ := row_matches_iff.mp h
  exact (decodeWords_of_opc hopc).mpr ⟨hfixed, rfl⟩

theorem encode_readOperands (h : i.row.matchesWord r.w0 = true) :
    encode (readOperands r i) = ⟨r.w0, r.a &&& (usedBits i).1, r.b &&& (usedBits i).2⟩ := by
  obtain ⟨hopc, hfixed⟩ := row_matches_iff.mp h
  rw [← header_fields r.w0, hopc]
  cases i with
  | sysCsrr | sysCsrw =>
    obtain ⟨hsel, himm⟩ := hfixed
    simp [encode, readOperands, usedBits, Instr.row, hsel, setWidth_low_of_high_eq_zero (m := 4) (n := 12) _ himm]
  | brcSafeWrite =>
    obtain ⟨hsel, himm⟩ := hfixed
    simp [encode, readOperands, usedBits, Instr.row, hsel, setWidth_low_of_high_eq_zero (m := 8) (n := 8) _ himm]
  | rbInit | rbPush | rbPop | rbIsEmpty | rbIsFull =>
    have himm : immOf r.w0 = 0 := hfixed
    simp [encode, readOperands, usedBits, Instr.row, himm]
  | brcRecover | dibInit | dibSend | dibRead | cdFeed =>
    obtain ⟨hsel, himm⟩ := hfixed
    simp [encode, readOperands, usedBits, Instr.row, hsel, himm]

theorem readOperands_encode (i : Instr) : readOperands (encode i) i = i := by
  cases i <;> simp [readOperands, encode, selOf_header, immOf_header, BitVec.extractLsb'_setWidth_of_le]

end

theorem encode_matchesRow : ∀ i : Instr, i.row.matchesWord (encode i).w0 = true
  | .sysCsrr csr => RowOfEncoding.sysCsrr csr
  | .sysCsrw csr value => RowOfEncoding.sysCsrw csr value
  | .rbInit sel base size => RowOfEncoding.rbInit sel base size
  | .rbPush sel byte => RowOfEncoding.rbPush sel byte
  | .rbPop sel => RowOfEncoding.rbPop sel
  | .rbIsEmpty sel => RowOfEncoding.rbIsEmpty sel
  | .rbIsFull sel => RowOfEncoding.rbIsFull sel
  | .brcSafeWrite addr data length => RowOfEncoding.brcSafeWrite addr data length
  | .brcRecover => RowOfEncoding.brcRecover
  | .dibInit => RowOfEncoding.dibInit
  | .dibSend data length => RowOfEncoding.dibSend data length
  | .dibRead output maxLen => RowOfEncoding.dibRead output maxLen
  | .cdFeed byte => RowOfEncoding.cdFeed byte

theorem decodeWords_encode (i : Instr) : decodeWords (encode i) = .instr i :=
  decodeWords_eq_instr_iff.mpr ⟨encode_matchesRow i, readOperands_encode i⟩

theorem encode_injective : Function.Injective encode := fun i j h =>
  Decoded.instr.inj ((decodeWords_encode i).symm.trans (h ▸ decodeWords_encode j))

/-- Settles O1: the twelve bytes give the three words back, and the words of an instruction have its row's pattern with
its operands in their places. -/
theorem decodeOfEncode : Obligations.DecodeOfEncode := by
  intro i rest
  rw [decodeBytes_bytes, decodeWords_encode]

/-- Settles O2: a word with the pattern of a row decodes to an instruction of that row, and to one instruction only. -/
theorem decodeFollowsTheRows : Obligations.DecodeFollowsTheRows := by
  intro r
  have hdecodes (row : Row) (hrow : row ∈ opcodeRows) (h : row.matchesWord r.w0 = true) :
      ∃ i, decodeWords r = .instr i ∧ i.row = row := by
    obtain ⟨i, -, rfl⟩ := List.mem_map.mp hrow
    exact ⟨readOperands r i, decodeWords_of_row h, row_readOperands r i⟩
  refine ⟨fun i h => (decodeWords_eq_instr_iff.mp h).1, hdecodes, fun row row' hrow hrow' h h' => ?_⟩
  obtain ⟨i, hi, rfl⟩ := hdecodes row hrow h
  obtain ⟨j, hj, rfl⟩ := hdecodes row' hrow' h'
  rw [Decoded.instr.inj (hi.symm.trans hj)]

/-- Settles O3: the instruction is the one whose operands stand in the words, and two requests that agree in the used
bits give instructions of the same encoding. -/
theorem operandsAsTheyStand : Obligations.OperandsAsTheyStand := by
  intro r i h
  obtain ⟨hrow, hops⟩ := decodeWords_eq_instr_iff.mp h
  have hencode := encode_readOperands hrow
  rw [hops] at hencode
  refine ⟨hencode, fun a b ha hb => ?_⟩
  have hrow' : i.row.matchesWord (⟨r.w0, a, b⟩ : Request).w0 = true := hrow
  have hsame : encode (readOperands ⟨r.w0, a, b⟩ i) = encode i := by
    rw [encode_readOperands hrow', ha, hb, hencode]
  rw [decodeWords_of_row hrow', encode_injective hsame]

/-- Settles O4: each word runs through the decoder. -/
theorem sampleWordsDecode : Obligations.SampleWordsDecode := by
  unfold Obligations.SampleWordsDecode
  decide

/-! ## Step D0 (R96, R97) -/

section
variable {s : State} {i : Instr}

theorem exec_admitted (hfl : s.flight = none) (hadm : admits s.env.acting i = true)
    (hwf : i.wellFormed s.nRb = true) (hhaz : s.initHazard i (firstStep i) = false) :
    exec i s = .next (s.begin i (firstStep i)) := by
  simp [exec_idle (State.phase_none hfl), accept, hadm, hwf, hhaz]

theorem exec_turnedAway (hfl : s.flight = none) (hbad : admits s.env.acting i = false ∨ i.wellFormed s.nRb = false) :
    exec i s = .next (s.fail .badRequest) := by
  obtain h | h := hbad <;> simp [exec_idle (State.phase_none hfl), accept, h]

theorem exec_turnedAway_spec (hfl : s.flight = none) (hp : s.hasPort s.env.acting = true)
    (hbad : admits s.env.acting i = false ∨ i.wellFormed s.nRb = false) :
    ∃ t, exec i s = .next t ∧ Answered s t .badRequest 0 ∧ Frame [] s t :=
  ⟨_, exec_turnedAway hfl hbad, State.respond_spec hp⟩

theorem apply_request_bad {p : Port} {r : Request} {e : DecodeError} (hp : s.hasPort p = true)
    (hb : s.busy p = false) (hd : decodeWords r = .bad e) :
    apply (.request p r) s = .next ((s.actingAs p).fail .badRequest) := by
  simp [apply, route, routeRequest, hp, hb, hd]

end

/-- Settles O7: acceptance writes the acting port's record and nothing else. -/
theorem admittedRequestIsAccepted : Obligations.AdmittedRequestIsAccepted :=
  fun s i hfl hp hadm hwf hhaz =>
    ⟨_, exec_admitted hfl hadm hwf hhaz, State.port_setPort_self hp, State.begin_frame s i (firstStep i)⟩

/-- Settles O8: each of the three is answered by `State.fail`. -/
theorem badRequestChangesNothing : Obligations.BadRequestChangesNothing :=
  ⟨fun s p _ _ hp hb hd =>
    ⟨_, apply_request_bad hp hb hd, State.respond_spec (s := s.actingAs p) (State.hasPort_actingAs s p p ▸ hp)⟩,
    fun _ _ hfl hp hbad => exec_turnedAway_spec hfl hp hbad⟩

/-- Settles O9: the table of R97 for each request, and step D0 turns away what it does not admit. -/
theorem portAdmission : Obligations.PortAdmission := by
  refine ⟨fun i k => ?_, fun i => ?_, fun s sel byte hact hfl => ?_, fun s sel k hact hk hfl => ?_⟩
  · cases i <;> simp [admits, eq_comm]
  · cases i <;> simp [admits]
  · exact exec_turnedAway_spec hfl (by rw [hact]; rfl) (.inl (by rw [hact]; rfl))
  · exact exec_turnedAway_spec hfl (by simp [hact, State.hasPort, hk]) (.inl (by rw [hact]; rfl))

end Sys2Proof.Proofs
end

section
/-! PROOFS. Family 40_ringbuffer.md: the ring requests step by step (O12 to O15), and a push and a pop taken as a whole
(O16, O17). -/

namespace Sys2Proof.Proofs

open Sys2Proof.Machine Sys2Proof.Safety

/-! ## Each step by its phase -/

section
variable {s : State} {sel : BitVec 8} {byte : Byte}

theorem exec_p1 (h : s.phase = some .p1) : exec (.rbPush sel byte) s = .next (rbPushP1 sel s) := by
  simp [exec, execRbPush, h]

theorem exec_p2 (h : s.phase = some .p2) : exec (.rbPush sel byte) s = .next (rbPushP2 sel byte s) := by
  simp [exec, execRbPush, h]

theorem exec_p3 (h : s.phase = some .p3) : exec (.rbPush sel byte) s = .next (rbPushP3 sel s) := by
  simp [exec, execRbPush, h]

theorem exec_c1 (h : s.phase = some .c1) : exec (.rbPop sel) s = .next (rbPopC1 sel s) := by
  simp [exec, execRbPop, h]

theorem exec_c2 (h : s.phase = some .c2) : exec (.rbPop sel) s = .next (rbPopC2 sel s) := by
  simp [exec, execRbPop, h]

theorem exec_c3 (h : s.phase = some .c3) : exec (.rbPop sel) s = .next (rbPopC3 sel s) := by
  simp [exec, execRbPop, h]

theorem exec_e1 (h : s.phase = some .e1) : exec (.rbIsEmpty sel) s = .next (rbIsEmptyE1 sel s) := by
  simp [exec, execRbIsEmpty, h]

theorem exec_f1 (h : s.phase = some .f1) : exec (.rbIsFull sel) s = .next (rbIsFullF1 sel s) := by
  simp [exec, execRbIsFull, h]

end

/-! ## RB.INIT (R120, R252) -/

section
variable {s : State} {sel : BitVec 8} {base size : Word}

theorem initRejected_iff {c : Params} : initRejected c base size = true ↔
    size = 0 ∨ size &&& (size - 1) ≠ 0 ∨ base = 0 ∨ size = 1 ∧ c.acceptSize1 = false := by
  simp [initRejected, sizeOk, or_assoc]

theorem exec_i1_rejected (hph : s.phase = some .i1) (hidle : s.busy (.prod sel.toNat) = false)
    (hrej : initRejected s.cfg base size = true) : exec (.rbInit sel base size) s = .next (s.fail .configError) := by
  simp [exec, execRbInit, hph, rbInitI1, hidle, hrej]

theorem exec_i1_allowed (hph : s.phase = some .i1) (h : InitAllowed s sel.toNat base size) :
    exec (.rbInit sel base size) s =
      .next ((s.setRb sel.toNat ((s.rbAt sel.toNat).initialised s.cfg.rbSync base size)).respond .ok 0) := by
  obtain ⟨hidle, hacc, hfits, hdib, hothers⟩ := h
  simp [exec, execRbInit, hph, rbInitI1, hidle, hacc, hfits, hdib, hothers]

/-- The registers of a ring just written, when the step then answers. -/
theorem setRb_respond_self {k : Nat} {r : Rb} {st : Status} {v : Word} (h : k < s.nRb) :
    sameRegs r (((s.setRb k r).respond st v).rbAt k) := by
  have hport := State.sameRegs_setPort (s.setRb k r) (s.setRb k r).env.acting
    { flight := none, resp := some { status := st, value := v } } k
  rwa [State.rbAt_setRb_self h] at hport

end

/-- Settles O12: step I1 tests its operands, and then writes one ring and answers. -/
theorem rbInitInitialisesOrRejects : Obligations.RbInitInitialisesOrRejects := by
  intro s sel base size hph _ hsel hidle
  have hp := State.hasPort_of_phase hph
  refine ⟨fun hbad => ⟨_, exec_i1_rejected hph hidle (initRejected_iff.mpr hbad), State.respond_spec hp⟩, ?_⟩
  intro hsize hpow hbase hone hfits hdib hothers
  have hacc : initRejected s.cfg base size = false := by
    rw [Bool.eq_false_iff, ne_eq, initRejected_iff]
    rintro (h | h | h | ⟨h, hno⟩)
    · exact hsize h
    · exact h hpow
    · exact hbase h
    · exact absurd (hone h) (by simp [hno])
  obtain ⟨hans, hfr⟩ := respond_after (c := [.ring sel.toNat]) .ok 0
    (AgentFrame.setRb (Rb.initialised_port s.cfg.rbSync (s.rbAt sel.toNat) base size)) hp
  refine ⟨_, exec_i1_allowed hph ⟨hidle, hacc, operandRegion_fits.mpr hfits, hdib, hothers⟩, hans, hfr, ?_⟩
  have hregs := setRb_respond_self (s := s) (st := .ok) (v := 0)
    (r := (s.rbAt sel.toNat).initialised s.cfg.rbSync base size) hsel
  obtain ⟨hb, hm, hh, ht, hhs, hts⟩ := hregs
  rw [← hb, ← hm, ← hh, ← ht, ← hhs, ← hts]
  cases s.cfg.rbSync with
  | direct => exact ⟨rfl, rfl, rfl, rfl, nofun, fun _ => ⟨rfl, rfl⟩⟩
  | gray => exact ⟨rfl, rfl, rfl, rfl, fun _ => ⟨rfl, rfl⟩, nofun⟩

/-! ## RB.PUSH (R121) -/

section
variable {s : State} {sel : BitVec 8} {byte : Byte}

theorem rbPushP1_full (h : nextCursor (s.rbAt sel.toNat).head (s.rbAt sel.toNat).mask =
    (s.rbAt sel.toNat).viewTail s.cfg.rbSync) : rbPushP1 sel s = s.fail .bufferFull := if_pos h

theorem rbPushP1_room (h : nextCursor (s.rbAt sel.toNat).head (s.rbAt sel.toNat).mask ≠
    (s.rbAt sel.toNat).viewTail s.cfg.rbSync) :
    rbPushP1 sel s = s.advance .p2 { s.temps with
      next := nextCursor (s.rbAt sel.toNat).head (s.rbAt sel.toNat).mask,
      tail := (s.rbAt sel.toNat).viewTail s.cfg.rbSync } := if_neg h

theorem rbPushP2_load (a : Word) :
    (rbPushP2 sel byte s).load a = (s.store ((s.rbAt sel.toNat).base + (s.rbAt sel.toNat).head) byte).load a :=
  State.load_congr (State.goto_mem _ _) a

/-- A producer port with a request in flight belongs to a ring that exists. -/
theorem lt_nRb_of_phase {ph : Phase} {k : Nat} (hph : s.phase = some ph) (hact : s.env.acting = .prod k) :
    k < s.nRb := by
  have hp := State.hasPort_of_phase hph
  simpa [hact, State.hasPort] using hp

end

/-- Settles O13: P1 tests the producer's view, P2 stores and P3 publishes. -/
theorem pushSteps : Obligations.PushSteps := by
  rintro s sel byte r hact rfl
  refine ⟨fun hph hfull => ⟨_, exec_p1 hph, ?_⟩, fun hph hroom => ⟨_, exec_p1 hph, ?_⟩,
    fun hph hwf => ⟨_, exec_p2 hph, ?_⟩, fun hph => ⟨_, exec_p3 hph, ?_⟩⟩
  · rw [rbPushP1_full hfull]
    exact State.respond_spec (State.hasPort_of_phase hph)
  · rw [rbPushP1_room hroom]
    exact (State.advance_spec hph).symm
  · obtain ⟨hgo, hfr⟩ := advance_after .p3 s.temps
      (AgentFrame.store s ((s.rbAt sel.toNat).base + (s.rbAt sel.toNat).head) byte) hph
    exact ⟨hgo, hfr, (rbPushP2_load _).trans (State.load_store_self hwf),
      fun a ha => (rbPushP2_load a).trans (State.load_store_ne ha)⟩
  · obtain ⟨hans, hfr⟩ := respond_after (c := [.ring sel.toNat]) .ok 0
      (AgentFrame.setRb (r := { s.rbAt sel.toNat with head := s.temps.next }) rfl) (State.hasPort_of_phase hph)
    exact ⟨hans, hfr, setRb_respond_self (lt_nRb_of_phase hph hact)⟩

/-! ## RB.POP (R122) -/

section
variable {s : State} {sel : BitVec 8}

theorem rbPopC1_empty (h : (s.rbAt sel.toNat).viewHead s.cfg.rbSync = (s.rbAt sel.toNat).tail) :
    rbPopC1 sel s = s.fail .bufferEmpty := if_pos (decide_eq_true h)

theorem rbPopC1_byte (h : (s.rbAt sel.toNat).viewHead s.cfg.rbSync ≠ (s.rbAt sel.toNat).tail) :
    rbPopC1 sel s = s.advance .c2 { s.temps with head := (s.rbAt sel.toNat).viewHead s.cfg.rbSync } :=
  if_neg (by simpa [cursorsEmpty] using h)

end

/-- Settles O14: C1 tests the consumer's view, C2 reads and C3 gives the slot back. -/
theorem popSteps : Obligations.PopSteps := by
  rintro s sel r hact hsel rfl
  refine ⟨fun hph hempty => ⟨_, exec_c1 hph, ?_⟩, fun hph hbyte => ⟨_, exec_c1 hph, ?_⟩,
    fun hph => ⟨_, exec_c2 hph, (State.advance_spec hph).symm⟩, fun hph => ⟨_, exec_c3 hph, ?_⟩⟩
  · rw [rbPopC1_empty hempty]
    exact State.respond_spec (State.hasPort_of_phase hph)
  · rw [rbPopC1_byte hbyte]
    exact (State.advance_spec hph).symm
  · obtain ⟨hans, hfr⟩ := respond_after (c := [.ring sel.toNat]) .ok (s.temps.byte.setWidth 32)
      (AgentFrame.setRb (r := { s.rbAt sel.toNat with
        tail := nextCursor (s.rbAt sel.toNat).tail (s.rbAt sel.toNat).mask }) rfl) (State.hasPort_of_phase hph)
    exact ⟨hans, hfr, setRb_respond_self hsel⟩

/-! ## RB.IS_EMPTY, RB.IS_FULL (R124, R125) -/

section
variable {s : State} {sel : BitVec 8} {head tail : Word}

theorem cursorsFrom_main (r : Rb) (h : s.env.acting = .main) : s.cursorsFrom r = (r.viewHead s.cfg.rbSync, r.tail) := by
  simp [State.cursorsFrom, h]

theorem cursorsFrom_prod {k : Nat} (r : Rb) (h : s.env.acting = .prod k) :
    s.cursorsFrom r = (r.head, r.viewTail s.cfg.rbSync) := by
  simp [State.cursorsFrom, h]

/-- Step E1 on a port that sees the two cursors so. -/
theorem isEmpty_answers (hph : s.phase = some .e1) (hcur : s.cursorsFrom (s.rbAt sel.toNat) = (head, tail)) :
    ∃ t, exec (.rbIsEmpty sel) s = .next t ∧ Frame [] s t ∧ Answered s t .ok (if head = tail then 1 else 0) := by
  refine ⟨_, exec_e1 hph, ?_⟩
  simp only [rbIsEmptyE1, hcur, cursorsEmpty, flagWord, decide_eq_true_eq]
  exact (State.respond_spec (State.hasPort_of_phase hph)).symm

/-- Step F1 on a port that sees the two cursors so. -/
theorem isFull_answers (hph : s.phase = some .f1) (hcur : s.cursorsFrom (s.rbAt sel.toNat) = (head, tail)) :
    ∃ t, exec (.rbIsFull sel) s = .next t ∧ Frame [] s t ∧
      Answered s t .ok (if (head + 1) &&& (s.rbAt sel.toNat).mask = tail then 1 else 0) := by
  refine ⟨_, exec_f1 hph, ?_⟩
  simp only [rbIsFullF1, hcur, cursorsFull, nextCursor, flagWord, decide_eq_true_eq]
  exact (State.respond_spec (State.hasPort_of_phase hph)).symm

end

/-- Settles O15: each port compares its own cursor with its view of the other. -/
theorem queriesAnswer : Obligations.QueriesAnswer := by
  rintro s sel r rfl
  exact ⟨fun hph hact => isEmpty_answers hph (cursorsFrom_main _ hact),
    fun hph hact => isEmpty_answers hph (cursorsFrom_prod _ hact),
    fun hph hact => isFull_answers hph (cursorsFrom_main _ hact),
    fun hph hact => isFull_answers hph (cursorsFrom_prod _ hact)⟩

/-! ## A push and a pop as a whole (R129) -/

section
variable {s t : State} {i : Instr}

theorem serve_succ (n : Nat) (h : exec i s = .next t) : serve i (n + 1) s = serve i n t := by
  rw [serve, h]

theorem viewTail_of_sameRegs {r r' : Rb} (h : sameRegs r r') (mode : SyncMode) :
    r'.viewTail mode = r.viewTail mode := by
  obtain ⟨-, -, -, htail, -, htailSeen⟩ := h
  cases mode
  · exact htail.symm
  · exact htailSeen.symm

theorem viewHead_of_sameRegs {r r' : Rb} (h : sameRegs r r') (mode : SyncMode) :
    r'.viewHead mode = r.viewHead mode := by
  obtain ⟨-, -, hhead, -, hheadSeen, -⟩ := h
  cases mode
  · exact hhead.symm
  · exact hheadSeen.symm

theorem flight_of_goesOn {c : List Part} {ph : Phase} {tmp : Temps} (h : GoesOn s t ph tmp) (hfr : Frame c s t) :
    t.phase = some ph ∧ t.temps = tmp := by
  obtain ⟨f, -, hport⟩ := h
  have hf : t.flight = some { f with phase := ph, temps := tmp } := by rw [flight_of_frame hfr, hport]
  exact ⟨by rw [State.phase, hf]; rfl, State.temps_of_flight hf⟩

theorem Frame.acting {c : List Part} (h : Frame c s t) : t.env.acting = s.env.acting := by
  obtain ⟨-, -, henv, -⟩ := h
  rw [henv]

theorem Frame.answered {c : List Part} {u : State} {st : Status} {v : Word} (h : Frame c s t)
    (hans : Answered t u st v) : Answered s u st v := by
  rwa [Answered, Frame.acting h] at hans

/-- Step D0 of a request that the port admits leaves it at its first step. -/
theorem exec_accepts (hfl : s.flight = none) (hp : s.hasPort s.env.acting = true) (hadm : admits s.env.acting i = true)
    (hwf : i.wellFormed s.nRb = true) (hhaz : s.initHazard i (firstStep i) = false) :
    ∃ t, exec i s = .next t ∧ Frame [] s t ∧ t.phase = some (firstStep i) := by
  have hfr := State.begin_frame s i (firstStep i)
  refine ⟨_, exec_admitted hfl hadm hwf hhaz, hfr, ?_⟩
  rw [State.phase, flight_of_frame hfr, State.begin, State.port_setPort_self hp]
  rfl

end

theorem sameRegs_setHead {r r' : Rb} (h : sameRegs r r') (x : Word) :
    sameRegs { r with head := x } { r' with head := x } := by
  obtain ⟨hbase, hmask, -, htail, hheadSeen, htailSeen⟩ := h
  exact ⟨hbase, hmask, rfl, htail, hheadSeen, htailSeen⟩

theorem sameRegs_popped {r r' : Rb} (h : sameRegs r r') :
    sameRegs { r with tail := nextCursor r.tail r.mask } { r' with tail := nextCursor r'.tail r'.mask } := by
  obtain ⟨hbase, hmask, hhead, htail, hheadSeen, htailSeen⟩ := h
  exact ⟨hbase, hmask, hhead, by rw [htail, hmask], hheadSeen, htailSeen⟩

/-- A push that has seen room stores and publishes: steps P2 and P3. -/
theorem push_completes {s : State} {sel : BitVec 8} {byte : Byte} (hact : s.env.acting = .prod sel.toNat)
    (hph : s.phase = some .p2) (hwf : s.mem.wf = true) :
    ∃ t, serve (.rbPush sel byte) 2 s = .next t ∧ Answered s t .ok 0 ∧ Frame [.ring sel.toNat, .mem] s t ∧
      sameRegs { s.rbAt sel.toNat with head := s.temps.next } (t.rbAt sel.toNat) ∧
      t.load ((s.rbAt sel.toNat).base + (s.rbAt sel.toNat).head) = byte ∧
      ∀ a, a ≠ (s.rbAt sel.toNat).base + (s.rbAt sel.toNat).head → t.load a = s.load a := by
  obtain ⟨-, -, hP2, -⟩ := pushSteps s sel byte _ hact rfl
  obtain ⟨s3, h2, hgo3, hfr3, hself, hother⟩ := hP2 hph hwf
  obtain ⟨hph3, htemps3⟩ := flight_of_goesOn hgo3 hfr3
  obtain ⟨-, -, -, hP3⟩ := pushSteps s3 sel byte _ ((Frame.acting hfr3).trans hact) rfl
  obtain ⟨s4, h3, hans, hfr4, hreg4⟩ := hP3 hph3
  have hload4 := Frame.part (part := .mem) hfr4 (by simp)
  have hreg3 := Frame.part (part := .ring sel.toNat) hfr3 (by simp)
  rw [htemps3] at hreg4
  refine ⟨s4, by rw [serve_succ 1 h2, serve_succ 0 h3, serve], Frame.answered hfr3 hans,
    Frame.trans (Frame.weaken hfr3 (by simp)) (Frame.weaken hfr4 (by simp)),
    sameRegs_trans (sameRegs_setHead hreg3 _) hreg4, (hload4 _).trans hself,
    fun a ha => (hload4 a).trans (hother a ha)⟩

/-- Settles O16: acceptance and step P1 change no part of the state and lead to P2, which sees the ring as it was. -/
theorem wholePush : Obligations.WholePush := by
  rintro s sel byte r hact hfl hsel hinit hwf rfl hroom
  obtain ⟨s1, h0, hfr1, hph1⟩ := exec_accepts (i := .rbPush sel byte) hfl (by simpa [hact, State.hasPort] using hsel)
    (by simp [hact, admits]) (by simpa [Instr.wellFormed, Instr.instanceOf] using hsel)
    (by simpa [State.initHazard, hact] using hinit)
  have hreg1 := Frame.part (part := .ring sel.toNat) hfr1 (by simp)
  obtain ⟨-, hmask1, hhead1, -⟩ := id hreg1
  obtain ⟨-, hP1, -, -⟩ := pushSteps s1 sel byte _ ((Frame.acting hfr1).trans hact) rfl
  obtain ⟨s2, h1, hfr2, hgo2⟩ := hP1 hph1
    (by rwa [← hhead1, ← hmask1, viewTail_of_sameRegs hreg1, Frame.cfg hfr1])
  obtain ⟨hph2, htemps2⟩ := flight_of_goesOn hgo2 hfr2
  replace hfr2 := Frame.trans hfr1 hfr2
  have hwf2 := ((execStep_keepsForm (exec_step h0)).trans (execStep_keepsForm (exec_step h1))).mem hwf
  have hreg2 := Frame.part (part := .ring sel.toNat) hfr2 (by simp)
  obtain ⟨hbase2, -, hhead2, -⟩ := id hreg2
  obtain ⟨t, h, hans, hfr, hreg, hself, hother⟩ :=
    push_completes (byte := byte) ((Frame.acting hfr2).trans hact) hph2 hwf2
  rw [htemps2, ← hhead1, ← hmask1] at hreg
  rw [← hbase2, ← hhead2] at hself hother
  exact ⟨t, by rw [serve_succ 3 h0, serve_succ 2 h1, h], Frame.answered hfr2 hans,
    Frame.trans (Frame.weaken hfr2 (by simp)) hfr, sameRegs_trans (sameRegs_setHead hreg2 _) hreg, hself,
    fun a ha => (hother a ha).trans (Frame.part (part := .mem) hfr2 (by simp) a)⟩

/-- A pop that has seen a byte reads it and gives the slot back: steps C2 and C3. -/
theorem pop_completes {s : State} {sel : BitVec 8} (hact : s.env.acting = .main) (hsel : sel.toNat < s.nRb)
    (hph : s.phase = some .c2) :
    ∃ t, serve (.rbPop sel) 2 s = .next t ∧
      Answered s t .ok ((s.load ((s.rbAt sel.toNat).base + (s.rbAt sel.toNat).tail)).setWidth 32) ∧
      Frame [.ring sel.toNat] s t ∧
      sameRegs { s.rbAt sel.toNat with tail := nextCursor (s.rbAt sel.toNat).tail (s.rbAt sel.toNat).mask }
        (t.rbAt sel.toNat) := by
  obtain ⟨-, -, hC2, -⟩ := popSteps s sel _ hact hsel rfl
  obtain ⟨s3, h2, hfr3, hgo3⟩ := hC2 hph
  obtain ⟨hph3, htemps3⟩ := flight_of_goesOn hgo3 hfr3
  have hreg3 := Frame.part (part := .ring sel.toNat) hfr3 (by simp)
  obtain ⟨-, -, -, hC3⟩ := popSteps s3 sel _ ((Frame.acting hfr3).trans hact) ((Frame.nRb hfr3).symm ▸ hsel) rfl
  obtain ⟨s4, h3, hans, hfr4, hreg4⟩ := hC3 hph3
  rw [htemps3] at hans
  exact ⟨s4, by rw [serve_succ 1 h2, serve_succ 0 h3, serve], Frame.answered hfr3 hans,
    Frame.trans (Frame.weaken hfr3 (by simp)) hfr4, sameRegs_trans (sameRegs_popped hreg3) hreg4⟩

/-- Settles O17: acceptance and step C1 change no part of the state and lead to C2, which sees the ring as it was. -/
theorem wholePop : Obligations.WholePop := by
  rintro s sel r hact hfl hsel rfl hseen
  obtain ⟨s1, h0, hfr1, hph1⟩ := exec_accepts (i := .rbPop sel) hfl (by simp [hact, State.hasPort])
    (by simp [hact, admits]) (by simpa [Instr.wellFormed, Instr.instanceOf] using hsel)
    (by simp [State.initHazard, hact, firstStep, Instr.instanceOf])
  have hn {t : State} (hfr : Frame [] s t) : sel.toNat < t.nRb := (Frame.nRb hfr).symm ▸ hsel
  have hreg1 := Frame.part (part := .ring sel.toNat) hfr1 (by simp)
  obtain ⟨-, -, -, htail1, -⟩ := id hreg1
  obtain ⟨-, hC1, -, -⟩ := popSteps s1 sel _ ((Frame.acting hfr1).trans hact) (hn hfr1) rfl
  obtain ⟨s2, h1, hfr2, hgo2⟩ := hC1 hph1 (by rwa [← htail1, viewHead_of_sameRegs hreg1, Frame.cfg hfr1])
  obtain ⟨hph2, -⟩ := flight_of_goesOn hgo2 hfr2
  replace hfr2 := Frame.trans hfr1 hfr2
  have hreg2 := Frame.part (part := .ring sel.toNat) hfr2 (by simp)
  obtain ⟨hbase2, -, -, htail2, -⟩ := id hreg2
  obtain ⟨t, h, hans, hfr, hreg⟩ := pop_completes ((Frame.acting hfr2).trans hact) (hn hfr2) hph2
  rw [← hbase2, ← htail2, Frame.part (part := .mem) hfr2 (by simp)] at hans
  exact ⟨t, by rw [serve_succ 3 h0, serve_succ 2 h1, h], Frame.answered hfr2 hans,
    Frame.trans (Frame.weaken hfr2 (by simp)) hfr, sameRegs_trans (sameRegs_popped hreg2) hreg⟩

end Sys2Proof.Proofs
end

section
/-! PROOFS. Family 40_ringbuffer.md: the occupancy of a ring (O19), the range of every ring (O20), and the queue a ring
stands for (O21). -/

namespace Sys2Proof.Proofs

open Sys2Proof.Machine Sys2Proof.Safety

/-! ## The occupancy (R126, R128) -/

section
variable {mask head tail : Word}

theorem occupancy_le (head tail mask : Word) : occupancy head tail mask ≤ mask := and_mask_le _

theorem occupancy_eq_mask_iff (hm : maskOk mask = true) (hh : head ≤ mask) (ht : tail ≤ mask) :
    occupancy head tail mask = mask ↔ nextCursor head mask = tail := by
  have hroom := occupancy_lt_iff hm hh ht
  have hle := occupancy_le head tail mask
  rw [BitVec.lt_def, ne_eq] at hroom
  rw [BitVec.le_def] at hle
  rw [← BitVec.toNat_inj, ← not_iff_not, ← hroom]
  omega

end

/-- Settles O19: the occupancy counts from `tail` to `head` modulo the capacity. -/
theorem occupancyCounts : Obligations.OccupancyCounts := by
  intro mask head tail hm hh ht
  have hempty : occupancy head tail mask = 0 ↔ head = tail := by
    rw [← occupancy_eq_zero_iff hm hh ht, ← BitVec.toNat_inj]
    rfl
  have hfull := occupancy_eq_mask_iff hm hh ht
  simp only [cursorsEmpty, cursorsFull, decide_eq_true_eq, decide_eq_false_iff_not]
  refine ⟨occupancy_le head tail mask, hempty, hfull, fun hroom => ?_, fun hbyte => ?_, fun hmask ⟨h0, h1⟩ => ?_⟩
  · have hocc := occupancy_nextCursor_head hm hh ht ((occupancy_lt_iff hm hh ht).mpr hroom)
    bv_omega
  · have hocc := occupancy_nextCursor_tail hm hh ht hbyte
    bv_omega
  · exact hmask ((hfull.mpr h1).symm.trans (hempty.mpr h0))

/-! ## The range (R127) -/

/-- Settles O20: the cursor a push publishes is the one it has found, and every other is masked or copied. -/
theorem ringsStayInRange : Obligations.RingsStayInRange :=
  fun _ _ hfl hs h => (ringsOk_kept.step ⟨hfl, hs⟩ h).2

/-! ## The slots of a ring -/

/-- The slot `k` places after `tail`. -/
def slot (tail mask : Word) (k : Nat) : Word := (tail + BitVec.ofNat 32 k) &&& mask

section
variable {mask head tail : Word}

theorem slot_toNat (hm : maskOk mask = true) (tail : Word) (k : Nat) :
    (slot tail mask k).toNat = (tail.toNat + k) % (mask.toNat + 1) := by
  obtain ⟨n, hn, hmask⟩ := maskOk_two_pow hm
  have hdvd : mask.toNat + 1 ∣ 2 ^ 32 := hmask ▸ Nat.pow_dvd_pow 2 hn.le
  rw [slot, toNat_and_mask hm, BitVec.toNat_add, BitVec.toNat_ofNat, Nat.add_mod_mod, Nat.mod_mod_of_dvd _ hdvd]

theorem slot_le (tail mask : Word) (k : Nat) : slot tail mask k ≤ mask := and_mask_le _

theorem slot_zero (hm : maskOk mask = true) (ht : tail ≤ mask) : slot tail mask 0 = tail := by
  refine BitVec.eq_of_toNat_eq ?_
  rw [slot_toNat hm, Nat.add_zero, Nat.mod_eq_of_lt (Nat.lt_succ_of_le ht)]

/-- The slots counted from the next cursor are the later slots. -/
theorem slot_nextCursor (hm : maskOk mask = true) (tail : Word) (k : Nat) :
    slot (nextCursor tail mask) mask k = slot tail mask (k + 1) := by
  have hnext : nextCursor tail mask = slot tail mask 1 := rfl
  refine BitVec.eq_of_toNat_eq ?_
  rw [slot_toNat hm, slot_toNat hm, hnext, slot_toNat hm, Nat.mod_add_mod, Nat.add_assoc, Nat.add_comm 1 k]

/-- The slot behind the last byte is the one at `head`. -/
theorem slot_occupancy (hm : maskOk mask = true) (hh : head ≤ mask) (ht : tail ≤ mask) :
    slot tail mask (occupancy head tail mask).toNat = head := by
  refine BitVec.eq_of_toNat_eq ?_
  rw [slot_toNat hm, occupancy_toNat hm hh ht]
  rw [BitVec.le_def] at hh ht
  split
  · rw [Nat.add_sub_cancel' ‹_›, Nat.mod_eq_of_lt (by omega)]
  · rw [Nat.add_sub_cancel' (by omega), Nat.add_mod_right, Nat.mod_eq_of_lt (by omega)]

/-- The slot at `head` holds no byte of the ring. -/
theorem slot_ne_head (hm : maskOk mask = true) (hh : head ≤ mask) (ht : tail ≤ mask) {k : Nat}
    (hk : k < (occupancy head tail mask).toNat) : slot tail mask k ≠ head := by
  intro heq
  have hocc : (occupancy head tail mask).toNat ≤ mask.toNat := BitVec.le_def.mp (occupancy_le head tail mask)
  rw [← slot_occupancy hm hh ht, ← BitVec.toNat_inj, slot_toNat hm, slot_toNat hm] at heq
  have hmod : k ≡ (occupancy head tail mask).toNat [MOD mask.toNat + 1] := Nat.ModEq.add_left_cancel' _ heq
  have := hmod.eq_of_lt_of_lt (by omega) (by omega)
  omega

end

/-! ## The bytes of a ring (R126) -/

/-- Two instances have the same place, size and cursors, whatever their shadows and ports hold. -/
structure SameCursors (r r' : Rb) : Prop where
  base : r'.base = r.base
  mask : r'.mask = r.mask
  head : r'.head = r.head
  tail : r'.tail = r.tail

theorem SameCursors.of_sameRegs {r r' : Rb} (h : sameRegs r r') : SameCursors r r' := by
  obtain ⟨hbase, hmask, hhead, htail, -, -⟩ := h
  exact ⟨hbase.symm, hmask.symm, hhead.symm, htail.symm⟩

section
variable {s t : State} {mode : SyncMode} {r r' : Rb}

theorem contents_eq (s : State) (r : Rb) : contents s r =
    (List.range (occupancy r.head r.tail r.mask).toNat).map fun k => s.load (r.base + slot r.tail r.mask k) := rfl

theorem contents_congr (hsame : SameCursors r r') (hload : ∀ k < (occupancy r.head r.tail r.mask).toNat,
    t.load (r.base + slot r.tail r.mask k) = s.load (r.base + slot r.tail r.mask k)) :
    contents t r' = contents s r := by
  obtain ⟨hbase, hmask, hhead, htail⟩ := hsame
  rw [contents_eq, contents_eq, hbase, hmask, hhead, htail]
  exact List.map_congr_left fun k hk => hload k (List.mem_range.mp hk)

theorem contents_of_empty (s : State) (h : r.head = r.tail) : contents s r = [] := by
  simp [contents_eq, occupancy, h]

/-- Publishing the byte at `head` puts it in at the end. -/
theorem contents_push (s : State) (hr : RegsOk mode r) (hroom : occupancy r.head r.tail r.mask < r.mask) :
    contents s { r with head := nextCursor r.head r.mask } = contents s r ++ [s.load (r.base + r.head)] := by
  simp only [contents_eq, occupancy_nextCursor_head hr.mask hr.head hr.tail hroom, List.range_succ, List.map_append,
    List.map_singleton, slot_occupancy hr.mask hr.head hr.tail]

/-- Giving back the slot at `tail` takes the oldest byte out. -/
theorem contents_pop (s : State) (hr : RegsOk mode r) (hbyte : r.head ≠ r.tail) :
    contents s r = s.load (r.base + r.tail) :: contents s { r with tail := nextCursor r.tail r.mask } := by
  have hocc := occupancy_nextCursor_tail hr.mask hr.head hr.tail hbyte
  simp only [contents_eq, ← hocc, List.range_succ_eq_map, List.map_cons, List.map_map, slot_zero hr.mask hr.tail,
    Function.comp_def, slot_nextCursor hr.mask, Nat.succ_eq_add_one]

/-- A byte of the ring lies in its store, in another slot than the one at `head`. -/
theorem RegsOk.content_slot (hr : RegsOk mode r) {k : Nat} (hk : k < (occupancy r.head r.tail r.mask).toNat) :
    r.store.contains (r.base + slot r.tail r.mask k).toNat = true ∧
      r.base + slot r.tail r.mask k ≠ r.base + r.head := by
  have hle := BitVec.le_def.mp (occupancy_le r.head r.tail r.mask)
  refine ⟨hr.slot_mem (slot_le _ _ _) fun hzero => ?_, fun h => ?_⟩
  · have hmask : r.mask.toNat = 0 := by rw [hzero]; rfl
    omega
  · exact slot_ne_head hr.mask hr.head hr.tail hk (add_left_cancel h)

/-- A step that leaves the cursors of a ring and stores at most into the slot at its `head` leaves the queue. -/
theorem contents_kept {j : Nat} {p : Port} (hq : QueueInv s) (hstore : StoresKeptFor p s t)
    (hsame : SameCursors (s.rbAt j) (t.rbAt j)) : contents t (t.rbAt j) = contents s (s.rbAt j) := by
  refine contents_congr hsame fun k hk => ?_
  obtain ⟨hmem, hne⟩ := (hq.regs j).content_slot hk
  by_contra hload
  exact hne (hstore j _ hmem hload).2

theorem contents_of_frame {c : List Part} (hfr : Frame c s t) (j : Nat) (hring : .ring j ∉ c) (hmem : .mem ∉ c) :
    contents t (t.rbAt j) = contents s (s.rbAt j) :=
  contents_congr (.of_sameRegs (Frame.part (part := .ring j) hfr hring)) fun _ _ =>
    Frame.part (part := .mem) hfr hmem _

end

/-! ## The steps that leave the cursors of a ring -/

section
variable {s t : State} {m : Move} {c : List Part}

theorem accept_frame {i : Instr} {ph : Phase} (h : accept i ph s = .next t) : Frame [] s t := by
  obtain ⟨-, -, -, rfl⟩ | ⟨-, rfl⟩ := accept_cases h
  · exact State.begin_frame s i ph
  · exact State.respond_frame s _ _

/-- No agent but a port answers a request. -/
theorem AgentFrame.not_answered {f : Flight} {st : Status} {v : Word} (h : AgentFrame c s t) (hf : s.flight = some f)
    (hans : Answered s t st v) : False := by
  rw [Answered, AgentFrame.port h] at hans
  rw [State.flight, hans] at hf
  cases hf

theorem agentStep_sameCursors (hc : agentParts m = some c) (h : MoveStep m s t) (j : Nat) :
    SameCursors (s.rbAt j) (t.rbAt j) := by
  have hfr := moveStep_agentFrame h hc
  cases agentStep_ring hc h j with
  | kept h => exact .of_sameRegs h
  | syncedHead _ h | syncedTail _ h =>
    obtain ⟨hbase, hmask, hhead, htail⟩ := SameCursors.of_sameRegs h
    exact ⟨hbase, hmask, hhead, htail⟩
  | initialised _ _ _ _ hf _ _ _ hans | pushed _ _ _ hf _ _ _ hans | popped _ _ hf _ _ _ hans =>
    exact (AgentFrame.not_answered hfr hf hans).elim

end

/-! ## The queue (R128, R129) -/

section
variable {s t : State} {i : Nat} {m : Move}

/-- Step P3 publishes the byte that P2 has stored. -/
theorem pushEnds_puts {byte : Byte} (hq : QueueInv s) (h : apply m s = .next t) (hend : PushEnds i m s byte) :
    (t.port (.prod i)).resp = some ⟨.ok, 0⟩ ∧ contents t (t.rbAt i) = contents s (s.rbAt i) ++ [byte] := by
  obtain ⟨d, sel, f, rfl, hf, hi, hph⟩ := hend
  have hfl : (s.drawing (.prod i) d).flight = some f := by simpa [State.flight] using hf
  obtain rfl : i = sel.toNat := by simpa using acting_of_push (s := s.drawing (.prod i) d) hq.flights hfl hi
  rw [apply_port_flight hf, hi] at h
  obtain ⟨-, -, -, hP3⟩ := pushSteps (s.drawing (.prod sel.toNat) d) sel byte _ rfl rfl
  obtain ⟨u, hu, hans, hfr, hregs⟩ := hP3 (by simp [State.phase, hfl, hph])
  cases h.symm.trans hu
  obtain ⟨hnext, hroom, hstored⟩ := (hq.found _ f hf).push sel byte hi (by simp [hph])
  rw [State.temps_of_flight hfl, hnext] at hregs
  refine ⟨congrArg PortRec.resp hans, ?_⟩
  rw [contents_congr (.of_sameRegs hregs) fun _ _ => Frame.part (part := .mem) hfr (by simp) _]
  exact hstored (by simp [hph]) ▸ contents_push s (hq.regs _) (room_of_view (hq.views _) hroom)

/-- Step C3 answers with the oldest byte, which C2 has read. -/
theorem popEnds_takes (hq : QueueInv s) (h : apply m s = .next t) (hend : PopEnds i m s) :
    ∃ byte : Byte, t.main.resp = some ⟨.ok, byte.setWidth 32⟩ ∧
      contents s (s.rbAt i) = byte :: contents t (t.rbAt i) := by
  obtain ⟨d, sel, f, rfl, hf, hi, rfl, hph⟩ := hend
  have hfl : (s.drawing .main d).flight = some f := hf
  obtain ⟨-, hwf, -⟩ := flightsOk_acting (s := s.drawing .main d) hq.flights hfl
  rw [hi] at hwf
  rw [apply_port_flight (p := .main) hf, hi] at h
  obtain ⟨-, -, -, hC3⟩ := popSteps (s.drawing .main d) sel _ rfl
    (of_decide_eq_true hwf) rfl
  obtain ⟨u, hu, hans, hfr, hregs⟩ := hC3 (by simp [State.phase, hfl, hph])
  cases h.symm.trans hu
  obtain ⟨hseen, hread⟩ := (hq.found .main f hf).pop sel hi (by simp [hph])
  rw [State.temps_of_flight hfl] at hans
  refine ⟨f.temps.byte, congrArg PortRec.resp hans, ?_⟩
  rw [contents_congr (.of_sameRegs hregs) fun _ _ => Frame.part (part := .mem) hfr (by simp) _,
    hread (by simp [hph])]
  exact contents_pop s (hq.regs _) (byte_of_view (hq.regs _) (hq.views _) hseen)

/-- A step of a request in flight that ends neither a push to the ring nor a pop from it. -/
theorem served_keeps_or_empties {p : Port} {d : Draw} {f : Flight} (hq : QueueInv s)
    (hf : (s.port p).flight = some f) (h : ExecStep f.instr (s.drawing p d) t)
    (hpush : ∀ byte, ¬ PushEnds i (.port p d) s byte) (hpop : ¬ PopEnds i (.port p d) s) :
    contents t (t.rbAt i) = contents s (s.rbAt i) ∨ Emptied i (.port p d) s t := by
  have hq' : QueueInv (s.drawing p d) := queueOk_iff.mp (show queueOk s = true from queueOk_iff.mpr hq)
  have hfl : (s.drawing p d).flight = some f := by simpa [State.flight] using hf
  have hp : (s.drawing p d).hasPort p = true := State.hasPort_drawing s p p d ▸ State.hasPort_of_flight hf
  have hreq : ∀ g, (s.drawing p d).flight = some g → g.instr = f.instr := by simp [hfl]
  obtain ⟨q, hother⟩ : ∃ q : Port, q ≠ p := by
    cases p with
    | main => exact ⟨.prod 0, nofun⟩
    | prod k => exact ⟨.main, nofun⟩
  have hkept (hsame : SameCursors (s.rbAt i) (t.rbAt i)) : contents t (t.rbAt i) = contents s (s.rbAt i) :=
    contents_kept (s := s.drawing p d) hq' (execStep_storesKept hq' hp hreq h hother) hsame
  cases execStep_ring h hp hreq i with
  | kept h => exact .inl (hkept (.of_sameRegs h))
  | syncedHead _ h | syncedTail _ h =>
    obtain ⟨hbase, hmask, hhead, htail⟩ := SameCursors.of_sameRegs h
    exact .inl (hkept ⟨hbase, hmask, hhead, htail⟩)
  | initialised g sel base size hg hi hsel _ hans h =>
    cases hfl.symm.trans hg
    obtain rfl : p = .main := acting_eq_main (s := s.drawing p d) hq'.flights hg hi fun _ => rfl
    obtain ⟨-, -, hhead, htail⟩ := SameCursors.of_sameRegs h
    have hempty : (t.rbAt i).head = (t.rbAt i).tail := by
      rw [hhead, htail]
      cases (s.drawing .main d).cfg.rbSync <;> rfl
    exact .inr ⟨contents_of_empty t hempty,
      .inl ⟨d, sel, base, size, f, rfl, hf, hi, hsel, congrArg PortRec.resp hans⟩⟩
  | pushed g sel byte hg hi hsel hph =>
    cases hfl.symm.trans hg
    obtain rfl : p = .prod sel.toNat := acting_of_push (s := s.drawing p d) hq'.flights hg hi
    subst hsel
    exact absurd ⟨d, sel, f, rfl, hf, hi, hph⟩ (hpush byte)
  | popped g sel hg hi hsel hph =>
    cases hfl.symm.trans hg
    obtain rfl : p = .main := acting_eq_main (s := s.drawing p d) hq'.flights hg hi fun _ => rfl
    exact absurd ⟨d, sel, f, rfl, hf, hi, hsel, hph⟩ hpop

end

/-- Settles O21: P3 and C3 move the cursor past the byte the push has stored and the pop has read; any other step leaves
the cursors and, of the store, all but the slot at `head`. -/
theorem ringIsAQueue : Obligations.RingIsAQueue := by
  intro s t m i hs _ h
  have hq := queueOk_iff.mp hs
  have hm := apply_cases h
  refine ⟨fun byte => pushEnds_puts hq h, popEnds_takes hq h, fun hpush hpop => ?_⟩
  have hagent {c : List Part} (hc : agentParts m = some c) : contents t (t.rbAt i) = contents s (s.rbAt i) :=
    contents_kept hq (agentStep_storesKept .main hq hc hm) (agentStep_sameCursors hc hm i)
  cases hm with
  | ignored | idle => exact .inl rfl
  | undecoded p =>
    exact .inl (contents_of_frame (State.respond_frame (s.actingAs p) .badRequest 0) i (by simp) (by simp))
  | presented _ _ _ _ _ _ _ _ h => exact .inl (contents_of_frame (accept_frame h) i (by simp) (by simp))
  | served p d f _ _ hf h => exact served_keeps_or_empties hq hf h hpush hpop
  | reset x y acc =>
    have hreset : (resetStep x y acc s).rbAt i = Rb.reset := State.resetWith_rbAt s.cfg s.nRb i
    exact .inr ⟨by rw [hreset]; exact contents_of_empty _ rfl, .inr ⟨x, y, acc, rfl⟩⟩
  | _ => exact .inl (hagent rfl)

end Sys2Proof.Proofs
end

section
/-! PROOFS. Family 40_ringbuffer.md: each cursor and register has one writer (O55), and no producer waits (O51). -/

namespace Sys2Proof.Proofs

open Sys2Proof.Machine Sys2Proof.Safety

/-! ## What a step of a port may move (R123, 60_exceptions.md R260) -/

section
variable {s t : State} {f : Flight}

/-- A step moves the `head` of ring `j` on its producer port, or in an `RB.INIT` of it. -/
theorem RingStep.head_mover {j : Nat} (h : RingStep s t j) (hfl : flightsOk s = true)
    (hne : (t.rbAt j).head ≠ (s.rbAt j).head) : s.env.acting = .prod j ∨
      s.env.acting = .main ∧
        ∃ f sel base size, s.flight = some f ∧ f.instr = .rbInit sel base size ∧ sel.toNat = j := by
  cases h with
  | kept h | popped _ _ _ _ _ _ _ h | syncedHead _ h | syncedTail _ h =>
    exact absurd (SameCursors.of_sameRegs h).head hne
  | initialised f sel base size hf hi hsel =>
    exact .inr ⟨acting_eq_main hfl hf hi fun _ => rfl, f, sel, base, size, hf, hi, hsel⟩
  | pushed f sel byte hf hi hsel => exact .inl (hsel ▸ acting_of_push hfl hf hi)

/-- A step moves the `tail` of a ring on port M. -/
theorem RingStep.tail_mover {j : Nat} (h : RingStep s t j) (hfl : flightsOk s = true)
    (hne : (t.rbAt j).tail ≠ (s.rbAt j).tail) : s.env.acting = .main := by
  cases h with
  | kept h | pushed _ _ _ _ _ _ _ _ h | syncedHead _ h | syncedTail _ h =>
    exact absurd (SameCursors.of_sameRegs h).tail hne
  | initialised _ _ _ _ hf hi => exact acting_eq_main hfl hf hi fun _ => rfl
  | popped _ _ hf hi => exact acting_eq_main hfl hf hi fun _ => rfl

/-- A producer port touches its ring and memory. -/
theorem mayChange_of_prod {i : Instr} {ph : Phase} {k : Nat} (hadm : admits (.prod k) i = true)
    (hmem : ph ∈ stepsOf i) : ∀ part ∈ mayChange i (some ph), part ∈ [Part.ring k, .mem] := by
  cases i with
  | rbPush sel byte =>
    simp only [stepsOf, List.mem_cons, List.not_mem_nil, or_false] at hmem
    obtain rfl | rfl | rfl := hmem <;> simp_all [admits, mayChange, Instr.instanceOf]
  | rbIsEmpty sel => simp_all [stepsOf, mayChange]
  | rbIsFull sel => simp_all [stepsOf, mayChange]
  | _ => simp [admits] at hadm

theorem execStep_prod_frame {k : Nat} (hfl : flightsOk s = true) (hf : s.flight = some f)
    (hact : s.env.acting = .prod k) (h : ExecStep f.instr s t) : Frame [.ring k, .mem] s t := by
  obtain ⟨hadm, -, hmem⟩ := flightsOk_acting hfl hf
  have hph : s.phase = some f.phase := by rw [State.phase, hf]; rfl
  refine Frame.weaken (execStep_effect h (State.hasPort_of_flight hf)).frame ?_
  rw [hph]
  exact mayChange_of_prod (hact ▸ hadm) hmem

/-- Of the requests `DIB.INIT` alone moves the hardware cursor. -/
theorem execStep_hw {i : Instr} (h : ExecStep i s t) (hp : s.hasPort s.env.acting = true) :
    t.dib.hw = s.dib.hw ∨ i = .dibInit := by
  have hfr := (execStep_effect h hp).frame
  have hkept (hdib : .dib ∉ mayChange i s.phase) : t.dib.hw = s.dib.hw :=
    congrArg Dib.hw (Frame.part (part := .dib) hfr hdib)
  cases h with
  | noStep => exact .inl rfl
  | n1 => exact .inr rfl
  | s1 _ _ _ _ _ h =>
    unfold dibSendS1 at h
    split_ifs at h <;> cases h
    · exact .inl rfl
    · exact .inl (by simp)
  | d2 => exact .inl (by simp [dibReadD2])
  | _ => exact .inl (hkept (by simp [mayChange, Instr.instanceOf, *]))

end

/-! ## Each cursor and register moves by its owner -/

/-- What a move that is not reset moves it owns, but for what the two initialisations set. -/
def MovedByOwner (i : Nat) (m : Move) (s t : State) : Prop :=
  ((t.rbAt i).head ≠ (s.rbAt i).head →
    (∃ d, m = .port (.prod i) d) ∨
    ∃ d f sel base size, m = .port .main d ∧ s.main.flight = some f ∧ f.instr = .rbInit sel base size ∧
      sel.toNat = i) ∧
  ((t.rbAt i).tail ≠ (s.rbAt i).tail ∨ t.dib.rd ≠ s.dib.rd ∨ t.cd ≠ s.cd ∨ t.brc ≠ s.brc ∨ t.pins ≠ s.pins →
    ∃ d, m = .port .main d) ∧
  (t.dib.hw ≠ s.dib.hw →
    (∃ b, m = .hwWrite b) ∨ ∃ d f, m = .port .main d ∧ s.main.flight = some f ∧ f.instr = .dibInit)

section
variable {s t : State} {m : Move} {i : Nat}

theorem MovedByOwner.of_unchanged (hfr : Frame [] s t) : MovedByOwner i m s t := by
  have hregs := SameCursors.of_sameRegs (Frame.part (part := .ring i) hfr (by simp))
  have hdib : t.dib = s.dib := Frame.part (part := .dib) hfr (by simp)
  have hcd : t.cd = s.cd := Frame.part (part := .cd) hfr (by simp)
  have hbrc : t.brc = s.brc := Frame.part (part := .brc) hfr (by simp)
  have hpins : t.pins = s.pins := Frame.part (part := .pins) hfr (by simp)
  simp [MovedByOwner, hregs.head, hregs.tail, hdib, hcd, hbrc, hpins]

theorem MovedByOwner.of_served {p : Port} {d : Draw} {f : Flight} (hfl : flightsOk s = true)
    (hf : (s.port p).flight = some f) (h : ExecStep f.instr (s.drawing p d) t) :
    MovedByOwner i (.port p d) s t := by
  have hflight : (s.drawing p d).flight = some f := by simpa [State.flight] using hf
  have hp : (s.drawing p d).hasPort p = true := State.hasPort_drawing s p p d ▸ State.hasPort_of_flight hf
  have hring := execStep_ring h hp (by simp [hflight]) i
  refine ⟨fun hhead => ?_, fun hmoved => ?_, fun hhw => .inr ?_⟩
  · obtain hact | ⟨hact, g, sel, base, size, hg, hi, hsel⟩ := hring.head_mover hfl hhead
    · exact .inl ⟨d, congrArg (Move.port · d) hact⟩
    · obtain rfl : p = .main := hact
      exact .inr ⟨d, g, sel, base, size, rfl, hg, hi, hsel⟩
  · cases p with
    | main => exact ⟨d, rfl⟩
    | prod k =>
      have hfr : Frame [.ring k, .mem] (s.drawing (.prod k) d) t := execStep_prod_frame hfl hflight rfl h
      obtain htail | hrd | hcd | hbrc | hpins := hmoved
      · cases hring.tail_mover hfl htail
      · exact absurd (congrArg Dib.rd (Frame.part (part := .dib) hfr (by simp))) hrd
      · exact absurd (Frame.part (part := .cd) hfr (by simp)) hcd
      · exact absurd (Frame.part (part := .brc) hfr (by simp)) hbrc
      · exact absurd (Frame.part (part := .pins) hfr (by simp)) hpins
  · have hi : f.instr = .dibInit := (execStep_hw h hp).resolve_left hhw
    obtain rfl : p = .main := acting_eq_main (s := s.drawing p d) hfl hflight hi fun _ => rfl
    exact ⟨d, f, rfl, hf, hi⟩

/-- Of the other agents the ingest engine alone moves the hardware cursor, and none the read cursor. -/
theorem agentStep_dibCursors {c : List Part} (hc : agentParts m = some c) (h : MoveStep m s t) :
    t.dib.rd = s.dib.rd ∧ (t.dib.hw = s.dib.hw ∨ ∃ b, m = .hwWrite b) := by
  have hfr := moveStep_agentFrame h hc
  have hkept (hdib : .dib ∉ c) : t.dib = s.dib := AgentFrame.part (part := .dib) hfr hdib
  cases h with
  | hwWrite b => exact ⟨by unfold hwWriteStep; split <;> rfl, .inr ⟨b, rfl⟩⟩
  | txByte => unfold txByteStep; split <;> exact ⟨rfl, .inl rfl⟩
  | txDone => unfold txDoneStep; split <;> exact ⟨rfl, .inl rfl⟩
  | syncD => unfold syncDStep; split <;> exact ⟨rfl, .inl rfl⟩
  | syncH | syncT | envWrite | envRead => cases hc; rw [hkept (by simp)]; exact ⟨rfl, .inl rfl⟩
  | _ => cases hc

theorem MovedByOwner.of_agent {c : List Part} (hc : agentParts m = some c) (h : MoveStep m s t) :
    MovedByOwner i m s t := by
  have hfr := moveStep_agentFrame h hc
  have hregs := agentStep_sameCursors hc h i
  obtain ⟨hbrc, hpins, hcd⟩ := agentParts_apart hc
  have hcd : t.cd = s.cd := AgentFrame.part (part := .cd) hfr hcd
  have hbrc : t.brc = s.brc := AgentFrame.part (part := .brc) hfr hbrc
  have hpins : t.pins = s.pins := AgentFrame.part (part := .pins) hfr hpins
  obtain ⟨hrd, hhw⟩ := agentStep_dibCursors hc h
  exact ⟨absurd hregs.head, by simp [hregs.tail, hrd, hcd, hbrc, hpins], fun hne => .inl (hhw.resolve_left hne)⟩

end

/-- Settles O55: the steps of the requests by the port that admits them, and the steps of the other agents. -/
theorem eachCursorHasOneWriter : Obligations.EachCursorHasOneWriter := by
  intro s t m i hfl h hreset
  have hm := apply_cases h
  show MovedByOwner i m s t
  cases apply_cases h with
  | ignored | idle => exact .of_unchanged (Frame.refl s [])
  | undecoded p => exact MovedByOwner.of_unchanged (s := s.actingAs p) (State.respond_frame _ .badRequest 0)
  | presented p _ _ _ _ _ _ _ h => exact MovedByOwner.of_unchanged (s := s.actingAs p) (accept_frame h)
  | served p d f _ _ hf h => exact .of_served hfl hf h
  | reset x y acc => exact absurd rfl (hreset x y acc)
  | _ => exact .of_agent rfl hm

/-! ## A producer never waits (R123, 70_reset_and_hazards.md R297) -/

/-- How many steps a request on a producer port has still to take, at most. -/
def stepsLeft : Option Phase → Nat
  | none => 0
  | some .p1 => 3
  | some .p2 => 2
  | some _ => 1

/-- The next step of port `p`. -/
def phaseAt (p : Port) (s : State) : Option Phase := (s.port p).flight.map Flight.phase

section
variable {s t : State} {m : Move} {p : Port} {k : Nat}

theorem stepsLeft_pos (ph : Phase) : 0 < stepsLeft (some ph) := by
  cases ph <;> decide

/-- A step that answers leaves no step to take. -/
theorem stepsLeft_of_answered {c : List Part} {st : Status} {v : Word} {ph : Phase} (hph : s.phase = some ph)
    (h : Answered s t st v ∧ Frame c s t) : stepsLeft t.phase < stepsLeft s.phase := by
  obtain ⟨hans, hfr⟩ := h
  rw [hph, State.phase_none (s := t) (by rw [flight_of_frame hfr, hans])]
  exact stepsLeft_pos ph

theorem stepsLeft_of_goesOn {c : List Part} {ph ph' : Phase} {tmp : Temps} (hph : s.phase = some ph)
    (h : GoesOn s t ph' tmp ∧ Frame c s t) (hlt : stepsLeft (some ph') < stepsLeft (some ph)) :
    stepsLeft t.phase < stepsLeft s.phase := by
  obtain ⟨hgo, hfr⟩ := h
  rwa [hph, (flight_of_goesOn hgo hfr).1]

/-- No producer port admits a request that makes a recovery run. -/
theorem admits_of_recoveryOf {i : Instr} {done : Phase} (h : recoveryOf i = some done) :
    admits (.prod k) i = false := by
  cases i <;> cases h <;> rfl

/-- Every step of a request on a producer port brings it closer to its answer, whatever the consumer has done. -/
theorem producer_step {i : Instr} {f : Flight} (hfl : flightsOk s = true) (hf : s.flight = some f)
    (hact : s.env.acting = .prod k) (hi : f.instr = i) (h : ExecStep i s t) :
    stepsLeft t.phase < stepsLeft s.phase := by
  obtain ⟨hadm, -, hmem⟩ := flightsOk_acting hfl hf
  have hp : s.hasPort s.env.acting = true := State.hasPort_of_flight hf
  have hphase : s.phase = some f.phase := by rw [State.phase, hf]; rfl
  rw [hi, hact] at hadm
  cases h with
  | accepted _ _ hph | turnedAway _ _ hph => cases hphase.symm.trans hph
  | noStep _ _ ph hph hno =>
    cases hphase.symm.trans hph
    exact absurd (hi ▸ hmem) hno
  | p1 _ _ _ hph =>
    simp only [rbPushP1]
    split
    · exact stepsLeft_of_answered hph (State.respond_spec hp)
    · exact stepsLeft_of_goesOn hph (State.advance_spec hph) (by decide)
  | p2 _ _ _ hph =>
    exact stepsLeft_of_goesOn hph (advance_after .p3 _ (AgentFrame.store s _ _) hph) (by decide)
  | p3 _ _ _ hph => exact stepsLeft_of_answered hph (respond_after .ok 0 (AgentFrame.setRb rfl) hp)
  | e1 _ _ hph | f1 _ _ hph => exact stepsLeft_of_answered hph (State.respond_spec hp)
  | v1 _ _ _ hdone | v2 _ _ _ hdone | v3 _ _ _ hdone | v4 _ _ _ hdone =>
    simp [admits_of_recoveryOf hdone] at hadm
  | _ => simp [admits] at hadm

/-- A move of a busy producer port brings its request closer to its answer. -/
theorem producer_move {d : Draw} (hfl : flightsOk s = true) (hbusy : s.busy (.prod k) = true)
    (h : MoveStep (.port (.prod k) d) s t) :
    stepsLeft (phaseAt (.prod k) t) < stepsLeft (phaseAt (.prod k) s) := by
  cases h with
  | idle _ _ _ hf => simp [State.busy, hf] at hbusy
  | served _ _ f _ _ hf h =>
    have hflight : (s.drawing (.prod k) d).flight = some f := by simpa [State.flight] using hf
    have hfr := (execStep_effect h (State.hasPort_of_flight hflight)).frame
    have ht : phaseAt (.prod k) t = t.phase := congrArg (Option.map _) (flight_of_frame hfr).symm
    rw [ht]
    exact producer_step (s := s.drawing (.prod k) d) hfl hflight rfl rfl h

/-- The other moves leave the request in flight on a busy port, or drop it. -/
theorem other_move_keeps_port (h : MoveStep m s t) (hbusy : s.busy p = true) (hother : ∀ d, m ≠ .port p d) :
    t.port p = s.port p ∨ t.busy p = false := by
  have hidle {q : Port} (hq : s.busy q = false) : p ≠ q := by
    rintro rfl
    simp [hq] at hbusy
  have hm := h
  cases h with
  | ignored | idle => exact .inl rfl
  | undecoded q _ _ _ _ hq =>
    exact .inl ((Frame.port (State.respond_frame (s.actingAs q) .badRequest 0) (hidle hq)).trans
      (State.actingAs_port s q p))
  | presented q _ _ _ _ _ hq _ h =>
    exact .inl ((Frame.port (accept_frame h) (hidle hq)).trans (State.actingAs_port s q p))
  | served q d f _ _ hf h =>
    have hpq : p ≠ q := fun hpq => hother d (hpq ▸ rfl)
    have hflight : (s.drawing q d).flight = some f := by simpa [State.flight] using hf
    exact .inl ((Frame.port (execStep_effect h (State.hasPort_of_flight hflight)).frame hpq).trans
      (State.drawing_port s q p d))
  | reset x y acc => exact .inr (by rw [State.busy, resetStep_port, State.resetWith_flight]; rfl)
  | _ => exact .inl (AgentFrame.port (moveStep_agentFrame hm rfl) p)

/-- No move takes a busy producer port further from its answer. -/
theorem stepsLeft_le (hfl : flightsOk s = true) (hbusy : s.busy (.prod k) = true) (h : MoveStep m s t) :
    stepsLeft (phaseAt (.prod k) t) ≤ stepsLeft (phaseAt (.prod k) s) := by
  by_cases hown : ∃ d, m = .port (.prod k) d
  · obtain ⟨d, rfl⟩ := hown
    exact (producer_move hfl hbusy h).le
  · obtain hkept | hidle := other_move_keeps_port h hbusy (not_exists.mp hown)
    · rw [phaseAt, hkept, phaseAt]
    · have hnone : phaseAt (.prod k) t = none := by simpa [State.busy, phaseAt] using hidle
      rw [hnone]
      exact Nat.zero_le _

end

/-- A measure that no step raises does not fall again and again. -/
theorem not_forever_falling {g : Nat → Nat} {n : Nat} (hle : ∀ k, n ≤ k → g (k + 1) ≤ g k)
    (hlt : ∀ k, n ≤ k → ∃ l, k ≤ l ∧ g (l + 1) < g l) : False := by
  induction hb : g n using Nat.strongRecOn generalizing n with
  | ind b ih =>
    obtain ⟨l, hl, hfall⟩ := hlt n le_rfl
    have hmono : g l ≤ g n := antitoneOn_nat_Ici_of_succ_le hle (le_refl n) hl hl
    exact ih (g (l + 1)) (by omega) (fun k hk => hle k (by omega)) (fun k hk => hlt k (by omega)) rfl

theorem run_flightsOk {moves : Nat → Move} {e : Nat → State} (hrun : Runs moves e) (h0 : flightsOk (e 0) = true)
    (n : Nat) : flightsOk (e n) = true := by
  induction n with
  | zero => exact h0
  | succ n ih => exact flightsOk_kept.move ih (apply_cases (hrun n))

/-- Settles O51: while the port is busy its own moves, which come again and again, use up the steps it has left, and no
other move gives it more. -/
theorem producerNeverWaits : Obligations.ProducerNeverWaits := by
  intro moves e i hrun hfair h0 n
  by_contra! hbusy
  replace hbusy (k : Nat) (hk : n ≤ k) : (e k).busy (.prod i) = true := by simpa using hbusy k hk
  have hstep (k : Nat) : MoveStep (moves k) (e k) (e (k + 1)) := apply_cases (hrun k)
  have hfl := run_flightsOk hrun h0
  refine not_forever_falling (g := fun k => stepsLeft (phaseAt (.prod i) (e k))) (n := n)
    (fun k hk => stepsLeft_le (hfl k) (hbusy k hk) (hstep k)) fun k hk => ?_
  obtain ⟨l, d, hl, hmove⟩ := hfair k
  exact ⟨l, hl, producer_move (hfl l) (hbusy l (hk.trans hl)) (hmove ▸ hstep l)⟩

end Sys2Proof.Proofs
end

section
/-! PROOFS. Family 41_bus_recovery.md: BRC.SAFE_WRITE step by step (O23 to O25), the four steps of the recovery run (O26
to O29), and the run as a whole (O30). -/

namespace Sys2Proof.Proofs

open Sys2Proof.Machine Sys2Proof.Safety

/-! ## BRC.SAFE_WRITE and the answers after the run (R150, R154) -/

section
variable {s : State} {addr : Byte} {data length : Word}

@[simp] theorem State.length_loadBytes (s : State) (a : Word) (n : Nat) : (s.loadBytes a n).length = n := by
  induction n generalizing a with
  | zero => rfl
  | succ n ih => simp [State.loadBytes, ih]

theorem add_one_add_ofNat {w : Nat} (a : BitVec w) (k : Nat) :
    a + 1 + BitVec.ofNat w k = a + BitVec.ofNat w (k + 1) := by
  rw [Nat.add_comm k 1, BitVec.ofNat_add, BitVec.add_assoc]
  rfl

theorem State.getElem?_loadBytes {a : Word} {n k : Nat} (h : k < n) :
    (s.loadBytes a n)[k]? = some (s.load (a + BitVec.ofNat 32 k)) := by
  induction n generalizing a k with
  | zero => cases h
  | succ n ih =>
    cases k with
    | zero => simp [State.loadBytes]
    | succ k =>
      rw [State.loadBytes, List.getElem?_cons_succ, ih (Nat.lt_of_succ_lt_succ h), add_one_add_ofNat]

theorem exec_w1 (h : s.phase = some .w1) :
    exec (.brcSafeWrite addr data length) s = brcSafeWriteW1 addr data length s := by
  simp [exec, execBrcSafeWrite, h]

theorem exec_w2 (h : s.phase = some .w2) :
    exec (.brcSafeWrite addr data length) s = .next (brcSafeWriteW2 length s) := by
  simp [exec, execBrcSafeWrite, h]

theorem exec_w3 (h : s.phase = some .w3) :
    exec (.brcSafeWrite addr data length) s = .next (s.fail .busTimeout) := by
  simp [exec, execBrcSafeWrite, h]

theorem exec_x1 (h : s.phase = some .x1) : exec .brcRecover s = .next (s.respond .ok 0) := by
  simp [exec, execBrcRecover, h]

/-- Step W1 on a region inside the address space. -/
theorem brcSafeWriteW1_fits (h : (operandRegion data length).fits = true) :
    brcSafeWriteW1 addr data length s =
      .next ((({ s with brc := { s.brc with addr := addr } } : State).emitBus
        (.write addr (s.loadBytes data length.toNat) s.brc.timeoutUs)).advance .w2
          { s.temps with payload := s.loadBytes data length.toNat }) := by
  simp only [brcSafeWriteW1, h, AgentFrame.temps (brcSafeWriteW1_frame s addr _)]
  rfl

/-- Step W2 of a write that completes. -/
theorem brcSafeWriteW2_written {k : Nat} (h : s.env.draw.outcome = .written k) :
    brcSafeWriteW2 length s = (s.emitBus (.result (.written (k % (length.toNat + 1))))).respond .ok
      (BitVec.ofNat 32 (k % (length.toNat + 1))) := by
  simp [brcSafeWriteW2, h, boundedOutcome, State.respond_advance]

/-- Step W2 of a write that fails, whichever way. -/
theorem brcSafeWriteW2_not_written {o : RawOutcome} (h : s.env.draw.outcome = o) (ho : o = .timeout ∨ o = .failure) :
    brcSafeWriteW2 length s = (s.emitBus (.result o)).advance .v1 { s.temps with outcome := some o } := by
  obtain rfl | rfl := ho <;>
    simp [brcSafeWriteW2, h, boundedOutcome, AgentFrame.temps (AgentFrame.emitBus s _)]

end

/-- Settles O23: the region fits, so step W1 reads the payload, latches the address and issues the write. -/
theorem safeWriteIssues : Obligations.SafeWriteIssues := by
  intro s addr data length hph hfits
  refine ⟨_, s.loadBytes data length.toNat,
    (exec_w1 hph).trans (brcSafeWriteW1_fits (operandRegion_fits.mpr hfits)), State.length_loadBytes s _ _,
    fun k hk => State.getElem?_loadBytes hk, by simp, by simp, ?_⟩
  exact advance_after .w2 _ (brcSafeWriteW1_frame s addr _) hph

/-- Settles O24: step W2 traces the outcome, and then answers or goes on to the recovery run. -/
theorem safeWriteOutcome : Obligations.SafeWriteOutcome := by
  intro s addr data length hph
  refine ⟨fun k hk => ⟨_, k % (length.toNat + 1), exec_w2 hph, rfl, ?_⟩, fun o hdrawn ho => ⟨_, exec_w2 hph, ?_⟩⟩
  · rw [brcSafeWriteW2_written hk]
    exact ⟨Nat.le_of_lt_succ (Nat.mod_lt k (Nat.succ_pos _)), by simp,
      respond_after .ok _ (AgentFrame.emitBus s _) (State.hasPort_of_phase hph)⟩
  · rw [brcSafeWriteW2_not_written hdrawn ho]
    exact ⟨by simp, advance_after .v1 _ (AgentFrame.emitBus s _) hph⟩

/-- Settles O25: W3 and X1 answer and do nothing else. -/
theorem answerAfterRecovery : Obligations.AnswerAfterRecovery := fun _ =>
  ⟨fun _ _ _ hph => ⟨_, exec_w3 hph, State.respond_spec (State.hasPort_of_phase hph)⟩,
    fun hph => ⟨_, exec_x1 hph, State.respond_spec (State.hasPort_of_phase hph)⟩⟩

/-! ## The steps of the recovery run (R156 to R159) -/

section
variable {s u : State} {i : Instr} {done : Phase}

theorem exec_v1 (hi : recoveryOf i = some done) (h : s.phase = some .v1) :
    exec i s = .next ((recoverV1 s).gotoRun done) := by
  cases i <;> cases hi <;> simp [exec, execBrcSafeWrite, execBrcRecover, h]

theorem exec_v2 (hi : recoveryOf i = some done) (h : s.phase = some .v2) :
    exec i s = .next ((recoverV2 s).gotoRun done) := by
  cases i <;> cases hi <;> simp [exec, execBrcSafeWrite, execBrcRecover, h]

theorem exec_v3 (hi : recoveryOf i = some done) (h : s.phase = some .v3) :
    exec i s = .next ((recoverV3 s).gotoRun done) := by
  cases i <;> cases hi <;> simp [exec, execBrcSafeWrite, execBrcRecover, h]

theorem exec_v4 (hi : recoveryOf i = some done) (h : s.phase = some .v4) :
    exec i s = .next ((recoverV4 s).gotoRun done) := by
  cases i <;> cases hi <;> simp [exec, execBrcSafeWrite, execBrcRecover, h]

/-- A step of the run goes on to the step the machine's state names, with the temporaries as they were. -/
theorem gotoRun_after {c : List Part} {ph next : Phase} (h : AgentFrame c s u) (hph : s.phase = some ph)
    (hnext : u.brc.state.nextStep done = next) :
    GoesOn s (u.gotoRun done) next s.temps ∧ Frame c s (u.gotoRun done) := by
  rw [State.gotoRun, State.goto, hnext, AgentFrame.temps h]
  exact advance_after next s.temps h hph

end

/-- Settles O26: step V1 sets the pins and the registers, and the state it sets names the step that follows. -/
theorem recoveryStarts : Obligations.RecoveryStarts := fun s _ done hi hph =>
  ⟨_, exec_v1 hi hph, State.gotoRun_pins _ _, State.gotoRun_brc _ _, State.gotoRun_pinTrace _ _,
    gotoRun_after (recoverV1_frame s) hph (apply_ite (BrcState.nextStep done) _ _ _)⟩

/-- Settles O27: step V2 counts one pulse, and the sample and the counter decide on the step that follows. -/
theorem recoveryPulses : Obligations.RecoveryPulses := by
  rintro s i done ends hi hph hst rfl
  have hbrc : (recoverV2 s).brc = { s.brc with
      n := s.brc.n + 1,
      state := if s.env.draw.sample || s.brc.n + 1 = s.brc.pulses then .generateStop else .pulseClock } := by
    rw [← hst]
    rfl
  refine ⟨_, exec_v2 hi hph, State.gotoRun_pins _ _, (State.gotoRun_brc _ _).trans hbrc,
    State.gotoRun_pinTrace _ _, gotoRun_after (recoverV2_frame s) hph ?_⟩
  rw [hbrc]
  exact apply_ite (BrcState.nextStep done) _ _ _

/-- Settles O28: step V3 reads neither the sample nor the counter. -/
theorem recoveryStops : Obligations.RecoveryStops := fun s _ _ hi hph =>
  ⟨_, exec_v3 hi hph, State.gotoRun_pins _ _, State.gotoRun_brc _ _, State.gotoRun_pinTrace _ _,
    gotoRun_after (recoverV3_frame s) hph rfl⟩

/-- Settles O29: step V4 leaves the machine in `Idle`, where the step that follows is the one after the run. -/
theorem recoveryReinitialises : Obligations.RecoveryReinitialises := fun s _ _ hi hph =>
  ⟨_, exec_v4 hi hph, State.gotoRun_pins _ _, State.gotoRun_brc _ _, State.gotoRun_pinTrace _ _,
    State.gotoRun_busTrace _ _, gotoRun_after (recoverV4_frame s) hph rfl⟩

/-! ## The run as a whole (R160 to R162) -/

/-- Steps of a recovery run, its last one V4 among them, lead from `s` to `t` with the counter at `n` and `events` pin
events. -/
structure RunEnds (done : Phase) (n : BitVec 4) (events : Nat) (s t : State) : Prop where
  phase : t.phase = some done
  brc : t.brc = { s.brc with state := .idle, n := n }
  pins : t.pins = { sdaMode := .function, sclMode := .function, sdaOut := true, sclOut := true,
                    sdaPull := true, sclPull := true }
  pinTrace : t.pinTrace.length = s.pinTrace.length + events
  busTrace : t.busTrace = s.busTrace ++ [.reinit s.cfg.busClockHz]

section
variable {s t u : State} {i : Instr} {done : Phase}

/-- One more step before the end of a run: it writes the counter and the state and emits pin events. -/
theorem RunEnds.cons {c n : BitVec 4} {e : Nat} {st : BrcState} {es : List PinEvent} (h : RunEnds done n e u t)
    (hbrc : u.brc = { s.brc with n := c, state := st }) (hpinTrace : u.pinTrace = s.pinTrace ++ es)
    (hbusTrace : u.busTrace = s.busTrace) (hcfg : u.cfg = s.cfg) : RunEnds done n (e + es.length) s t := by
  obtain ⟨hph, hbrc', hpins, hpinTrace', hbusTrace'⟩ := h
  refine ⟨hph, by rw [hbrc', hbrc], hpins, ?_, by rw [hbusTrace', hbusTrace, hcfg]⟩
  rw [hpinTrace', hpinTrace, List.length_append]
  omega

/-- The first draw of a stream serves the step at hand, and the others the steps after it. -/
theorem serveDraws_range_succ (d : Nat → Draw) (n : Nat) (h : exec i (s.drawing s.env.acting (d 0)) = .next t) :
    serveDraws i ((List.range (n + 1)).map d) s = serveDraws i ((List.range n).map fun j => d (j + 1)) t := by
  rw [List.range_succ_eq_map, List.map_cons, List.map_map, serveDraws]
  exact h ▸ rfl

/-- The draws of a step are no part of its port's record. -/
theorem phase_drawing (s : State) (d : Draw) : (s.drawing s.env.acting d).phase = s.phase := by
  simp [State.phase, State.flight]

/-- Step V1 under a draw, and what it adds to the rest of the run. -/
theorem start_runEnds (hi : recoveryOf i = some done) (hph : s.phase = some .v1) (d : Draw) :
    ∃ u, exec i (s.drawing s.env.acting d) = .next u ∧ u.phase = some (if s.brc.pulses = 0 then .v3 else .v2) ∧
      u.brc = { s.brc with n := 0, state := if s.brc.pulses = 0 then .generateStop else .pulseClock } ∧
      ∀ n e t, RunEnds done n e u t → RunEnds done n (e + 2) s t := by
  obtain ⟨u, hv1, -, hbrc, hpinTrace, hgo, hfr⟩ :=
    recoveryStarts (s.drawing s.env.acting d) i done hi ((phase_drawing s d).trans hph)
  obtain ⟨hphu, -⟩ := flight_of_goesOn hgo hfr
  exact ⟨u, hv1, hphu, hbrc, fun _ _ _ h =>
    h.cons (s := s) hbrc hpinTrace (Frame.part (part := .busTrace) hfr (by simp)) (Frame.cfg hfr :)⟩

/-- Step V2 under a draw, and what it adds to the rest of the run. -/
theorem pulse_runEnds (hi : recoveryOf i = some done) (hph : s.phase = some .v2) (hst : s.brc.state = .pulseClock)
    (d : Draw) {ends : Bool} (hends : (d.sample || s.brc.n + 1 = s.brc.pulses) = ends) :
    ∃ u, exec i (s.drawing s.env.acting d) = .next u ∧ u.phase = some (if ends then .v3 else .v2) ∧
      u.brc = { s.brc with n := s.brc.n + 1, state := if ends then .generateStop else .pulseClock } ∧
      ∀ n e t, RunEnds done n e u t → RunEnds done n (e + 5) s t := by
  obtain ⟨u, hv2, -, hbrc, hpinTrace, hgo, hfr⟩ :=
    recoveryPulses (s.drawing s.env.acting d) i done ends hi ((phase_drawing s d).trans hph) hst hends.symm
  obtain ⟨hphu, -⟩ := flight_of_goesOn hgo hfr
  exact ⟨u, hv2, hphu, hbrc, fun _ _ _ h =>
    h.cons (s := s) hbrc hpinTrace (Frame.part (part := .busTrace) hfr (by simp)) (Frame.cfg hfr :)⟩

/-- Steps V3 and V4: the stop condition and the reinitialisation end the run, the counter as it is. -/
theorem stop_runEnds (hi : recoveryOf i = some done) (hph : s.phase = some .v3) (d : Nat → Draw) :
    ∃ t, serveDraws i ((List.range 2).map d) s = .next t ∧ RunEnds done s.brc.n 11 s t := by
  obtain ⟨u, hv3, hpins, hbrc, hpinTrace, hgo, hfr⟩ := recoveryStops _ i done hi ((phase_drawing s (d 0)).trans hph)
  obtain ⟨hphu, -⟩ := flight_of_goesOn hgo hfr
  obtain ⟨t, hv4, hpins', hbrc', hpinTrace', hbusTrace', hgo', hfr'⟩ :=
    recoveryReinitialises _ i done hi ((phase_drawing u (d 1)).trans hphu)
  obtain ⟨hpht, -⟩ := flight_of_goesOn hgo' hfr'
  have hbus : u.busTrace = s.busTrace := Frame.part (part := .busTrace) hfr (by simp)
  have hcfg : u.cfg = s.cfg := (Frame.cfg hfr :)
  refine ⟨t, ?_, hpht, by simp [hbrc', hbrc], by simp [hpins', hpins], by simp [hpinTrace', hpinTrace],
    by simp [hbusTrace', hbus, hcfg]⟩
  rw [serveDraws_range_succ d 1 hv3, serveDraws_range_succ _ 0 hv4]
  rfl

/-- The pulse that ends the pulses, and the stop after it. -/
theorem lastPulse_runEnds (hi : recoveryOf i = some done) (hph : s.phase = some .v2)
    (hst : s.brc.state = .pulseClock) (d : Nat → Draw)
    (hends : (d 0).sample = true ∨ s.brc.n + 1 = s.brc.pulses) :
    ∃ t, serveDraws i ((List.range 3).map d) s = .next t ∧ RunEnds done (s.brc.n + 1) 16 s t := by
  obtain ⟨u, hv2, hphu, hbrc, hcons⟩ := pulse_runEnds hi hph hst (d 0) (ends := true) (by simpa using hends)
  obtain ⟨t, hserve, hrun⟩ := stop_runEnds hi hphu fun j => d (j + 1)
  rw [hbrc] at hrun
  exact ⟨t, (serveDraws_range_succ d 2 hv2).trans hserve, hcons _ _ t hrun⟩

/-- With `m + 1` pulses still allowed there is a pulse, and then one more after each sample of 0 until the `m + 1` are
used up; after them the run stops. -/
theorem pulses_runEnds (hi : recoveryOf i = some done) {m : Nat} (hph : s.phase = some .v2)
    (hst : s.brc.state = .pulseClock) (hm : s.brc.n.toNat + (m + 1) = s.brc.pulses.toNat) (d : Nat → Draw) :
    ∃ k t, serveDraws i ((List.range (k + 3)).map d) s = .next t ∧ k ≤ m ∧ (∀ j, j < k → (d j).sample = false) ∧
      (k < m → (d k).sample = true) ∧
      RunEnds done (s.brc.n + BitVec.ofNat 4 (k + 1)) (11 + 5 * (k + 1)) s t := by
  induction m generalizing s d with
  | zero =>
    have hlast : s.brc.n + 1 = s.brc.pulses := by bv_omega
    obtain ⟨t, hserve, hrun⟩ := lastPulse_runEnds hi hph hst d (.inr hlast)
    exact ⟨0, t, hserve, le_rfl, nofun, nofun, hrun⟩
  | succ m ih =>
    cases hsample : (d 0).sample with
    | true =>
      obtain ⟨t, hserve, hrun⟩ := lastPulse_runEnds hi hph hst d (.inl hsample)
      exact ⟨0, t, hserve, Nat.zero_le _, nofun, fun _ => hsample, hrun⟩
    | false =>
      have hmore : s.brc.n + 1 ≠ s.brc.pulses := by bv_omega
      have hn : (s.brc.n + 1).toNat + (m + 1) = s.brc.pulses.toNat := by bv_omega
      obtain ⟨u, hv2, hphu, hbrc, hcons⟩ :=
        pulse_runEnds hi hph hst (d 0) (ends := false) (by simpa [hsample] using hmore)
      obtain ⟨k, t, hserve, hk, hlow, hhigh, hrun⟩ :=
        ih hphu (by rw [hbrc]; rfl) (by rw [hbrc]; exact hn) fun j => d (j + 1)
      rw [hbrc, add_one_add_ofNat] at hrun
      refine ⟨k + 1, t, (serveDraws_range_succ d (k + 3) hv2).trans hserve, by omega, fun j hj => ?_,
        fun hlt => hhigh (by omega), hcons _ _ t hrun⟩
      cases j with
      | zero => exact hsample
      | succ j => exact hlow j (by omega)

/-- A recovery run from V1 on, whatever is drawn: the number of its pulses, and how it ends. -/
theorem recovery_runEnds (hi : recoveryOf i = some done) (hph : s.phase = some .v1) (d : Nat → Draw) :
    ∃ k t, serveDraws i ((List.range (k + 3)).map d) s = .next t ∧ k ≤ s.brc.pulses.toNat ∧
      (0 < s.brc.pulses.toNat → 1 ≤ k) ∧ (∀ j, 1 ≤ j → j < k → (d j).sample = false) ∧
      (k < s.brc.pulses.toNat → (d k).sample = true) ∧ RunEnds done (BitVec.ofNat 4 k) (13 + 5 * k) s t := by
  obtain ⟨u, hv1, hphu, hbrc, hcons⟩ := start_runEnds hi hph (d 0)
  by_cases hz : s.brc.pulses = 0
  · rw [if_pos hz] at hphu
    obtain ⟨t, hserve, hrun⟩ := stop_runEnds hi hphu fun j => d (j + 1)
    rw [hbrc] at hrun
    exact ⟨0, t, (serveDraws_range_succ d 2 hv1).trans hserve, Nat.zero_le _, by simp [hz], nofun, by simp [hz],
      hcons _ _ t hrun⟩
  · rw [if_neg hz] at hphu hbrc
    have hm : (0 : BitVec 4).toNat + (s.brc.pulses.toNat - 1 + 1) = s.brc.pulses.toNat := by bv_omega
    obtain ⟨k, t, hserve, hk, hlow, hhigh, hrun⟩ :=
      pulses_runEnds hi hphu (by rw [hbrc]) (by rw [hbrc]; exact hm) fun j => d (j + 1)
    have hzero : u.brc.n = 0#4 := by rw [hbrc]; rfl
    rw [hzero, BitVec.zero_add] at hrun
    refine ⟨k + 1, t, (serveDraws_range_succ d (k + 3) hv1).trans hserve, by omega, fun _ => Nat.succ_pos k,
      fun j hj hjk => ?_, fun hlt => hhigh (by omega), ?_⟩
    · obtain ⟨j, rfl⟩ := Nat.exists_eq_add_of_le' hj
      exact hlow j (by omega)
    · have hend := hcons _ _ t hrun
      rwa [Nat.add_right_comm] at hend

end

/-- Settles O30: the run from V1 on, whose pulses end at the first sample of 1 or at the count. -/
theorem recoveryRunEnds : Obligations.RecoveryRunEnds := by
  intro s i done d hi hph
  obtain ⟨k, t, hserve, hk, hpos, hlow, hhigh, hrun⟩ := recovery_runEnds hi hph d
  obtain ⟨hend, hbrc, hpins, hpinTrace, hbusTrace⟩ := hrun
  exact ⟨k, t, hserve, hk, hpos, hlow, hhigh, hend, hbrc, hpins, by rw [hpinTrace, Nat.add_assoc], hbusTrace⟩

end Sys2Proof.Proofs
end

section
/-! PROOFS. Family 42_dma_bridge.md: the bridge's requests step by step (O32 to O35), its engines (O37 to O39), and an
outbound transfer along a fair run (O40). -/

namespace Sys2Proof.Proofs

open Sys2Proof.Machine Sys2Proof.Safety

/-! ## The requests (R190 to R192) -/

section
variable {s : State} {data length output maxLen : Word}

theorem exec_n1 (h : s.phase = some .n1) : exec .dibInit s = dibInitN1 s := by
  simp [exec, execDibInit, h]

theorem exec_s1 (h : s.phase = some .s1) : exec (.dibSend data length) s = dibSendS1 data length s := by
  simp [exec, execDibSend, h]

theorem exec_d1 (h : s.phase = some .d1) : exec (.dibRead output maxLen) s = dibReadD1 output maxLen s := by
  simp [exec, execDibRead, h]

theorem exec_d2 (h : s.phase = some .d2) : exec (.dibRead output maxLen) s = .next (dibReadD2 output maxLen s) := by
  simp [exec, execDibRead, h]

theorem exec_d3 (h : s.phase = some .d3) : exec (.dibRead output maxLen) s = .next (s.respond .ok s.temps.cnt) := by
  simp [exec, execDibRead, h]

theorem dibInitN1_clear (h : s.clearOfStores (dibRegion s.cfg) = true) :
    dibInitN1 s = .next (({ s with dib := s.dib.started s.cfg } : State).respond .ok 0) := by
  simp [dibInitN1, h]

theorem Dib.started_eq (c : Params) (d : Dib) : d.started c =
    { d with hw := c.dibBase, rd := 0, run := true,
             hwSeen := if c.dibSync = .gray then c.dibBase else d.hwSeen } := by
  unfold Dib.started
  split <;> simp [*]

theorem dibSendS1_idle (hfits : data.toNat + length.toNat ≤ 2 ^ 32) (h : s.dib.txBusy = false) :
    dibSendS1 data length s =
      .next (({ s with dib := { s.dib with txSrc := data, txRem := length, txBusy := true } } : State).respond
        .ok 0) := by
  simp [dibSendS1, operandRegion_fits.mpr hfits, h]

theorem dibSendS1_busy (hfits : data.toNat + length.toNat ≤ 2 ^ 32) (h : s.dib.txBusy = true) :
    dibSendS1 data length s = .next s := by
  simp [dibSendS1, operandRegion_fits.mpr hfits, h]

theorem dibReadNext_eq (rd prod cnt maxLen : Word) :
    dibReadNext rd prod cnt maxLen = if rd ≠ prod ∧ cnt < maxLen then .d2 else .d3 := by
  simp [dibReadNext]

/-- Step D1 on an output region that lies in the address space and overlaps nothing. -/
theorem dibReadD1_clear (hfits : output.toNat + maxLen.toNat ≤ 2 ^ 32)
    (hdib : s.clearOfDib (operandRegion output maxLen) = true)
    (hstores : s.clearOfStores (operandRegion output maxLen) = true) :
    dibReadD1 output maxLen s =
      .next (s.advance (if s.dib.rd ≠ dibIndex s.cfg s.viewHw ∧ 0 < maxLen then .d2 else .d3)
        { s.temps with prod := dibIndex s.cfg s.viewHw, cnt := 0 }) := by
  simp [dibReadD1, operandRegion_fits.mpr hfits, hdib, hstores, dibReadNext_eq]

/-- Step D2: the store, the new read cursor, and the loop's test on the new cursor and count. -/
theorem dibReadD2_eq : dibReadD2 output maxLen s =
    ({ s.store (output + s.temps.cnt) (s.load (s.cfg.dibBase + s.dib.rd)) with
        dib := { s.dib with rd := (s.dib.rd + 1) &&& dibMask s.cfg } } : State).advance
      (if (s.dib.rd + 1) &&& dibMask s.cfg ≠ s.temps.prod ∧ s.temps.cnt + 1 < maxLen then .d2 else .d3)
      { s.temps with cnt := s.temps.cnt + 1 } := by
  rw [← dibReadNext_eq]
  rfl

end

/-- Settles O32: the buffer is clear of the stores, so step N1 starts ingestion. -/
theorem dibInitStarts : Obligations.DibInitStarts := by
  intro s hph hclear
  obtain ⟨hans, hfr⟩ := respond_after .ok 0 (AgentFrame.setDib s _) (State.hasPort_of_phase hph)
  exact ⟨_, (exec_n1 hph).trans (dibInitN1_clear hclear), hans, hfr,
    (State.respond_dib _ _ _).trans (Dib.started_eq s.cfg s.dib)⟩

/-- Settles O33: the region fits, so `dib.tx_busy` alone decides between the trigger and the hold. -/
theorem dibSendTriggersOrHolds : Obligations.DibSendTriggersOrHolds := by
  intro s data length hph hfits
  refine ⟨fun hidle => ?_, fun hbusy => (exec_s1 hph).trans (dibSendS1_busy hfits hbusy)⟩
  obtain ⟨hans, hfr⟩ := respond_after .ok 0 (AgentFrame.setDib s _) (State.hasPort_of_phase hph)
  exact ⟨_, (exec_s1 hph).trans (dibSendS1_idle hfits hidle), hans, hfr, State.respond_dib _ _ _⟩

/-- Settles O34: the sampled position is the index of the view, and the loop of R192 is tested on it. -/
theorem dibReadSamplesAndAnswers : Obligations.DibReadSamplesAndAnswers := by
  rintro s output maxLen _ rfl
  exact ⟨fun hph hfits hdib hstores => ⟨_, (exec_d1 hph).trans (dibReadD1_clear hfits hdib hstores),
      State.advance_frame _ _ _, State.advance_goesOn hph⟩,
    fun hph => ⟨_, exec_d3 hph, State.respond_spec (State.hasPort_of_phase hph)⟩⟩

/-- Settles O35: the one store of step D2 is at the output address, and the byte is loaded before it. -/
theorem dibReadCopiesOneByte : Obligations.DibReadCopiesOneByte := by
  rintro s output maxLen _ _ hph hwf rfl rfl
  obtain ⟨hgo, hfr⟩ := advance_after _ _ (storeDib_frame s _ _ _) hph
  exact ⟨_, (exec_d2 hph).trans (congrArg _ dibReadD2_eq), hfr, State.advance_dib _ _ _, hgo,
    (State.load_congr (State.advance_mem _ _ _) _).trans (State.load_store_self hwf),
    fun a ha => (State.load_congr (State.advance_mem _ _ _) a).trans (State.load_store_ne ha)⟩

/-! ## The engines (R195, R197, R198) -/

section
variable {s : State}

theorem hwWriteStep_stopped (b : Byte) (h : s.dib.run = false) : hwWriteStep b s = s := by
  simp [hwWriteStep, h]

theorem hwWriteStep_running (b : Byte) (h : s.dib.run = true) :
    hwWriteStep b s = { s.store s.dib.hw b with dib := { s.dib with
      hw := s.cfg.dibBase + ((s.dib.hw - s.cfg.dibBase + 1) &&& dibMask s.cfg) } } := by
  rw [hwWriteStep, if_pos h]
  rfl

theorem txByteStep_enabled (hbusy : s.dib.txBusy = true) (hrem : s.dib.txRem ≠ 0) :
    txByteStep s = { s with txOut := s.txOut ++ [s.load s.dib.txSrc],
                            dib := { s.dib with txSrc := s.dib.txSrc + 1, txRem := s.dib.txRem - 1 } } :=
  if_pos (by simpa [State.txByteEnabled, hbusy] using hrem)

theorem txByteStep_disabled (h : s.dib.txBusy = false ∨ s.dib.txRem = 0) : txByteStep s = s :=
  if_neg (by simpa [State.txByteEnabled, ← Bool.not_eq_true, imp_iff_not_or] using h)

theorem txDoneStep_enabled (hbusy : s.dib.txBusy = true) (hrem : s.dib.txRem = 0) :
    txDoneStep s = { s with dib := { s.dib with txBusy := false } } :=
  if_pos (by simp [State.txDoneEnabled, hbusy, hrem])

theorem txDoneStep_disabled (h : s.dib.txBusy = false ∨ s.dib.txRem ≠ 0) : txDoneStep s = s :=
  if_neg (by simpa [State.txDoneEnabled, ← Bool.not_eq_true, imp_iff_not_or] using h)

end

/-- Settles O37: the byte is stored at the cursor as it was before the advance. -/
theorem ingestEngineStores : Obligations.IngestEngineStores := by
  refine fun s b => ⟨fun hrun hwf => ⟨_, rfl, hwWriteStep_frame b s, ?_⟩, fun hstop => ?_⟩
  · rw [hwWriteStep_running b hrun]
    exact ⟨rfl, State.load_store_self hwf, fun a ha => State.load_store_ne ha⟩
  · exact congrArg Host.Outcome.next (hwWriteStep_stopped b hstop)

/-- Settles O38: which of the two steps is enabled depends on `dib.tx_busy` and the bytes that remain. -/
theorem outboundEngineSteps : Obligations.OutboundEngineSteps := by
  refine fun s => ⟨fun hbusy hrem => ⟨_, rfl, txByteStep_frame s, ?_⟩,
    fun hbusy hrem => ⟨_, rfl, txDoneStep_frame s, ?_⟩, fun h => congrArg Host.Outcome.next (txByteStep_disabled h),
    fun h => congrArg Host.Outcome.next (txDoneStep_disabled h)⟩
  · rw [txByteStep_enabled hbusy hrem]
    exact ⟨rfl, rfl⟩
  · rw [txDoneStep_enabled hbusy hrem]

/-! ## An outbound transfer (R191, R197) -/

/-- Settles O39, by induction on the bytes that remain: the first step sends the byte at `tx_src`, and the engine sends
the others from `tx_src + 1` on. -/
theorem outboundTransferSendsAll : Obligations.OutboundTransferSendsAll := by
  intro s n hbusy hrem
  induction n generalizing s with
  | zero =>
    have hzero : s.dib.txRem = 0 := BitVec.eq_of_toNat_eq hrem
    refine ⟨by simp [sendBytes], ?_, AgentFrame.refl s _⟩
    rw [sendBytes, BitVec.add_zero, ← hzero]
  | succ n ih =>
    have hne : s.dib.txRem ≠ 0 := fun h => by simp [h] at hrem
    have hstep := txByteStep_enabled hbusy hne
    obtain ⟨hout, hdib, hfr⟩ := ih (txByteStep s) (by rw [hstep]; exact hbusy) (by rw [hstep]; bv_omega)
    rw [sendBytes]
    refine ⟨?_, ?_, AgentFrame.trans (txByteStep_frame s) hfr⟩
    · rw [hout, List.range_succ_eq_map, List.map_cons, List.map_map, BitVec.add_zero]
      simp only [hstep, add_one_add_ofNat, List.append_assoc]
      rfl
    · rw [hdib, hstep, ← add_one_add_ofNat]

section
variable {s t : State} {c : List Part} {m : Move}

/-- Of the steps of the requests only S1 touches the outbound side, and not while a transfer is in flight. -/
theorem execStep_txRem {i : Instr} (h : ExecStep i s t) (hp : s.hasPort s.env.acting = true)
    (hbusy : s.dib.txBusy = true) : t.dib.txRem = s.dib.txRem := by
  have hfr := (execStep_effect h hp).frame
  have hkept (hdib : .dib ∉ mayChange i s.phase) : t.dib.txRem = s.dib.txRem :=
    congrArg Dib.txRem (Frame.part (part := .dib) hfr hdib)
  cases h with
  | noStep => rfl
  | n1 _ _ _ h =>
    unfold dibInitN1 at h
    split_ifs at h
    cases h
    simp [Dib.started_eq]
  | s1 _ _ _ _ _ h =>
    unfold dibSendS1 at h
    split_ifs at h
    cases h
    rfl
  | d2 => simp [dibReadD2]
  | _ => exact hkept (by simp [mayChange, Instr.instanceOf, *])

/-- Of the other agents only `TX.BYTE` changes the number of bytes that remain. -/
theorem agentStep_txRem (hc : agentParts m = some c) (h : MoveStep m s t) (hm : m ≠ .txByte) :
    t.dib.txRem = s.dib.txRem := by
  have hfr := moveStep_agentFrame h hc
  have hkept (hdib : .dib ∉ c) : t.dib.txRem = s.dib.txRem :=
    congrArg Dib.txRem (AgentFrame.part (part := .dib) hfr hdib)
  cases h with
  | hwWrite => unfold hwWriteStep; split <;> rfl
  | txByte => exact absurd rfl hm
  | txDone => unfold txDoneStep; split <;> rfl
  | syncD => unfold syncDStep; split <;> rfl
  | syncH | syncT | envWrite | envRead => cases hc; exact hkept (by simp)
  | _ => cases hc

/-- `TX.BYTE` with bytes that remain takes one away. -/
theorem txByteStep_txRem_lt (hbusy : s.dib.txBusy = true) (hrem : s.dib.txRem ≠ 0) :
    (txByteStep s).dib.txRem.toNat < s.dib.txRem.toNat := by
  rw [txByteStep_enabled hbusy hrem]
  simp only
  bv_omega

/-- While a transfer stays in flight no move puts bytes back. -/
theorem moveStep_txRem_le (h : MoveStep m s t) (hbusy : s.dib.txBusy = true) :
    t.dib.txRem.toNat ≤ s.dib.txRem.toNat := by
  by_cases hm : m = .txByte
  · subst hm
    cases h
    by_cases hrem : s.dib.txRem = 0
    · rw [txByteStep_disabled (.inr hrem)]
    · exact (txByteStep_txRem_lt hbusy hrem).le
  · obtain rfl | ⟨c, hc⟩ | ⟨x, y, acc, rfl⟩ | ⟨i, _, ⟨e, rfl⟩, hp, -, hstep⟩ := moveStep_cases h
    · exact le_rfl
    · exact (congrArg BitVec.toNat (agentStep_txRem hc h hm)).le
    · exact Nat.zero_le _
    · exact (congrArg BitVec.toNat (execStep_txRem (s := { s with env := e }) hstep hp hbusy)).le

end

/-- Settles O40: were the transfer in flight for ever, the fair engine would send a byte again and again, and no move
puts a byte back. -/
theorem outboundTransferEnds : Obligations.OutboundTransferEnds := by
  intro moves e hrun hfair n _
  by_contra! hbusy
  replace hbusy (k : Nat) (hk : n ≤ k) : (e k).dib.txBusy = true := by simpa using hbusy k hk
  refine not_forever_falling (g := fun k => (e k).dib.txRem.toNat) (n := n)
    (fun k hk => moveStep_txRem_le (apply_cases (hrun k)) (hbusy k hk)) fun k hk => ?_
  obtain ⟨l, hl, hmove⟩ := hfair k (hbusy k hk)
  have hbusyl := hbusy l (hk.trans hl)
  have hnext := hrun l
  obtain ⟨hm, hen⟩ | ⟨hm, hen⟩ | hidle := hmove
  · have hrem : (e l).dib.txRem ≠ 0 := by simpa [State.txByteEnabled, hbusyl] using hen
    have hstep : txByteStep (e l) = e (l + 1) := Host.Outcome.next.inj (hm ▸ hnext)
    exact ⟨l, hl, hstep ▸ txByteStep_txRem_lt hbusyl hrem⟩
  · have hrem : (e l).dib.txRem = 0 := by simpa [State.txDoneEnabled, hbusyl] using hen
    have hstep : txDoneStep (e l) = e (l + 1) := Host.Outcome.next.inj (hm ▸ hnext)
    have hdone := hbusy (l + 1) (by omega)
    rw [← hstep, txDoneStep_enabled hbusyl hrem] at hdone
    cases hdone
  · simp [hbusyl] at hidle

end Sys2Proof.Proofs
end

section
/-! PROOFS. Family 42_dma_bridge.md: a DIB.READ taken as a whole (O36). -/

namespace Sys2Proof.Proofs

open Sys2Proof.Machine Sys2Proof.Safety

/-! ## The arithmetic of the bridge's buffer (R193) -/

section
variable {c : Params}

theorem toNat_dibMask (h : c.wellFormed = true) : (dibMask c).toNat = c.dibCap - 1 := by
  obtain ⟨⟨hpos, hle, -⟩, -⟩ := Params.wellFormed_iff.mp h
  rw [dibMask, BitVec.toNat_ofNat, Nat.mod_eq_of_lt (by omega)]

theorem le_dibMask_iff (h : c.wellFormed = true) {x : Word} : x ≤ dibMask c ↔ x.toNat < c.dibCap := by
  obtain ⟨⟨hpos, -⟩, -⟩ := Params.wellFormed_iff.mp h
  rw [BitVec.le_def, toNat_dibMask h]
  omega

theorem toNat_and_dibMask (h : c.wellFormed = true) (x : Word) : (x &&& dibMask c).toNat = x.toNat % c.dibCap := by
  obtain ⟨⟨-, -, hpow⟩, -⟩ := Params.wellFormed_iff.mp h
  rw [BitVec.toNat_and, toNat_dibMask h, ← hpow, Nat.and_two_pow_sub_one_eq_mod]

theorem and_dibMask_of_lt (h : c.wellFormed = true) {x : Word} (hx : x.toNat < c.dibCap) : x &&& dibMask c = x :=
  BitVec.eq_of_toNat_eq (by rw [toNat_and_dibMask h, Nat.mod_eq_of_lt hx])

/-- A buffer that does not fill the address space is masked like a ring. -/
theorem maskOk_dibMask (h : c.wellFormed = true) (hcap : c.dibCap < 2 ^ 32) : maskOk (dibMask c) = true := by
  obtain ⟨⟨hpos, -⟩, -⟩ := Params.wellFormed_iff.mp h
  have hmask := toNat_dibMask h
  have hadd : (dibMask c + 1).toNat = c.dibCap := by bv_omega
  simp only [maskOk, Bool.and_eq_true, decide_eq_true_eq]
  constructor
  · refine BitVec.eq_of_toNat_eq ?_
    rw [BitVec.and_comm, toNat_and_dibMask h, hadd, Nat.mod_self]
    rfl
  · intro hall
    rw [hall, BitVec.toNat_allOnes] at hmask
    omega

/-- Whoever has room for a byte outside the buffer has a buffer that does not fill the address space. -/
theorem dibCap_lt_of_disjoint (h : c.wellFormed = true) {output maxLen : Word} (hroom : 0 < maxLen)
    (hclear : (operandRegion output maxLen).disjoint (dibRegion c) = true) : c.dibCap < 2 ^ 32 := by
  by_contra! hcap
  have hout := output.isLt
  have hfits := dibRegion_fits h
  refine Region.not_contains_both hclear (a := output.toNat) ?_ (dibRegion_contains_iff.mpr (by omega))
  simpa [Region.contains, operandRegion] using BitVec.lt_def.mp hroom

end

/-! ## A DIB.READ as a whole (R192, R199) -/

/-- What the loop of a `DIB.READ` of `k` bytes and its answer bring about between `s` and `t`. -/
structure Drained (output : Word) (k : Nat) (s t : State) : Prop where
  answered : Answered s t .ok (s.temps.cnt + BitVec.ofNat 32 k)
  frame : Frame [.mem, .dib] s t
  dib : t.dib = { s.dib with rd := (s.dib.rd + BitVec.ofNat 32 k) &&& dibMask s.cfg }
  copied : ∀ j, j < k → t.load (output + s.temps.cnt + BitVec.ofNat 32 j) =
    s.load (s.cfg.dibBase + ((s.dib.rd + BitVec.ofNat 32 j) &&& dibMask s.cfg))
  kept : ∀ a, (∀ j, j < k → a ≠ output + s.temps.cnt + BitVec.ofNat 32 j) → t.load a = s.load a

/-- A `DIB.READ` at the test of its loop, with `k` bytes still to copy. -/
structure AtLoopTest (output maxLen : Word) (k : Nat) (s : State) : Prop where
  phase : s.phase = some (if s.dib.rd ≠ s.temps.prod ∧ s.temps.cnt < maxLen then .d2 else .d3)
  cfg : s.cfg.wellFormed = true
  mem : s.mem.wf = true
  fits : output.toNat + maxLen.toNat ≤ 2 ^ 32
  clear : s.clearOfDib (operandRegion output maxLen) = true
  rd : s.dib.rd.toNat < s.cfg.dibCap
  prod : s.temps.prod.toNat < s.cfg.dibCap
  left : k = min (occupancy s.temps.prod s.dib.rd (dibMask s.cfg)).toNat (maxLen.toNat - s.temps.cnt.toNat)

section
variable {s : State} {output maxLen : Word} {k : Nat}

theorem AtLoopTest.maskOk (h : AtLoopTest output maxLen k s) (hroom : s.temps.cnt < maxLen) :
    maskOk (dibMask s.cfg) = true :=
  maskOk_dibMask h.cfg (dibCap_lt_of_disjoint h.cfg (by bv_omega) h.clear)

/-- The loop goes on exactly while bytes are left to copy. -/
theorem AtLoopTest.more_iff (h : AtLoopTest output maxLen k s) :
    (s.dib.rd ≠ s.temps.prod ∧ s.temps.cnt < maxLen) ↔ 0 < k := by
  have hleft := h.left
  by_cases hroom : s.temps.cnt < maxLen
  · have hzero := occupancy_eq_zero_iff (h.maskOk hroom) ((le_dibMask_iff h.cfg).mpr h.prod)
      ((le_dibMask_iff h.cfg).mpr h.rd)
    rw [BitVec.lt_def] at hroom
    rw [ne_comm, ne_eq, ← hzero, BitVec.lt_def]
    omega
  · rw [BitVec.lt_def] at hroom
    rw [BitVec.lt_def]
    omega

/-- With no byte left the request answers. -/
theorem AtLoopTest.drained_zero (h : AtLoopTest output maxLen 0 s) :
    ∃ t, serve (.dibRead output maxLen) 1 s = .next t ∧ Drained output 0 s t := by
  have hph : s.phase = some .d3 := h.phase.trans (by rw [if_neg (by simp [h.more_iff])])
  obtain ⟨-, hD3⟩ := dibReadSamplesAndAnswers s output maxLen _ rfl
  obtain ⟨t, hexec, hans, hfr⟩ := hD3 hph
  have hdib : t.dib = s.dib := Frame.part (part := .dib) hfr (by simp)
  refine ⟨t, serve_succ 0 hexec, by simpa using hans, Frame.weaken hfr (by simp), ?_, nofun,
    fun a _ => Frame.part (part := .mem) hfr (by simp) a⟩
  rw [hdib, BitVec.add_zero, and_dibMask_of_lt h.cfg h.rd]

/-- With a byte left step D2 copies it, and the loop is tested again. -/
theorem AtLoopTest.pass (h : AtLoopTest output maxLen (k + 1) s) :
    ∃ u, exec (.dibRead output maxLen) s = .next u ∧ Frame [.mem, .dib] s u ∧ AtLoopTest output maxLen k u ∧
      u.dib = { s.dib with rd := nextCursor s.dib.rd (dibMask s.cfg) } ∧ u.temps.cnt = s.temps.cnt + 1 ∧
      u.load (output + s.temps.cnt) = s.load (s.cfg.dibBase + s.dib.rd) ∧
      ∀ a, a ≠ output + s.temps.cnt → u.load a = s.load a := by
  obtain ⟨hmore, hroom⟩ := h.more_iff.mpr (Nat.succ_pos k)
  have hph : s.phase = some .d2 := h.phase.trans (by rw [if_pos ⟨hmore, hroom⟩])
  obtain ⟨u, hexec, hfr, hdib, hgo, hself, hother⟩ := dibReadCopiesOneByte s output maxLen _ _ hph h.mem rfl rfl
  obtain ⟨hphu, htemps⟩ := flight_of_goesOn hgo hfr
  have hcfg : u.cfg = s.cfg := Frame.cfg hfr
  have hocc := occupancy_nextCursor_tail (h.maskOk hroom) ((le_dibMask_iff h.cfg).mpr h.prod)
    ((le_dibMask_iff h.cfg).mpr h.rd) (Ne.symm hmore)
  have hcnt : (s.temps.cnt + 1).toNat = s.temps.cnt.toNat + 1 := by bv_omega
  refine ⟨u, hexec, hfr, ?_, hdib, by rw [htemps], hself, hother⟩
  exact {
    phase := by rw [hphu, hdib, htemps]
    cfg := hcfg ▸ h.cfg
    mem := (execStep_keepsForm (exec_step hexec)).mem h.mem
    fits := h.fits
    clear := by rw [State.clearOfDib, hcfg]; exact h.clear
    rd := by rw [hdib, hcfg]; exact and_dibMask_lt h.cfg _
    prod := by rw [htemps, hcfg]; exact h.prod
    left := by
      have hleft := h.left
      rw [htemps, hdib, hcfg]
      simp only [nextCursor] at hocc ⊢
      omega }

/-- No output byte of the request lies in the buffer. -/
theorem AtLoopTest.buffer_ne_output (h : AtLoopTest output maxLen k s) (hroom : s.temps.cnt < maxLen) (x : Word) :
    s.cfg.dibBase + (x &&& dibMask s.cfg) ≠ output + s.temps.cnt := by
  intro heq
  have hin : (operandRegion output maxLen).contains (output + s.temps.cnt).toNat = true :=
    Region.contains_add rfl (operandRegion_fits.mpr h.fits) (BitVec.lt_def.mp hroom)
  exact Region.not_contains_both h.clear (heq ▸ hin) (dibRegion_contains_add h.cfg (and_dibMask_lt h.cfg x))

/-- The loop from its test on, by induction on the bytes left. -/
theorem AtLoopTest.drained (h : AtLoopTest output maxLen k s) :
    ∃ t, serve (.dibRead output maxLen) (k + 1) s = .next t ∧ Drained output k s t := by
  induction k generalizing s with
  | zero => exact h.drained_zero
  | succ k ih =>
    obtain ⟨-, hroom⟩ := h.more_iff.mpr (Nat.succ_pos k)
    obtain ⟨u, hexec, hfr, hu, hdib, hcnt, hself, hother⟩ := h.pass
    obtain ⟨t, hserve, hans, hfr', hdib', hcopied, hkept⟩ := ih hu
    have hcfg : u.cfg = s.cfg := Frame.cfg hfr
    have hk : k < 2 ^ 32 := by
      have hleft := h.left
      have hmax := maxLen.isLt
      omega
    have hslot (j : Nat) : (u.dib.rd + BitVec.ofNat 32 j) &&& dibMask s.cfg =
        (s.dib.rd + BitVec.ofNat 32 (j + 1)) &&& dibMask s.cfg := by
      rw [hdib]
      exact slot_nextCursor (h.maskOk hroom) s.dib.rd j
    have hout (j : Nat) : output + u.temps.cnt + BitVec.ofNat 32 j =
        output + s.temps.cnt + BitVec.ofNat 32 (j + 1) := by
      rw [hcnt, ← BitVec.add_assoc, add_one_add_ofNat]
    simp only [hcfg, hslot, hout] at hdib' hcopied hkept
    refine ⟨t, (serve_succ (k + 1) hexec).trans hserve, ?_, Frame.trans hfr hfr', ?_, ?_, ?_⟩
    · have hans' := Frame.answered hfr hans
      rwa [hcnt, add_one_add_ofNat] at hans'
    · rw [hdib', hdib]
    · rintro (_ | j) hj
      · rw [BitVec.add_zero, BitVec.add_zero, and_dibMask_of_lt h.cfg h.rd, ← hself]
        refine hkept _ fun j hj => ?_
        bv_omega
      · rw [hcopied j (Nat.lt_of_succ_lt_succ hj)]
        exact hother _ (h.buffer_ne_output hroom _)
    · intro a ha
      rw [hkept a fun j hj => ha (j + 1) (Nat.succ_lt_succ hj)]
      exact hother a (by simpa using ha 0 (Nat.succ_pos k))

end

/-- Settles O36: step D1 changes no part of the state and leads to the loop, at whose first test `min(n, max_len)` bytes
are left. -/
theorem dibReadDrains : Obligations.DibReadDrains := by
  rintro s output maxLen _ k hph hcfg hdib hwf hfits hclear hstores rfl hk
  obtain ⟨-, -, hrd⟩ := dibOk_iff.mp hdib
  obtain ⟨hD1, -⟩ := dibReadSamplesAndAnswers s output maxLen _ rfl
  obtain ⟨u, hexec, hfr, hgo⟩ := hD1 hph hfits hclear hstores
  obtain ⟨hphu, htemps⟩ := flight_of_goesOn hgo hfr
  have hcfgu : u.cfg = s.cfg := Frame.cfg hfr
  have hdibu : u.dib = s.dib := Frame.part (part := .dib) hfr (by simp)
  have hloadu (a : Word) : u.load a = s.load a := Frame.part (part := .mem) hfr (by simp) a
  have htest : AtLoopTest output maxLen k u := {
    phase := by rw [hphu, hdibu, htemps]
    cfg := hcfgu ▸ hcfg
    mem := (execStep_keepsForm (exec_step hexec)).mem hwf
    fits := hfits
    clear := by rw [State.clearOfDib, hcfgu]; exact hclear
    rd := by rw [hdibu, hcfgu]; exact hrd
    prod := by rw [htemps, hcfgu]; exact and_dibMask_lt hcfg _
    left := by rw [htemps, hdibu, hcfgu]; exact hk }
  obtain ⟨t, hserve, hans, hfr', hdib', hcopied, hkept⟩ := htest.drained
  simp only [hcfgu, hdibu, hloadu, htemps, add_zero] at hans hdib' hcopied hkept
  refine ⟨t, (serve_succ (k + 1) hexec).trans hserve, ?_, Frame.trans (Frame.weaken hfr (by simp)) hfr', hdib',
    hcopied, hkept⟩
  simpa using Frame.answered hfr hans

end Sys2Proof.Proofs
end

section
/-! PROOFS. Family 43_command_decoder.md: one fed byte (O42), and a whole line with its terminator (O44). -/

namespace Sys2Proof.Proofs

open Sys2Proof.Machine Sys2Proof.Safety

/-! ## One byte (R220, R224) -/

theorem isTerminator_iff {b : Byte} : isTerminator b = true ↔ b = 0x0A#8 ∨ b = 0x0D#8 := by
  simp [isTerminator]

theorem isTerminator_eq_false_iff {b : Byte} : isTerminator b = false ↔ b ≠ 0x0A#8 ∧ b ≠ 0x0D#8 := by
  simp [isTerminator]

section
variable {c : Params} {d : Cd} {b : Byte}

theorem Cd.feed_terminator (h : isTerminator b = true) :
    d.feed c b = ({ acc := d.acc.set d.idx 0, idx := 0 }, lookup (d.acc.take d.idx)) := by
  simp [Cd.feed, h]

theorem Cd.feed_appended (h : isTerminator b = false) (hroom : d.idx < c.cdCap - 1) :
    d.feed c b = ({ acc := d.acc.set d.idx b, idx := d.idx + 1 }, 0) := by
  simp [Cd.feed, h, hroom]

theorem Cd.feed_discarded (h : isTerminator b = false) (hfull : c.cdCap - 1 ≤ d.idx) : d.feed c b = (d, 0) := by
  simp [Cd.feed, h, Nat.not_lt.mpr hfull]

end

section
variable {s : State} {byte : Byte} {d : Cd} {v : Word}

/-- Step K1 stores what the decoder becomes and answers what it answers. -/
theorem exec_k1 (hph : s.phase = some .k1) (h : s.cd.feed s.cfg byte = (d, v)) :
    exec (.cdFeed byte) s = .next (({ s with cd := d } : State).respond .ok v) := by
  simp [exec, execCdFeed, cdFeedK1, hph, h]

theorem exec_k1_spec (hph : s.phase = some .k1) (h : s.cd.feed s.cfg byte = (d, v)) :
    ∃ t, exec (.cdFeed byte) s = .next t ∧ Answered s t .ok v ∧ Frame [.cd] s t ∧ t.cd = d := by
  obtain ⟨hans, hfr⟩ := respond_after .ok v (AgentFrame.setCd s d) (State.hasPort_of_phase hph)
  exact ⟨_, exec_k1 hph h, hans, hfr, State.respond_cd _ _ _⟩

end

/-- Settles O42: the three branches of `Cd.feed`; a discarded byte leaves the decoder, and so the state, as it is. -/
theorem feedFollowsTheTable : Obligations.FeedFollowsTheTable := by
  intro s byte hph
  refine ⟨fun hterm => ?_, fun hlf hcr hroom => ?_, fun hlf hcr hfull => ?_⟩
  · exact exec_k1_spec hph (Cd.feed_terminator (isTerminator_iff.mpr hterm))
  · exact exec_k1_spec hph (Cd.feed_appended (isTerminator_eq_false_iff.mpr ⟨hlf, hcr⟩) hroom)
  · exact ⟨_, exec_k1 hph (Cd.feed_discarded (isTerminator_eq_false_iff.mpr ⟨hlf, hcr⟩) hfull),
      State.respond_spec (State.hasPort_of_phase hph)⟩

/-! ## A line and its terminator (R220, R224, R225) -/

/-- The decoder inside a line whose bytes so far are `line`: the buffer holds as much of it as fits below the last
slot. -/
structure HoldsLine (c : Params) (d : Cd) (line : List Byte) : Prop where
  ok : CdOk c d
  held : d.acc.take d.idx = line.take (c.cdCap - 1)

section
variable {c : Params} {d : Cd} {line : List Byte} {b : Byte}

theorem HoldsLine.nil (hlen : d.acc.length = c.cdCap) (hidx : d.idx = 0) : HoldsLine c d [] :=
  ⟨⟨hlen, by omega⟩, by simp [hidx]⟩

theorem HoldsLine.idx_eq (h : HoldsLine c d line) : d.idx = min (c.cdCap - 1) line.length := by
  obtain ⟨⟨hlen, hidx⟩, hheld⟩ := h
  have hlengths := congrArg List.length hheld
  rw [List.length_take, List.length_take] at hlengths
  omega

theorem take_set_succ {α : Type} {l : List α} {i : Nat} (a : α) (h : i < l.length) :
    (l.set i a).take (i + 1) = l.take i ++ [a] := by
  simp [List.take_add_one, List.take_set_of_le, h]

/-- A byte of the line is answered with `NONE`, and held while there is room for it. -/
theorem HoldsLine.feed (h : HoldsLine c d line) (hb : isTerminator b = false) :
    HoldsLine c (d.feed c b).1 (line ++ [b]) ∧ (d.feed c b).2 = 0 := by
  have hidx := h.idx_eq
  have hok := h.ok.feed b
  by_cases hroom : d.idx < c.cdCap - 1
  · have hacc : d.idx < d.acc.length := h.ok.1 ▸ Nat.lt_of_lt_pred hroom
    have hfits : (line ++ [b]).length ≤ c.cdCap - 1 := by
      rw [List.length_append, List.length_singleton]
      omega
    rw [Cd.feed_appended hb hroom] at hok ⊢
    refine ⟨⟨hok, ?_⟩, rfl⟩
    rw [take_set_succ b hacc, h.held, List.take_of_length_le hfits, List.take_of_length_le (by omega)]
  · rw [Cd.feed_discarded hb (Nat.not_lt.mp hroom)]
    refine ⟨⟨h.ok, ?_⟩, rfl⟩
    rw [h.held, List.take_append_of_le_length (by omega)]

/-- The bytes of a line, one after the other. -/
theorem HoldsLine.feed_bytes {bytes : List Byte} (h : HoldsLine c d line)
    (hbytes : ∀ b, b ∈ bytes → isTerminator b = false) :
    HoldsLine c (feedAll c bytes d).1 (line ++ bytes) ∧
      (feedAll c bytes d).2 = List.replicate bytes.length 0 := by
  induction bytes generalizing d line with
  | nil => exact ⟨by simpa [feedAll] using h, rfl⟩
  | cons b bs ih =>
    obtain ⟨hb, hbs⟩ := List.forall_mem_cons.mp hbytes
    obtain ⟨hfed, hnone⟩ := h.feed hb
    obtain ⟨hrest, hnones⟩ := ih hfed hbs
    refine ⟨by simpa [feedAll] using hrest, ?_⟩
    simp [feedAll, hnone, hnones, List.replicate_succ]

/-- A terminator is answered with the lookup of what is held, and ends the line. -/
theorem HoldsLine.feed_terminator (h : HoldsLine c d line) (hb : isTerminator b = true) :
    (d.feed c b).2 = lookup (line.take (c.cdCap - 1)) ∧ (d.feed c b).1.idx = 0 ∧
      (d.feed c b).1.acc.length = c.cdCap := by
  obtain ⟨hlen, -⟩ := h.ok.feed b
  rw [Cd.feed_terminator hb] at hlen ⊢
  exact ⟨congrArg lookup h.held, rfl, hlen⟩

end

theorem feedAll_concat (c : Params) (d : Cd) (bytes : List Byte) (b : Byte) :
    feedAll c (bytes ++ [b]) d =
      (((feedAll c bytes d).1.feed c b).1, (feedAll c bytes d).2 ++ [((feedAll c bytes d).1.feed c b).2]) := by
  induction bytes generalizing d with
  | nil => rfl
  | cons b' bs ih => simp [feedAll, ih]

/-- Settles O44: after its bytes the decoder holds what fits of the line, which the terminator looks up. -/
theorem lineIsDecodedOnce : Obligations.LineIsDecodedOnce := by
  intro c d line term hlen hidx _ hterm hline
  obtain ⟨hheld, hnones⟩ := (HoldsLine.nil hlen hidx).feed_bytes hline
  obtain ⟨hcommand, hdone⟩ := hheld.feed_terminator hterm
  rw [feedAll_concat, hnones, hcommand]
  exact ⟨rfl, hdone⟩

end Sys2Proof.Proofs
end

section
/-! PROOFS. Family 44_system.md: the read (O46) and the write (O48) of a control and status register. -/

namespace Sys2Proof.Proofs

open Sys2Proof.Machine

section
variable {s : State} {csr : BitVec 12}

/-! ## SYS.CSRR (R240) -/

theorem exec_g1_named {v : Word} (hph : s.phase = some .g1) (h : s.csrRead csr = some v) :
    exec (.sysCsrr csr) s = .next (s.respond .ok v) := by
  simp [exec, execSysCsrr, sysCsrrG1, hph, h]

theorem exec_g1_unnamed (hph : s.phase = some .g1) (h : s.csrRead csr = none) :
    exec (.sysCsrr csr) s = .next (s.fail .badRequest) := by
  simp [exec, execSysCsrr, sysCsrrG1, hph, h]

/-! ## SYS.CSRW (R241) -/

variable {value : Word}

theorem exec_h1_writable {b : Brc} (hph : s.phase = some .h1) (h : s.brc.csrWrite csr value = some b) :
    exec (.sysCsrw csr value) s = .next (({ s with brc := b } : State).respond .ok 0) := by
  simp [exec, execSysCsrw, sysCsrwH1, hph, h]

theorem exec_h1_unwritable (hph : s.phase = some .h1) (h : s.brc.csrWrite csr value = none) :
    exec (.sysCsrw csr value) s = .next (s.fail .badRequest) := by
  simp [exec, execSysCsrw, sysCsrwH1, hph, h]

end

/-- The clamp of R41 in numbers: the low four bits of the value, and at most 9. -/
theorem clampPulses_eq (value : Word) : clampPulses value = BitVec.ofNat 4 (min 9 (value.toNat % 16)) := by
  have hlow : (value.extractLsb' 0 4).toNat = value.toNat % 16 := by simp
  simp only [clampPulses, BitVec.lt_def, hlow]
  split
  · rw [min_eq_left (Nat.le_of_lt ‹_›)]
  · rw [min_eq_right (Nat.not_lt.mp ‹_›), ← hlow, BitVec.ofNat_toNat, BitVec.setWidth_eq]

/-- From index 4 on no register can be written. -/
theorem Brc.csrWrite_of_le {b : Brc} {csr : BitVec 12} {value : Word} (h : 4 ≤ csr.toNat) :
    b.csrWrite csr value = none := by
  unfold Brc.csrWrite
  split
  case h_5 => rfl
  all_goals omega

/-- Settles O46: step G1 answers what `State.csrRead` finds, and only the port's record changes. -/
theorem csrReadAnswers : Obligations.CsrReadAnswers := by
  intro s csr hph
  have hp := State.hasPort_of_phase hph
  exact ⟨fun v hnamed => ⟨_, exec_g1_named hph hnamed, State.respond_spec hp⟩,
    fun hunnamed => ⟨_, exec_g1_unnamed hph hunnamed, State.respond_spec hp⟩⟩

/-- Settles O48: each of the four indices is the write `Brc.csrWrite` makes of it, and past them it makes none. -/
theorem csrWriteSets : Obligations.CsrWriteSets := by
  intro s csr value hph
  have hp := State.hasPort_of_phase hph
  refine ⟨fun b hreg => ?_, fun hout => ⟨_, exec_h1_unwritable hph (Brc.csrWrite_of_le hout), State.respond_spec hp⟩⟩
  have hwrite : s.brc.csrWrite csr value = some b := by
    obtain ⟨rfl, rfl⟩ | ⟨rfl, rfl⟩ | ⟨rfl, rfl⟩ | ⟨rfl, rfl⟩ := hreg
    · rfl
    · rfl
    · rw [← clampPulses_eq]
      rfl
    · rfl
  obtain ⟨hans, hfr⟩ := respond_after .ok 0 (AgentFrame.setBrc s b) hp
  exact ⟨_, exec_h1_writable hph hwrite, hans, State.respond_brc _ _ _, hfr⟩

end Sys2Proof.Proofs
end

section
/-! PROOFS. Family 70_reset_and_hazards.md: the stores stay apart (O58), the race of an `RB.INIT` against its producer
port (O10), and the reset input (O60). -/

namespace Sys2Proof.Proofs

open Sys2Proof.Machine Sys2Proof.Safety

/-! ## Stores and DIB buffer (R294) -/

/-- Settles O58: only step I1 moves a store, and it refuses a region that the other stores or the DIB buffer share
(`RingStep.store_cases`); `regionsOk_kept` follows this through every move. -/
theorem regionsStayDisjoint : Obligations.RegionsStayDisjoint :=
  fun _ _ hs h => regionsOk_kept.step hs h

/-! ## The race of an RB.INIT (R291, U2) -/

section
variable {s : State} {i : Instr}

/-- Step D0 of an admitted request under the hazard of R291. -/
theorem exec_hazard (hph : s.phase = none) (hadm : admits s.env.acting i = true) (hwf : i.wellFormed s.nRb = true)
    (hhaz : s.initHazard i (firstStep i) = true) : exec i s = .fault .initRace := by
  simp [exec_idle hph, accept, hadm, hwf, hhaz]

theorem exec_i1_busy {sel : BitVec 8} (base size : Word) (hph : s.phase = some .i1)
    (hbusy : s.busy (.prod sel.toNat) = true) : exec (.rbInit sel base size) s = .fault .initRace := by
  simp [exec, execRbInit, rbInitI1, hph, hbusy]

/-- A producer port admits only requests on its own instance (R97). -/
theorem instanceOf_of_admits_prod {k : Nat} (h : admits (.prod k) i = true) : i.instanceOf = some k := by
  obtain ⟨sel, _, rfl, rfl⟩ | ⟨sel, rfl, rfl⟩ | ⟨sel, rfl, rfl⟩ := (portAdmission.1 i k).mp h <;> rfl

theorem wellFormed_of_instanceOf {n k : Nat} (h : i.instanceOf = some k) (hk : k < n) : i.wellFormed n = true := by
  simp [Instr.wellFormed, h, hk]

end

/-- Settles O10: step D0 tests the hazard on either port, and step I1 tests it again. -/
theorem initRaceIsAFault : Obligations.InitRaceIsAFault := by
  refine ⟨fun s sel base size hact hph hsel hbusy => ?_, fun s i k hact hph hadm hk hinit => ?_⟩
  · obtain hph | hph := hph
    · have hhaz : s.initHazard (.rbInit sel base size) .i1 = true := by
        simp [State.initHazard, hact, Instr.instanceOf, hbusy]
      exact exec_hazard hph (by rw [hact]; rfl) (wellFormed_of_instanceOf rfl hsel) hhaz
    · exact exec_i1_busy base size hph hbusy
  · have hhaz : s.initHazard i (firstStep i) = true := by simpa [State.initHazard, hact] using hinit
    exact exec_hazard hph (hact ▸ hadm) (wellFormed_of_instanceOf (instanceOf_of_admits_prod hadm) hk) hhaz

/-! ## The reset input (R280, R281) -/

theorem length_fitBytes (n : Nat) (bytes : List Byte) : (fitBytes n bytes).length = n := by
  simp [fitBytes]

theorem resetStep_rbAt (x y : Bool) (acc : List Byte) (s : State) (i : Nat) :
    (resetStep x y acc s).rbAt i = Rb.reset := State.resetWith_rbAt s.cfg s.nRb i

/-- Settles O60: the instances are those of `State.resetWith`, the drawn bytes are fitted to the buffer, and memory is
the one field beside the parameters that comes from the state before. -/
theorem resetInputResets : Obligations.ResetInputResets := by
  intro s x y acc
  obtain ⟨hcfg, hnRb, -⟩ := resetStep_keepsForm x y acc s
  refine ⟨resetStep x y acc s, rfl, hcfg, hnRb, fun _ => rfl, fun p => ?_, fun i => ?_, rfl, rfl, rfl, rfl,
    length_fitBytes _ _, rfl, rfl, rfl⟩
  · rw [resetStep_port, State.resetWith_port]
  · rw [resetStep_rbAt]
    exact sameRegs_refl _

end Sys2Proof.Proofs
end
